-- ==== Sys2Proof/Word.lean ====
section
/-! DEFINITION. The plainest value of the machine: a byte of shared memory (R60).

Register values, addresses, lengths and cursors are unsigned integers and the spec computes with them on unbounded
naturals (R10). Their widths are parameters (R8), so they are natural numbers in this model, and their widths are an
invariant that every step keeps (Safety.lean, assumption log 1). Only a byte of memory has one fixed width. -/

namespace Sys2Proof

/-- One byte of the shared memory `Mem` (R60). -/
abbrev Byte := BitVec 8

end Sys2Proof
end

