-- ==== Sys2Proof/Config.lean ====
section
/-! DEFINITION. The implementation parameters of R8, as one record of plain data that a state carries and no step changes,
and the free values of the model (constants without a body). -/

namespace Sys2Proof

/-- The two concurrency profiles (R8, R74): two clock domains with Gray synchronisers, or one clock domain. -/
inductive CdcMode where
  | async
  | sync
  deriving DecidableEq, Repr

/-- One entry of the platform's `MemAdmits` as plain data. A list of `exactly` entries can list any predicate on the accesses
of the address space (R8, assumption log 3). -/
inductive Grant where
  /-- Every access that lies inside the run of addresses `base .. base + len - 1`. -/
  | within (base len : Nat)
  /-- The one access `MemAdmits(addr, len)`. -/
  | exactly (addr len : Nat)
  deriving DecidableEq, Repr

/-- The implementation parameters (R8, R41). They are parameters of the step relation, not state of the hardware: a state
carries them so that every theorem over states holds for every choice of them, and no step writes them. -/
structure Config where
  /-- `REG_W`, 32 or 64. -/
  regW : Nat
  /-- `CAP_W`, 1 to `REG_W - 1`. -/
  capW : Nat
  /-- `NUM_INST`, 1 to 256. -/
  numInst : Nat
  /-- `CDC_MODE`. -/
  cdc : CdcMode
  /-- `SYNC_STAGES`, at least 2. -/
  syncStages : Nat
  /-- `REG_BASE`, chosen by the platform. -/
  regBase : Nat
  /-- `MemAdmits`, chosen by the platform: an access is admitted iff one of these entries admits it. -/
  admits : List Grant
  deriving DecidableEq, Repr

/-- The legal values of R8. -/
abbrev Config.wf (c : Config) : Prop :=
  (c.regW = 32 ∨ c.regW = 64) ∧ 1 ≤ c.capW ∧ c.capW ≤ c.regW - 1 ∧ 1 ≤ c.numInst ∧ c.numInst ≤ 256 ∧ 2 ≤ c.syncStages

/-- The defaults of R8; the two OPEN parameters have the example values of `95_test_vectors.md` (assumption log 2). -/
def Config.default : Config where
  regW := 32
  capW := 16
  numInst := 2
  cdc := .async
  syncStages := 2
  regBase := 0x40000000
  admits := [.within 0x1000 0x7000]

/-- FREE VALUE: the `d`-th byte that hardware reset leaves in memory where a command in flight could have written (R301).
Nothing constrains it (assumption log 5). -/
opaque Config.freeByte : Nat → Byte

end Sys2Proof
end

