-- ==== Sys2Proof/Syntax.lean ====
section
/-! DEFINITION. The commands of LWRB-AF (R19, R105) as syntax: one constructor per row of the opcode table, and the three
command ports (R17). -/

namespace Sys2Proof

/-- The command ports of one FIFO instance: the writer's, the reader's and the exclusive port (R4, R32). -/
inductive Port where
  | w
  | r
  | x
  deriving DecidableEq, Repr

/-- A command. The operands `A`, `N`, `K` are not part of a command word: they are latched from the port's registers
(R104). Only `MOVE` carries a field, the number of its source instance (R102). -/
inductive Instr where
  /-- `INIT`: attach storage (R130). -/
  | init
  /-- `DEINIT`: detach storage (R131). -/
  | deinit
  /-- `RESET`: empty the FIFO (R230). -/
  | reset
  /-- `SET_EVT`: enable or disable the event output (R133). -/
  | setEvt
  /-- `SET_TAG`: store the user tag (R134). -/
  | setTag
  /-- `GET_TAG`: read the user tag (R135). -/
  | getTag
  /-- `IS_READY`: query readiness (R132). -/
  | isReady
  /-- `FREE`: free space (R152). -/
  | free
  /-- `OCC`: occupied space (R153). -/
  | occ
  /-- `WRITE`: copy up to `n` bytes in (R172). -/
  | write
  /-- `WRITE_EXACT`: all-or-nothing write (R173). -/
  | writeExact
  /-- `LIN_W_ADDR`: address of the linear write block (R203). -/
  | linWAddr
  /-- `LIN_W_LEN`: length of the linear write block (R204). -/
  | linWLen
  /-- `ADVANCE`: commit a zero-copy write (R205). -/
  | advance
  /-- `READ`: copy up to `n` bytes out (R174). -/
  | read
  /-- `READ_EXACT`: all-or-nothing read (R175). -/
  | readExact
  /-- `PEEK`: copy out without consuming (R176). -/
  | peek
  /-- `LIN_R_ADDR`: address of the linear read block (R200). -/
  | linRAddr
  /-- `LIN_R_LEN`: length of the linear read block (R201). -/
  | linRLen
  /-- `SKIP`: commit a zero-copy read (R202). -/
  | skip
  /-- `OVERWRITE`: write all `n` bytes, evicting the oldest (R231). -/
  | overwrite
  /-- `MOVE`: transfer bytes from instance `src` to the instance of the port (R233). -/
  | move (src : Nat)
  /-- `FIND`: search the unread bytes (R232). -/
  | find
  deriving DecidableEq, Repr

end Sys2Proof
end

