-- ==== Sys2Proof/Decode.lean ====
section
/-! DEFINITION. Command words (R100 to R109): the opcode map, the legal ports, the decoder of R107 (total on every word,
rejecting by name) and the encoder. -/

namespace Sys2Proof

/-- `v[hi:lo]`: bits `hi` down to `lo` of `v` as an unsigned number (R10). -/
def bitField (v hi lo : Nat) : Nat := v / 2 ^ lo % 2 ^ (hi + 1 - lo)

/-- The opcode map of R105: the command that `OP = op` selects, with `SRC = src` for `MOVE`; none for a reserved `OP`. -/
def instrOfOp (op src : Nat) : Option Instr :=
  match op with
  | 0x01 => some .init
  | 0x02 => some .deinit
  | 0x03 => some .reset
  | 0x04 => some .setEvt
  | 0x05 => some .setTag
  | 0x06 => some .getTag
  | 0x07 => some .isReady
  | 0x08 => some .free
  | 0x09 => some .occ
  | 0x10 => some .write
  | 0x11 => some .writeExact
  | 0x12 => some .linWAddr
  | 0x13 => some .linWLen
  | 0x14 => some .advance
  | 0x18 => some .read
  | 0x19 => some .readExact
  | 0x1A => some .peek
  | 0x1B => some .linRAddr
  | 0x1C => some .linRLen
  | 0x1D => some .skip
  | 0x20 => some .overwrite
  | 0x21 => some (.move src)
  | 0x22 => some .find
  | _ => none

/-- The ports a command is legal on (R105, R106). -/
def Instr.legalPorts : Instr → List Port
  | .init | .deinit | .reset | .setEvt | .setTag => [.x]
  | .getTag | .isReady | .free | .occ => [.w, .r, .x]
  | .write | .writeExact | .linWAddr | .linWLen | .advance => [.w, .x]
  | .read | .readExact | .peek | .linRAddr | .linRLen | .skip => [.r, .x]
  | .overwrite | .move _ | .find => [.x]

/-- `P in LegalPorts(op)` (R106). -/
def Instr.legalOn (i : Instr) (p : Port) : Bool := i.legalPorts.contains p

/-- Why a word is ILLEGAL (R272). -/
inductive Illegal where
  /-- `word[7:6] != 0`. -/
  | rsv0
  /-- `word[REG_W-1:16] != 0`. -/
  | rsv1
  /-- `OP` is not in the opcode map. -/
  | reservedOp
  /-- `OP` is not legal on the port written. -/
  | wrongPort
  /-- `MOVE` with `SRC >= NUM_INST`. -/
  | srcRange
  /-- a command other than `MOVE` with `SRC != 0`. -/
  | srcNotZero
  deriving DecidableEq, Repr

/-- `Decode(P, word)` of R107, for a controller of `numInst` instances: the command, or the first test that fails. -/
def decode (numInst : Nat) (p : Port) (word : Nat) : Except Illegal Instr :=
  let op := bitField word 5 0
  let src := bitField word 15 8
  if bitField word 7 6 ≠ 0 then .error .rsv0
  else if word / 2 ^ 16 ≠ 0 then .error .rsv1
  else match instrOfOp op src with
    | none => .error .reservedOp
    | some i =>
      if i.legalOn p = false then .error .wrongPort
      else if op = 0x21 ∧ numInst ≤ src then .error .srcRange
      else if op ≠ 0x21 ∧ src ≠ 0 then .error .srcNotZero
      else .ok i

/-- `OP` of a command (R105). -/
def Instr.opcode : Instr → Nat
  | .init => 0x01
  | .deinit => 0x02
  | .reset => 0x03
  | .setEvt => 0x04
  | .setTag => 0x05
  | .getTag => 0x06
  | .isReady => 0x07
  | .free => 0x08
  | .occ => 0x09
  | .write => 0x10
  | .writeExact => 0x11
  | .linWAddr => 0x12
  | .linWLen => 0x13
  | .advance => 0x14
  | .read => 0x18
  | .readExact => 0x19
  | .peek => 0x1A
  | .linRAddr => 0x1B
  | .linRLen => 0x1C
  | .skip => 0x1D
  | .overwrite => 0x20
  | .move _ => 0x21
  | .find => 0x22

/-- `SRC` of a command word: `MOVE`'s source, else 0 (R102). -/
def Instr.srcField : Instr → Nat
  | .move src => src
  | _ => 0

/-- The command word `OP | SRC << 8`, every reserved bit 0 (R100, R105, R112). -/
def encode (i : Instr) : Nat := i.opcode + i.srcField * 2 ^ 8

/-- The instruction read from a word of the opcode table, on the X port, where every command is legal (R106), of a
controller with the default parameters (R8). A command word is stored whole in one register, so it has no byte order
(R62), and bits above `nbits` are 0. -/
def decodeTableWord (nbits w : Nat) : Option Instr :=
  match decode Config.default.numInst .x (w % 2 ^ nbits) with
  | .ok i => some i
  | .error _ => none

end Sys2Proof
end

