-- ==== Sys2Proof/Machine/State.lean ====
section
/-! DEFINITION. The architectural state (10_state.md), the model faults (R276), the agents' actions (R68) and the state
after hardware reset (R42, R300), all plain data. -/

namespace Sys2Proof.Machine

/-- The outcome of the last command word on a port, `STATUS.CODE` (R271). The value 3 is never produced. -/
inductive Code where
  | done
  | illegal
  | abort
  deriving DecidableEq, Repr

/-- The kind of an event (R281). -/
inductive EvtKind where
  | read
  | write
  | reset
  deriving DecidableEq, Repr

/-- One pulse of an event channel as the history records it: the channel's port, the kind and the byte count (R280). -/
structure Event where
  port : Port
  kind : EvtKind
  count : Nat
  deriving DecidableEq, Repr

/-- A command in a port's one-deep slot: the decoded command (with `SRC`) and the operands latched at ISSUE (R36). -/
structure Pending where
  instr : Instr
  a : Nat
  n : Nat
  k : Nat
  deriving DecidableEq, Repr

/-- The registers of one port (R32 to R36). `STATUS` is computed from `code`, `busy` and the view when it is read (R35). -/
structure PortState where
  a : Nat
  n : Nat
  k : Nat
  cmd : Nat
  res0 : Nat
  res1 : Nat
  code : Code
  busy : Option Pending
  deriving DecidableEq, Repr

/-- A port after hardware reset (R42). -/
def PortState.reset : PortState where
  a := 0
  n := 0
  k := 0
  cmd := 0
  res0 := 0
  res1 := 0
  code := .done
  busy := none

/-- One FIFO instance (R22 to R31). `wsync` and `rsync` list the synchroniser chains, stage 1 first; the published Gray codes
`wg` and `rg` are computed from `wpub` and `rpub` (Machine/Ops.lean), since R31 and R82 keep them equal to the codes. -/
structure Inst where
  /-- `BASE`: the address of `storage[0]`; 0 when no storage is attached (R24). -/
  base : Nat
  /-- `SIZE`: the number of slots (R23). -/
  size : Nat
  /-- The read cursor (R25). -/
  r : Nat
  /-- The write cursor (R25). -/
  w : Nat
  /-- The W domain's view of the read cursor (R30). -/
  rv : Nat
  /-- The R domain's view of the write cursor (R30). -/
  wv : Nat
  /-- The free-running count of bytes written (R31). -/
  wcnt : Nat
  /-- The published write count (R31). -/
  wpub : Nat
  /-- The R domain's chain that samples the published write count's Gray code (R31). -/
  wsync : List Nat
  /-- The free-running count of bytes read (R31). -/
  rcnt : Nat
  /-- The published read count (R31). -/
  rpub : Nat
  /-- The W domain's chain that samples the published read count's Gray code (R31). -/
  rsync : List Nat
  /-- `EVT_EN` (R28). -/
  evtEn : Bool
  /-- `TAG` (R29). -/
  tag : Nat
  /-- `events(I)`: the history of events output, oldest first (R40, R280). -/
  events : List Event
  /-- The W port (R32). -/
  wport : PortState
  /-- The R port (R32). -/
  rport : PortState
  /-- The X port (R32). -/
  xport : PortState
  deriving DecidableEq, Repr

/-- An instance after hardware reset, with an empty history, of a controller with `stages` synchroniser stages (R42). -/
def Inst.reset (stages : Nat) : Inst where
  base := 0
  size := 0
  r := 0
  w := 0
  rv := 0
  wv := 0
  wcnt := 0
  wpub := 0
  wsync := List.replicate stages 0
  rcnt := 0
  rpub := 0
  rsync := List.replicate stages 0
  evtEn := false
  tag := 0
  events := []
  wport := .reset
  rport := .reset
  xport := .reset

/-- The shared byte memory `Mem` (R60): address and byte pairs, addresses strictly rising, no byte equal to what an unlisted
address reads as (Machine/Ops.lean). -/
abbrev Memory := List Host.Cell

/-- Whether a host access to a byte of `Mem` reads or writes it (R276). -/
inductive Access where
  | read
  | write
  deriving DecidableEq, Repr

/-- The model faults of R276, each with the information the rule says is recorded, and one of the model's own. A step that
raises one makes no other change (R14); a faulted run promises nothing but the fault (R277), so each is safe. -/
inductive Fault where
  /-- `F_ISSUE_BUSY`: ISSUE, a command word written to a busy port (R70). Safe: the model stops. -/
  | issueBusy (inst : Nat) (port : Port) (word : Nat)
  /-- `F_EXCL`: ISSUE, a command whose footprint conflicts with a busy command's (R71). Safe: the model stops. -/
  | excl (inst : Nat) (port : Port) (word : Nat)
  /-- `F_HOST_RACE`: a host byte access that breaks the contract of R87 or R88. Safe: the model stops. -/
  | hostRace (addr : Nat) (access : Access)
  /-- `F_OVERLAP`: COMPLETE, an operand range or a storage that meets a ready storage (R65). Safe: the model stops. -/
  | overlap (inst : Nat) (port : Port)
  /-- `F_BUS`: COMPLETE, an engine access past the address space or outside `MemAdmits` (R64). Safe: the model stops. -/
  | bus (inst : Nat) (port : Port) (addr len : Nat)
  /-- `F_REG_ACCESS`: a register access of the wrong width, misaligned or to a missing instance (R63). Safe: the model stops. -/
  | regAccess (addr width : Nat)
  /-- The model's own: a host step on a byte at `2 ^ REG_W` or above, which `Mem` does not have (R60). Safe: the model stops. -/
  | noAddress (addr : Nat)
  deriving DecidableEq, Repr

/-- Why `exec` gives no outcome. `step` never meets the last three: it takes a COMPLETE step only where it is enabled
(R72, R73) and ISSUE admits only decoded commands (R69). All are safe: the model stops. -/
inductive Refusal where
  /-- An instruction that has no meaning yet (raised by no arm of this model). -/
  | notModelled (mnemonic : String)
  /-- The port engine's slot is empty, so its COMPLETE step is not enabled (R72, R73). -/
  | notBusy
  /-- The command is not legal on the engine's port, so ISSUE never accepts it there (R106). -/
  | illegalPort
  /-- The command involves an instance the controller does not have, so ISSUE never accepts it (R102). -/
  | noInstance
  deriving DecidableEq, Repr

/-- A port of an instance. -/
structure Site where
  inst : Nat
  port : Port
  deriving DecidableEq, Repr

/-- A step of one of the agents of R68, with the draw it makes where the spec leaves one. -/
inductive Action where
  /-- A host writes `value` to the register at `addr` with an access of `width` bits (R63). -/
  | regWrite (addr width value : Nat)
  /-- A host reads the register at `addr` with an access of `width` bits (R63). -/
  | regRead (addr width : Nat)
  /-- A host writes one byte of `Mem` (R86). -/
  | memWrite (addr : Nat) (b : Byte)
  /-- A host reads one byte of `Mem` (R86). -/
  | memRead (addr : Nat)
  /-- A port engine takes its COMPLETE step (R72, R73). -/
  | complete (inst : Nat) (port : Port)
  /-- `SYNC_W2R` of an instance with the drawn jump `k` (R80). -/
  | syncW2R (inst k : Nat)
  /-- `SYNC_R2W` of an instance with the drawn jump `k` (R80). -/
  | syncR2W (inst k : Nat)
  /-- A W-domain clock edge of an instance's Gray implementation (R78, R79). -/
  | wClock (inst : Nat)
  /-- An R-domain clock edge of an instance's Gray implementation (R78, R79). -/
  | rClock (inst : Nat)
  /-- The hardware reset step (R300). -/
  | hwReset
  deriving DecidableEq, Repr

/-- The state of the controller (R40), its parameters (R41) and the model's own bookkeeping. -/
structure State where
  /-- The implementation parameters (R8), which no step changes. -/
  cfg : Config
  /-- The instances `0 .. NUM_INST - 1` (R22). -/
  insts : List Inst
  /-- `Mem` (R60). -/
  mem : Memory
  /-- The model faults recorded, oldest first (R40, R276, R277). -/
  faults : List Fault
  /-- MODEL'S OWN: the port whose engine takes the COMPLETE step that `exec` runs. -/
  site : Site
  /-- MODEL'S OWN: the steps the agents take next, oldest first (the interleaving of R68, R279). -/
  sched : List Action
  /-- MODEL'S OWN: the value the last host read returned. -/
  rdata : Option Nat
  /-- MODEL'S OWN: the number of free bytes drawn so far (R301). -/
  draws : Nat
  deriving DecidableEq, Repr

/-- The state after hardware reset at power-on, with the default parameters (R8, R42, R300). -/
def State.reset : State where
  cfg := .default
  insts := List.replicate Config.default.numInst (.reset Config.default.syncStages)
  mem := []
  faults := []
  site := ⟨0, .x⟩
  sched := []
  rdata := none
  draws := 0

end Sys2Proof.Machine
end

