-- ==== Sys2Proof/Machine/Ops.lean ====
section
/-! DEFINITION. The named operations over memory, ring positions, Gray codes, instances and ports, the commit primitives
(R170, R171), raising a model fault (R14), and the COMPLETE step that every command shares (R72, R73). -/

namespace Sys2Proof.Machine

/-- What a step or a command answers. -/
abbrev Out := Host.Outcome State Fault Refusal

/-! ### Shared memory (R13, R60) -/

/-- What an address with no listed byte reads as. The spec leaves memory at power-on unspecified (R300); assumption log 4. -/
def Memory.fill : Byte := 0

/-- The byte at `a`. -/
def Memory.read : Memory → Nat → Byte
  | [], _ => Memory.fill
  | (k, v) :: m, a => if k = a then v else Memory.read m a

/-- Store byte `b` at `a`, keeping the list sorted and free of entries equal to `fill`. -/
def Memory.write : Memory → Nat → Byte → Memory
  | [], a, b => if b = Memory.fill then [] else [(a, b)]
  | (k, v) :: m, a, b =>
    if a < k then (if b = Memory.fill then (k, v) :: m else (a, b) :: (k, v) :: m)
    else if a = k then (if b = Memory.fill then m else (a, b) :: m)
    else (k, v) :: Memory.write m a b

/-- `MemRead(a, n)`: the bytes at `a .. a + n - 1`, lowest address first (R13). -/
def Memory.readBytes (m : Memory) : Nat → Nat → List Byte
  | _, 0 => []
  | a, n + 1 => m.read a :: Memory.readBytes m (a + 1) n

/-- `MemWrite(a, n, v)`: the bytes `v` to `a .. a + n - 1`, `v[0]` at `a` (R13). -/
def Memory.writeBytes : Memory → Nat → List Byte → Memory
  | m, _, [] => m
  | m, a, b :: bs => Memory.writeBytes (m.write a b) (a + 1) bs

/-- The canonical form: addresses strictly rising, no byte equal to `fill`. -/
abbrev Memory.wf (m : Memory) : Prop :=
  m.Pairwise (fun x y => x.1 < y.1) ∧ ∀ c ∈ m, c.2 ≠ Memory.fill

/-! ### Ring arithmetic (R11) -/

/-- `dist_S(a, b)`: how far `b` is ahead of `a` going forward around the ring. -/
def dist (S a b : Nat) : Nat := (b + S - a) % S

/-- `wrap_S(x)`: the cursor wrap, for `x < 2 * S`. -/
def wrap (S x : Nat) : Nat := if S ≤ x then x - S else x

/-! ### Gray codes (R76) -/

/-- `gray(b) = b XOR (b >> 1)`. -/
def gray (b : Nat) : Nat := b ^^^ (b >>> 1)

/-- The bits `n - 1 .. 0` of `bin(g)`, given bit `n` of it: `b[k] = b[k+1] XOR g[k]`. -/
def ungrayFrom : Nat → Bool → Nat → Nat
  | 0, _, _ => 0
  | n + 1, above, g =>
    let b := above ^^ g.testBit n
    b.toNat * 2 ^ n + ungrayFrom n b g

/-- `bin(g)` on `capW` bits: the top bit is the code's own. -/
def ungray (capW g : Nat) : Nat := ungrayFrom capW false g

/-- How far the count `x` is behind `cnt`, modulo `2 ^ capW`: `(cnt - x) mod 2^CAP_W` (R79). -/
def behind (capW cnt x : Nat) : Nat := (cnt + 2 ^ capW - x) % 2 ^ capW

/-! ### Instances and ports -/

/-- `ready(I)` (R27). -/
def Inst.ready (I : Inst) : Bool := I.base ≠ 0 ∧ I.size ≠ 0

/-- The registers of port `p`. -/
def Inst.port (I : Inst) : Port → PortState
  | .w => I.wport
  | .r => I.rport
  | .x => I.xport

/-- Replace the registers of port `p`. -/
def Inst.setPort (I : Inst) : Port → PortState → Inst
  | .w, q => { I with wport := q }
  | .r, q => { I with rport := q }
  | .x, q => { I with xport := q }

/-- The published write count's Gray code, `I.wg` (R31). -/
def Inst.wg (I : Inst) : Nat := gray I.wpub

/-- The published read count's Gray code, `I.rg` (R31). -/
def Inst.rg (I : Inst) : Nat := gray I.rpub

/-- `wseen`: the write count at the end of the R domain's chain (R79). -/
def Inst.wseen (I : Inst) (capW : Nat) : Nat := ungray capW (I.wsync.getLastD 0)

/-- `rseen`: the read count at the end of the W domain's chain (R79). -/
def Inst.rseen (I : Inst) (capW : Nat) : Nat := ungray capW (I.rsync.getLastD 0)

/-- Instance `j`. -/
def State.inst (s : State) (j : Nat) : Inst := s.insts.getD j (.reset s.cfg.syncStages)

/-- Replace instance `j`. -/
def State.setInst (s : State) (j : Nat) (I : Inst) : State := { s with insts := s.insts.set j I }

/-- Change instance `j` by `f`. -/
def State.modInst (s : State) (j : Nat) (f : Inst → Inst) : State := s.setInst j (f (s.inst j))

/-- The instance whose port engine is running. -/
def State.here (s : State) : Inst := s.inst s.site.inst

/-- The registers of the port whose engine is running. -/
def State.herePort (s : State) : PortState := s.here.port s.site.port

/-- Change the registers of the port whose engine is running. -/
def State.modPort (s : State) (f : PortState → PortState) : State :=
  s.modInst s.site.inst fun I => I.setPort s.site.port (f (I.port s.site.port))

/-- `P.RES0 <- v` (R34). -/
def State.setRes0 (s : State) (v : Nat) : State := s.modPort fun q => { q with res0 := v }

/-- `P.RES1 <- v` (R34). -/
def State.setRes1 (s : State) (v : Nat) : State := s.modPort fun q => { q with res1 := v }

/-! ### Events and commits -/

/-- `emit(I, P, kind, count)`: append to the history when `EVT_EN = 1` (R14, R280). -/
def Inst.emit (I : Inst) (p : Port) (kind : EvtKind) (count : Nat) : Inst :=
  if I.evtEn then { I with events := I.events ++ [⟨p, kind, count⟩] } else I

/-- The two-bit `EVT_KIND` of a pulse (R281). -/
def EvtKind.code : EvtKind → Nat
  | .read => 0
  | .write => 1
  | .reset => 2

/-- `(cnt + m) mod 2^CAP_W`, at every advance (R77, R170, R171; assumption log 9). -/
def bumpCount (c : Config) (cnt m : Nat) : Nat := (cnt + m) % 2 ^ c.capW

/-- `CommitW(I, P, wr, m)` (R170). -/
def Inst.commitW (c : Config) (I : Inst) (p : Port) (wr m : Nat) : Inst :=
  let I' := { I with w := wrap I.size (wr + m), wcnt := bumpCount c I.wcnt m }
  if m = 0 then I' else I'.emit p .write m

/-- `CommitR(I, P, rd, m)` (R171). -/
def Inst.commitR (c : Config) (I : Inst) (p : Port) (rd m : Nat) : Inst :=
  let I' := { I with r := wrap I.size (rd + m), rcnt := bumpCount c I.rcnt m }
  if m = 0 then I' else I'.emit p .read m

/-- `CommitW` on instance `j` by the running engine's port. -/
def State.commitW (s : State) (j wr m : Nat) : State := s.modInst j fun I => I.commitW s.cfg s.site.port wr m

/-- `CommitR` on instance `j` by the running engine's port. -/
def State.commitR (s : State) (j rd m : Nat) : State := s.modInst j fun I => I.commitR s.cfg s.site.port rd m

/-- Both cursors and both counts to 0, as `INIT` and `RESET` set them (R130, R230). -/
def Inst.zeroCursors (I : Inst) : Inst := { I with r := 0, w := 0, rcnt := 0, wcnt := 0 }

/-- The effect of `RESET` on a ready instance: cursors and counts to 0, then the reset event (R230). -/
def Inst.resetCursors (I : Inst) (p : Port) : Inst := I.zeroCursors.emit p .reset 0

/-! ### Storage (R13) -/

/-- The runs of addresses that hold the `n` slots from slot `s` of `I`: to the end of storage, then from slot 0. -/
def Inst.runs (I : Inst) (s n : Nat) : List (Nat × Nat) :=
  let first := min n (I.size - s)
  [(I.base + s, first), (I.base, n - first)]

/-- The accesses of `n` slots from slot `s` on, read one by one as `Slot(I, (s + j) mod S)`, each of one byte (R13, R232). -/
def Inst.slotBytes (I : Inst) (s n : Nat) : List (Nat × Nat) := (List.range n).map fun j => (I.base + (s + j) % I.size, 1)

/-- `StorageRead(I, s, n)`: the two-segment copy out of storage. -/
def Inst.storageRead (I : Inst) (m : Memory) (s n : Nat) : List Byte :=
  let first := min n (I.size - s)
  m.readBytes (I.base + s) first ++ m.readBytes I.base (n - first)

/-- `StorageWrite(I, s, v)`: the two-segment copy into storage. -/
def Inst.storageWrite (I : Inst) (m : Memory) (s : Nat) (v : List Byte) : Memory :=
  let first := min v.length (I.size - s)
  (m.writeBytes (I.base + s) (v.take first)).writeBytes I.base (v.drop first)

/-! ### Faults -/

/-- The code of a model fault in the table of R276; the model's own fault has none. -/
def Fault.code : Fault → Option Nat
  | .issueBusy _ _ _ => some 1
  | .excl _ _ _ => some 2
  | .hostRace _ _ => some 3
  | .overlap _ _ => some 4
  | .bus _ _ _ _ => some 5
  | .regAccess _ _ => some 6
  | .noAddress _ => none

/-- `raise Fault(F)`: record the fault and change nothing else; the record is a set and never shrinks (R14, R40, R277).
LWRB-AF has no traps (R270), so this is all that takes the place of exception entry, and there is no return (R287). -/
def State.raise (s : State) (f : Fault) : State :=
  if f ∈ s.faults then s else { s with faults := s.faults ++ [f] }

/-! ### The COMPLETE step -/

/-- `Inst(c)`: the instances a command of instance `i` involves (R73). -/
def involved (c : Instr) (i : Nat) : List Nat :=
  match c with
  | .move src => [i, src]
  | _ => [i]

/-- `J.rv <- J.r ; J.wv <- J.w` and the Gray resync of an X-port COMPLETE (R73, R82). -/
def Inst.resync (I : Inst) : Inst :=
  { I with
    rv := I.r, wv := I.w, wpub := I.wcnt, rpub := I.rcnt
    wsync := I.wsync.map fun _ => gray I.wcnt
    rsync := I.rsync.map fun _ => gray I.rcnt }

/-- `I.rv <- I.r ; I.wv <- I.w` at a W-port or R-port COMPLETE in `CDC_MODE = SYNC` (R72, R74). -/
def Inst.track (c : Config) (I : Inst) : Inst :=
  match c.cdc with
  | .async => I
  | .sync => { I with rv := I.r, wv := I.w }

/-- What a COMPLETE step does to the views after the command's rule (R72, R73). -/
def State.settleViews (s : State) (c : Instr) : State :=
  match s.site.port with
  | .x => (involved c s.site.inst).foldl (fun t j => t.modInst j Inst.resync) s
  | _ => s.modInst s.site.inst (Inst.track s.cfg)

/-- The end of a COMPLETE step: the views, then `STATUS.CODE` and the slot (R72, R73). -/
def State.finish (s : State) (c : Instr) (code : Code) : State :=
  (s.settleViews c).modPort fun q => { q with code := code, busy := none }

/-- The COMPLETE step of command `i` on the running engine's port: `rule` is the pseudocode of the command, run on the
latched operands, and gives the state and `CODE` it leaves or the fault it raises (R72, R73). -/
def complete (i : Instr) (s : State) (rule : Pending → Except Fault (State × Code)) : Out :=
  match s.herePort.busy with
  | none => .refused .notBusy
  | some c =>
    if i.legalOn s.site.port = false then .refused .illegalPort
    else if ¬ ∀ j ∈ involved i s.site.inst, j < s.insts.length then .refused .noInstance
    else match rule c with
      | .error f => .fault f
      | .ok (t, code) => .next (t.finish i code)

end Sys2Proof.Machine
end

