-- ==== Sys2Proof/Machine/Flags.lean ====
section
/-! DEFINITION. The flag logic (41_occupancy.md) and the linear-block lengths (R201, R204): pure functions of an instance
and a view. -/

namespace Sys2Proof.Machine

/-- `occ(I, rd, wr)` (R150). -/
def Inst.occ (I : Inst) (rd wr : Nat) : Nat :=
  if I.ready = false then 0
  else if rd ≤ wr then wr - rd
  else I.size - (rd - wr)

/-- `free(I, rd, wr)` (R151). -/
def Inst.free (I : Inst) (rd wr : Nat) : Nat :=
  if I.ready = false then 0 else I.size - I.occ rd wr - 1

/-- The length of the linear read block (R201). -/
def Inst.linRLen (I : Inst) (rd wr : Nat) : Nat :=
  if I.ready = false then 0
  else if rd < wr then wr - rd
  else if wr < rd then I.size - rd
  else 0

/-- The length of the linear write block, with the off-by-one at the zero boundary (R204). -/
def Inst.linWLen (I : Inst) (rd wr : Nat) : Nat :=
  if I.ready = false then 0
  else if rd ≤ wr then
    let len := I.size - wr
    if rd = 0 then len - 1 else len
  else rd - wr - 1

/-- The address of the linear read block (R200). -/
def Inst.linRAddr (I : Inst) (rd : Nat) : Nat := if I.ready = false then 0 else I.base + rd

/-- The address of the linear write block (R203). -/
def Inst.linWAddr (I : Inst) (wr : Nat) : Nat := if I.ready = false then 0 else I.base + wr

/-- `view(I, P) = (rd, wr)` (R15). -/
def Inst.view (I : Inst) : Port → Nat × Nat
  | .w => (I.rv, I.w)
  | .r => (I.r, I.wv)
  | .x => (I.r, I.w)

/-- `EMPTY`, `STATUS[3]` (R154). -/
def Inst.emptyFlag (I : Inst) (p : Port) : Bool := I.occ (I.view p).1 (I.view p).2 = 0

/-- `FULL`, `STATUS[4]` (R155). -/
def Inst.fullFlag (I : Inst) (p : Port) : Bool := I.free (I.view p).1 (I.view p).2 = 0

/-- `STATUS.CODE` as a number (R271). -/
def Code.value : Code → Nat
  | .done => 0
  | .illegal => 1
  | .abort => 2

/-- `P.STATUS` (R35): `BUSY` bit 0, `CODE` bits 2:1, `EMPTY` bit 3, `FULL` bit 4, `READY` bit 5. -/
def Inst.status (I : Inst) (p : Port) : Nat :=
  (I.port p).busy.isSome.toNat + (I.port p).code.value * 2 + (I.emptyFlag p).toNat * 8 + (I.fullFlag p).toNat * 16
    + I.ready.toNat * 32

end Sys2Proof.Machine
end

