-- ==== Sys2Proof/Machine/Operands.lean ====
section
/-! DEFINITION. What a command checks about its operands before any effect (R64, R65), and the view it reads (R15). -/

namespace Sys2Proof.Machine

/-- An entry of the platform's predicate admits the access to `a .. a + n - 1` (R8). -/
def grantCovers (g : Grant) (a n : Nat) : Bool :=
  match g with
  | .within base len => base ≤ a ∧ a + n ≤ base + len
  | .exactly addr len => a = addr ∧ n = len

/-- `MemAdmits(a, n)`: the engine may read and write the bytes `a .. a + n - 1` (R8). -/
def memAdmits (c : Config) (a n : Nat) : Bool := c.admits.any fun g => grantCovers g a n

/-- An access of `n > 0` bytes that runs past the address space or is not admitted (R64). -/
def rejects (c : Config) (a n : Nat) : Bool :=
  n ≠ 0 ∧ (2 ^ c.regW < a + n ∨ memAdmits c a n = false)

/-- `F_BUS` for the first rejected access of a command, none if there is none (R64). -/
def State.busFault (s : State) (accesses : List (Nat × Nat)) : Option Fault :=
  (accesses.find? fun x => rejects s.cfg x.1 x.2).map fun x => .bus s.site.inst s.site.port x.1 x.2

/-- The ranges `[a, a + n)` and `[b, b + m)` share an address; an empty range meets nothing (R65). -/
def meets (a n b m : Nat) : Bool := n ≠ 0 ∧ m ≠ 0 ∧ a < b + m ∧ b < a + n

/-- `[a, a + n)` meets the storage of some ready instance (R65). -/
def State.meetsStorage (s : State) (a n : Nat) : Bool :=
  s.insts.any fun J => J.ready && meets a n J.base J.size

/-- `F_OVERLAP` for an operand range, none if it meets no ready storage (R65). -/
def State.overlapFault (s : State) (a n : Nat) : Option Fault :=
  if s.meetsStorage a n then some (.overlap s.site.inst s.site.port) else none

/-- The check of a command whose operand range is the `m` bytes `[a, a + m)` and whose storage accesses are `runs`: `F_BUS`
over every access first, then `F_OVERLAP` (R64, R65, R278). -/
def State.copyFault (s : State) (a m : Nat) (runs : List (Nat × Nat)) : Option Fault :=
  (s.busFault ((a, m) :: runs)).or (s.overlapFault a m)

/-- The view of the running engine's port, read once (R15). -/
def State.view (s : State) : Nat × Nat := s.here.view s.site.port

end Sys2Proof.Machine
end

