-- ==== Sys2Proof/Machine/WriteRead.lean ====
section
/-! DEFINITION. Bulk write, read and peek (42_write_read.md, R172 to R176). -/

namespace Sys2Proof.Machine

/-- A command on an instance that is not ready, with a null buffer or a zero length (R274). -/
def State.sentinel (s : State) (c : Pending) : Bool := s.here.ready = false ∨ c.a = 0 ∨ c.n = 0

/-- Copy `m` bytes from `[a, a + m)` to the storage at the view's write position and commit them, leaving `res` in `RES0`:
the common end of `WRITE` and `WRITE_EXACT` (R172, R173). -/
def State.copyIn (s : State) (a m res : Nat) : Except Fault (State × Code) :=
  let I := s.here
  let wr := s.view.2
  match s.copyFault a m (I.runs wr m) with
  | some f => .error f
  | none =>
    let s' := { s with mem := I.storageWrite s.mem wr (s.mem.readBytes a m) }
    .ok ((s'.commitW s.site.inst wr m).setRes0 res, .done)

/-- Copy the `m` bytes of storage from slot `from` to `[a, a + m)`, leaving `res` in `RES0`: the copy of `READ`,
`READ_EXACT` and `PEEK` (R174 to R176). -/
def State.copyOut (s : State) (slot a m res : Nat) : Except Fault (State × Code) :=
  let I := s.here
  match s.copyFault a m (I.runs slot m) with
  | some f => .error f
  | none => .ok (({ s with mem := s.mem.writeBytes a (I.storageRead s.mem slot m) }).setRes0 res, .done)

/-- `copyOut` from the view's read position, and the commit of the bytes read: the common end of `READ` and `READ_EXACT`
(R174, R175). -/
def State.consume (s : State) (a m res : Nat) : Except Fault (State × Code) :=
  match s.copyOut s.view.1 a m res with
  | .error f => .error f
  | .ok (t, code) => .ok (t.commitR s.site.inst s.view.1 m, code)

/-- `WRITE` (R172). -/
def execWrite (s : State) : Out :=
  complete .write s fun c =>
    if s.sentinel c then .ok (s.setRes0 0, .done)
    else
      let m := min (s.here.free s.view.1 s.view.2) c.n
      if m = 0 then .ok (s.setRes0 0, .done) else s.copyIn c.a m m

/-- `WRITE_EXACT` (R173). -/
def execWriteExact (s : State) : Out :=
  complete .writeExact s fun c =>
    if s.sentinel c then .ok (s.setRes0 0, .done)
    else if s.here.free s.view.1 s.view.2 < c.n then .ok (s.setRes0 0, .done)
    else s.copyIn c.a c.n 1

/-- `READ` (R174). -/
def execRead (s : State) : Out :=
  complete .read s fun c =>
    if s.sentinel c then .ok (s.setRes0 0, .done)
    else
      let m := min (s.here.occ s.view.1 s.view.2) c.n
      if m = 0 then .ok (s.setRes0 0, .done) else s.consume c.a m m

/-- `READ_EXACT` (R175). -/
def execReadExact (s : State) : Out :=
  complete .readExact s fun c =>
    if s.sentinel c then .ok (s.setRes0 0, .done)
    else if s.here.occ s.view.1 s.view.2 < c.n then .ok (s.setRes0 0, .done)
    else s.consume c.a c.n 1

/-- `PEEK` (R176). -/
def execPeek (s : State) : Out :=
  complete .peek s fun c =>
    if s.sentinel c then .ok (s.setRes0 0, .done)
    else
      let o := s.here.occ s.view.1 s.view.2
      if o ≤ c.k then .ok (s.setRes0 0, .done)
      else
        let m := min c.n (o - c.k)
        s.copyOut ((s.view.1 + c.k) % s.here.size) c.a m m

end Sys2Proof.Machine
end

