-- ==== Sys2Proof/Machine/Extended.lean ====
section
/-! DEFINITION. `RESET` and the extended operations (44_reset_extended.md, R230 to R236). -/

namespace Sys2Proof.Machine

/-- `RESET` (R230). -/
def execReset (s : State) : Out :=
  complete .reset s fun _ =>
    if s.here.ready = false then .ok (s.setRes0 0, .done)
    else .ok ((s.modInst s.site.inst fun I => I.resetCursors s.site.port).setRes0 1, .done)

/-- The path of `OVERWRITE` whose payload exceeds the usable capacity `cap`: keep the last `cap` bytes (R231). DEDUCED: the bytes
read end at `a + n`, so with `cap > 0` a payload that passes the top of the address space is `F_BUS` (R64), although the corner
cases of R231 say that it may (assumption log 25). -/
def State.overwriteAll (s : State) (a n cap : Nat) : Except Fault (State × Code) :=
  let I := s.here
  let src := a + (n - cap)
  match s.copyFault src cap (I.runs 0 cap) with
  | some f => .error f
  | none =>
    let s' := { s with mem := I.storageWrite s.mem 0 (s.mem.readBytes src cap) }
    .ok (((s'.modInst s.site.inst fun J => J.resetCursors s.site.port).commitW s.site.inst 0 cap).setRes0 n, .done)

/-- The path of `OVERWRITE` whose payload fits: drop the deficit, then write and commit all `n` bytes (R231). -/
def State.overwriteSome (s : State) (a n : Nat) : Except Fault (State × Code) :=
  let I := s.here
  let f := I.free I.r I.w
  match s.copyFault a n (I.runs I.w n) with
  | some flt => .error flt
  | none =>
    let s1 := if f < n then s.commitR s.site.inst I.r (n - f) else s
    let s2 := { s1 with mem := I.storageWrite s.mem I.w (s.mem.readBytes a n) }
    .ok ((s2.commitW s.site.inst I.w n).setRes0 n, .done)

/-- `OVERWRITE` (R231, with the strict threshold of C1). -/
def execOverwrite (s : State) : Out :=
  complete .overwrite s fun c =>
    if s.sentinel c then .ok (s.setRes0 0, .done)
    else
      let cap := s.here.size - 1
      if cap < c.n then s.overwriteAll c.a c.n cap else s.overwriteSome c.a c.n

/-- The needle matches the unread bytes of `I` from logical index `x` (R232). -/
def Inst.matchesAt (I : Inst) (m : Memory) : Nat → List Byte → Bool
  | _, [] => true
  | x, b :: bs => m.read (I.base + (I.r + x) % I.size) == b && Inst.matchesAt I m (x + 1) bs

/-- The first of the `tries` logical indices from `x` at which the needle matches (R232). -/
def Inst.findFrom (I : Inst) (m : Memory) (needle : List Byte) : Nat → Nat → Option Nat
  | 0, _ => none
  | tries + 1, x => if I.matchesAt m x needle then some x else Inst.findFrom I m needle tries (x + 1)

/-- How many unread bytes, from index `k` on, a scan for `n` bytes reads: up to the end of the first match, else all the `o`
unread bytes (R232, assumption log 11). -/
def scanLen (k n o : Nat) : Option Nat → Nat
  | some x => x + n - k
  | none => o - k

/-- `FIND` (R232). The storage accesses checked are the slots that the scan reads (R64). -/
def execFind (s : State) : Out :=
  complete .find s fun c =>
    let I := s.here
    let miss := (s.setRes0 0).setRes1 0
    if s.sentinel c then .ok (miss, .done)
    else
      let o := I.occ I.r I.w
      if o < c.n + c.k then .ok (miss, .done)
      else
        let found := I.findFrom s.mem (s.mem.readBytes c.a c.n) (o - c.n - c.k + 1) c.k
        match s.copyFault c.a c.n (I.slotBytes (I.r + c.k) (scanLen c.k c.n o found)) with
        | some f => .error f
        | none =>
          match found with
          | some x => .ok ((s.setRes0 1).setRes1 x, .done)
          | none => .ok (miss, .done)

/-- The chunk loop of `MOVE` into instance `d` from instance `sc`, at most `fuel` chunks; the code tells whether it stopped on
a zero chunk (R233, R234). -/
def moveLoop (d sc : Nat) : Nat → Nat → State → State × Code
  | 0, budget, s => (s, if budget = 0 then .done else .abort)
  | fuel + 1, budget, s =>
    if budget = 0 then (s, .done)
    else
      let D := s.inst d
      let S := s.inst sc
      let c := min (min (S.linRLen S.r S.w) (D.linWLen D.r D.w)) budget
      if c = 0 then (s, .abort)
      else
        let s' := { s with mem := s.mem.writeBytes (D.base + D.w) (s.mem.readBytes (S.base + S.r) c) }
        moveLoop d sc fuel (budget - c) ((s'.commitW d D.w c).commitR sc S.r c)

/-- The engine accesses of that loop, in order: each chunk's read of the source, then its write of the destination (R64, R233).
The chunks depend on the cursors alone, so the accesses are known before any effect. -/
def moveAccesses (d sc : Nat) : Nat → Nat → State → List (Nat × Nat)
  | 0, _, _ => []
  | fuel + 1, budget, s =>
    if budget = 0 then []
    else
      let D := s.inst d
      let S := s.inst sc
      let c := min (min (S.linRLen S.r S.w) (D.linWLen D.r D.w)) budget
      if c = 0 then []
      else
        (S.base + S.r, c) :: (D.base + D.w, c) ::
          moveAccesses d sc fuel (budget - c) ((s.commitW d D.w c).commitR sc S.r c)

/-- The bytes a `MOVE` from `S` to `D` transfers (R233). -/
def moveBudget (D S : Inst) : Nat := min (S.occ S.r S.w) (D.free D.r D.w)

/-- The two storages meet (R65, R233). -/
def storagesMeet (D S : Inst) : Bool := meets S.base S.size D.base D.size

/-- `MOVE`: `F_BUS` over every access of the loop, then `F_OVERLAP`, then the loop (R233, R278). -/
def execMove (src : Nat) (s : State) : Out :=
  complete (.move src) s fun _ =>
    let D := s.here
    let S := s.inst src
    if D.ready = false ∨ S.ready = false then .ok (s.setRes0 0, .done)
    else
      let budget := moveBudget D S
      match s.busFault (moveAccesses s.site.inst src budget budget s) with
      | some f => .error f
      | none =>
        if src ≠ s.site.inst ∧ storagesMeet D S then .error (.overlap s.site.inst s.site.port)
        else match moveLoop s.site.inst src budget budget s with
          | (t, .done) => .ok (t.setRes0 budget, .done)
          | (t, code) => .ok (t.setRes0 0, code)

end Sys2Proof.Machine
end

