-- ==== Sys2Proof/Machine/InitStatus.lean ====
section
/-! DEFINITION. Initialisation, detach, readiness, event enable and tag (40_init_status.md, R130 to R135). -/

namespace Sys2Proof.Machine

/-- The sizes and bases `INIT` refuses (R130). -/
def initFails (c : Config) (a n : Nat) : Bool := a = 0 ∨ n = 0 ∨ 2 ^ c.capW ≤ n ∨ 2 ^ c.regW < a + n

/-- `INIT` (R130). -/
def execInit (s : State) : Out :=
  complete .init s fun c =>
    if initFails s.cfg c.a c.n then .ok (s.setRes0 0, .done)
    else
      .ok ((s.modInst s.site.inst fun I =>
        { I.zeroCursors with base := c.a, size := c.n, evtEn := false }).setRes0 1, .done)

/-- `DEINIT` (R131). -/
def execDeinit (s : State) : Out :=
  complete .deinit s fun _ =>
    if s.here.ready = false then .ok (s.setRes0 0, .done)
    else .ok ((s.modInst s.site.inst fun I => { I with base := 0 }).setRes0 1, .done)

/-- `IS_READY` (R132). -/
def execIsReady (s : State) : Out :=
  complete .isReady s fun _ => .ok (s.setRes0 s.here.ready.toNat, .done)

/-- `SET_EVT`: only bit 0 of `n` is read (R133). -/
def execSetEvt (s : State) : Out :=
  complete .setEvt s fun c =>
    if s.here.ready = false then .ok (s.setRes0 0, .done)
    else .ok ((s.modInst s.site.inst fun I => { I with evtEn := c.n.testBit 0 }).setRes0 1, .done)

/-- `SET_TAG` (R134). -/
def execSetTag (s : State) : Out :=
  complete .setTag s fun c => .ok ((s.modInst s.site.inst fun I => { I with tag := c.a }).setRes0 1, .done)

/-- `GET_TAG` (R135). -/
def execGetTag (s : State) : Out :=
  complete .getTag s fun _ => .ok (s.setRes0 s.here.tag, .done)

end Sys2Proof.Machine
end

