-- ==== Sys2Proof/Machine/LinearBlock.lean ====
section
/-! DEFINITION. The linear-block address generator and the zero-copy commits (43_linear_block.md, R200 to R205). -/

namespace Sys2Proof.Machine

/-- `LIN_R_ADDR` (R200). -/
def execLinRAddr (s : State) : Out :=
  complete .linRAddr s fun _ => .ok (s.setRes0 (s.here.linRAddr s.view.1), .done)

/-- `LIN_R_LEN` (R201). -/
def execLinRLen (s : State) : Out :=
  complete .linRLen s fun _ => .ok (s.setRes0 (s.here.linRLen s.view.1 s.view.2), .done)

/-- `SKIP` (R202). -/
def execSkip (s : State) : Out :=
  complete .skip s fun c =>
    if s.here.ready = false ∨ c.n = 0 then .ok (s.setRes0 0, .done)
    else
      let m := min c.n (s.here.occ s.view.1 s.view.2)
      .ok ((s.commitR s.site.inst s.view.1 m).setRes0 m, .done)

/-- `LIN_W_ADDR` (R203). -/
def execLinWAddr (s : State) : Out :=
  complete .linWAddr s fun _ => .ok (s.setRes0 (s.here.linWAddr s.view.2), .done)

/-- `LIN_W_LEN` (R204). -/
def execLinWLen (s : State) : Out :=
  complete .linWLen s fun _ => .ok (s.setRes0 (s.here.linWLen s.view.1 s.view.2), .done)

/-- `ADVANCE` (R205). -/
def execAdvance (s : State) : Out :=
  complete .advance s fun c =>
    if s.here.ready = false ∨ c.n = 0 then .ok (s.setRes0 0, .done)
    else
      let m := min c.n (s.here.free s.view.1 s.view.2)
      .ok ((s.commitW s.site.inst s.view.2 m).setRes0 m, .done)

end Sys2Proof.Machine
end

