-- ==== Sys2Proof/Machine/Occupancy.lean ====
section
/-! DEFINITION. The occupancy queries (41_occupancy.md, R152, R153). -/

namespace Sys2Proof.Machine

/-- `FREE` (R152). -/
def execFree (s : State) : Out :=
  complete .free s fun _ => .ok (s.setRes0 (s.here.free s.view.1 s.view.2), .done)

/-- `OCC` (R153). -/
def execOcc (s : State) : Out :=
  complete .occ s fun _ => .ok (s.setRes0 (s.here.occ s.view.1 s.view.2), .done)

end Sys2Proof.Machine
end

