-- ==== Sys2Proof/Machine/Dispatch.lean ====
section
/-! DEFINITION. One arm per command: the COMPLETE step of a command on the port engine `s.site` (R72, R73). -/

namespace Sys2Proof.Machine

def exec (i : Instr) (s : State) : Host.Outcome State Fault Refusal :=
  match i with
  | .init => Sys2Proof.Machine.execInit s
  | .deinit => Sys2Proof.Machine.execDeinit s
  | .reset => Sys2Proof.Machine.execReset s
  | .setEvt => Sys2Proof.Machine.execSetEvt s
  | .setTag => Sys2Proof.Machine.execSetTag s
  | .getTag => Sys2Proof.Machine.execGetTag s
  | .isReady => Sys2Proof.Machine.execIsReady s
  | .free => Sys2Proof.Machine.execFree s
  | .occ => Sys2Proof.Machine.execOcc s
  | .write => Sys2Proof.Machine.execWrite s
  | .writeExact => Sys2Proof.Machine.execWriteExact s
  | .linWAddr => Sys2Proof.Machine.execLinWAddr s
  | .linWLen => Sys2Proof.Machine.execLinWLen s
  | .advance => Sys2Proof.Machine.execAdvance s
  | .read => Sys2Proof.Machine.execRead s
  | .readExact => Sys2Proof.Machine.execReadExact s
  | .peek => Sys2Proof.Machine.execPeek s
  | .linRAddr => Sys2Proof.Machine.execLinRAddr s
  | .linRLen => Sys2Proof.Machine.execLinRLen s
  | .skip => Sys2Proof.Machine.execSkip s
  | .overwrite => Sys2Proof.Machine.execOverwrite s
  | .move src => Sys2Proof.Machine.execMove src s
  | .find => Sys2Proof.Machine.execFind s

end Sys2Proof.Machine
end

