-- ==== Sys2Proof/Machine/Registers.lean ====
section
/-! DEFINITION. The register block (R37, R38, R63): which register an access reaches, what it reads, what a write to an
operand register does. A write to `CMD` is an ISSUE (Machine/Agents.lean). -/

namespace Sys2Proof.Machine

/-- What a register access of a host reaches (R63). -/
inductive RegTarget where
  /-- Outside the block's span: no access to LWRB-AF. -/
  | outside
  /-- The wrong width, misaligned, or in the span but outside the instances. -/
  | bad
  /-- Register `j` of instance `i`. -/
  | reg (i j : Nat)
  deriving DecidableEq, Repr

/-- The bytes of one register, `REG_W / 8`. -/
def regBytes (c : Config) : Nat := c.regW / 8

/-- The address of register `j` of instance `i` (R38). -/
def regAddr (c : Config) (i j : Nat) : Nat := c.regBase + (32 * i + j) * regBytes c

/-- Classify an access of `width` bits at `addr` (R63). -/
def regTarget (c : Config) (addr width : Nat) : RegTarget :=
  let off := addr - c.regBase
  if addr < c.regBase ∨ 256 * 32 * regBytes c ≤ off then .outside
  else if width ≠ c.regW ∨ off % regBytes c ≠ 0 ∨ c.numInst ≤ off / regBytes c / 32 then .bad
  else .reg (off / regBytes c / 32) (off / regBytes c % 32)

/-- The `PARAM` register (R37). -/
def paramReg (c : Config) : Nat :=
  c.capW + (c.numInst - 1) * 2 ^ 8 + (match c.cdc with | .async => 1 | .sync => 0) * 2 ^ 16 + c.regW * 2 ^ 24

/-- The port whose registers stand at `8 * b .. 8 * b + 7` (R38). -/
def portOfBank (b : Nat) : Port :=
  match b with
  | 0 => .w
  | 1 => .r
  | _ => .x

/-- A read of register `k` (0 to 7) of port `p` (R38). -/
def Inst.readPortReg (I : Inst) (p : Port) (k : Nat) : Nat :=
  match k with
  | 0 => (I.port p).cmd
  | 1 => (I.port p).a
  | 2 => (I.port p).n
  | 3 => (I.port p).k
  | 4 => (I.port p).res0
  | 5 => (I.port p).res1
  | 6 => I.status p
  | _ => 0

/-- A read of register `j` of instance `i`; it has no side effect (R37, R38, R63). -/
def State.readReg (s : State) (i j : Nat) : Nat :=
  let I := s.inst i
  if j < 24 then I.readPortReg (portOfBank (j / 8)) (j % 8)
  else match j with
    | 24 => I.base
    | 25 => I.size
    | 26 => I.evtEn.toNat
    | 28 => paramReg s.cfg
    | 29 => i
    | _ => 0

/-- A write of `v` to register `k` (0 to 7) of a port, but for `CMD`: the operand registers take it and every other register
ignores it (R32, R34, R35, R38). -/
def PortState.writeReg (q : PortState) (k v : Nat) : PortState :=
  match k with
  | 1 => { q with a := v }
  | 2 => { q with n := v }
  | 3 => { q with k := v }
  | _ => q

end Sys2Proof.Machine
end

