-- ==== Sys2Proof/WellFormed.lean ====
section
/-! DEFINITION. Which commands a port of a controller of `numInst` instances can be given (R102, R106). -/

namespace Sys2Proof

/-- `SRC` fits its 8 bits of the word (R100). -/
def Instr.srcFits (i : Instr) : Bool := i.srcField < 2 ^ 8

/-- `SRC` names an instance of the controller (R102). -/
def Instr.srcExists (numInst : Nat) : Instr → Bool
  | .move src => src < numInst
  | _ => true

/-- A well-formed command for port `p` of a controller of `numInst` instances: its source number fits the field and names
an instance (R102), and the port may be given it (R106). -/
def Instr.wellFormed (numInst : Nat) (p : Port) (i : Instr) : Bool :=
  i.srcFits && i.srcExists numInst && i.legalOn p

end Sys2Proof
end

