-- ==== Sys2Proof/Machine/Agents.lean ====
section
/-! DEFINITION. The steps of the agents of R68: hosts (register accesses, ISSUE, byte accesses), port engines,
synchronisers, the clock edges of the Gray implementation, and hardware reset. -/

namespace Sys2Proof.Machine

/-! ### ISSUE (R69 to R71) -/

/-- The busy commands of an instance, each with its port. -/
def Inst.busyCmds (I : Inst) : List (Port × Pending) :=
  [Port.w, Port.r, Port.x].filterMap fun p => (I.port p).busy.map fun c => (p, c)

/-- Every busy command with its instance and port. -/
def State.busyCmds (s : State) : List (Nat × Port × Pending) :=
  (List.range s.insts.length).flatMap fun i => (s.inst i).busyCmds.map fun x => (i, x.1, x.2)

/-- What a busy command occupies of an instance (R71). -/
inductive Side where
  | wside
  | rside
  | excl
  deriving DecidableEq, Repr

/-- `Footprint(I, P, c)` (R71). -/
def footprint (i : Nat) (p : Port) (c : Instr) : List (Nat × Side) :=
  match p with
  | .w => [(i, .wside)]
  | .r => [(i, .rside)]
  | .x => (involved c i).map fun j => (j, .excl)

/-- `Conflict(F1, F2)` (R71). -/
def conflict (f1 f2 : List (Nat × Side)) : Bool :=
  f1.any fun x => f2.any fun y => x.1 = y.1 ∧ (x.2 = .excl ∨ y.2 = .excl)

/-- Some busy command conflicts with command `c` of port `p` of instance `i` (R69, R71). -/
def State.conflicts (s : State) (i : Nat) (p : Port) (c : Instr) : Bool :=
  s.busyCmds.any fun b => conflict (footprint i p c) (footprint b.1 b.2.1 b.2.2.instr)

/-- Change the registers of port `p` of instance `i`. -/
def State.updPort (s : State) (i : Nat) (p : Port) (f : PortState → PortState) : State :=
  s.modInst i fun I => I.setPort p (f (I.port p))

/-- `ISSUE(I, P, word)` (R69). -/
def State.issue (s : State) (i : Nat) (p : Port) (word : Nat) : Out :=
  let q := (s.inst i).port p
  if q.busy.isSome then .fault (.issueBusy i p word)
  else match decode s.cfg.numInst p word with
    | .error _ => .next (s.updPort i p fun q => { q with cmd := word, code := .illegal })
    | .ok c =>
      if s.conflicts i p c then .fault (.excl i p word)
      else .next (s.updPort i p fun q => { q with cmd := word, busy := some ⟨c, q.a, q.n, q.k⟩ })

/-! ### Host register accesses (R63) -/

/-- A host writes `value` with an access of `width` bits; an access carries only its own `width` bits. -/
def State.hostRegWrite (s : State) (addr width value : Nat) : Out :=
  match regTarget s.cfg addr width with
  | .outside => .next s
  | .bad => .fault (.regAccess addr width)
  | .reg i j =>
    let v := value % 2 ^ s.cfg.regW
    if 24 ≤ j then .next s
    else if j % 8 = 0 then s.issue i (portOfBank (j / 8)) v
    else .next (s.updPort i (portOfBank (j / 8)) fun q => q.writeReg (j % 8) v)

/-- A host reads a register; the model keeps the value returned in `rdata`. -/
def State.hostRegRead (s : State) (addr width : Nat) : Out :=
  match regTarget s.cfg addr width with
  | .outside => .next s
  | .bad => .fault (.regAccess addr width)
  | .reg i j => .next { s with rdata := some (s.readReg i j) }

/-! ### Host byte accesses (R86 to R88) -/

/-- A slot that `Free(J)` holds: one of the `S - 1 - dist(r, w)` slots from `w` on (R87). -/
def Inst.slotFree (J : Inst) (slot : Nat) : Bool :=
  dist J.size J.w slot < J.size - 1 - dist J.size J.r J.w

/-- A slot that `Occ(J)` holds: one of the `dist(r, w)` slots from `r` on (R87). -/
def Inst.slotOcc (J : Inst) (slot : Nat) : Bool :=
  dist J.size J.r slot < dist J.size J.r J.w

/-- `XBusy(J)` (R87). -/
def State.xBusy (s : State) (j : Nat) : Bool :=
  s.busyCmds.any fun b => b.2.1 = .x ∧ (b.1 = j ∨ b.2.2.instr = .move j)

/-- The commands whose operand buffer a host may not write while they are busy (R87). -/
def buffersWritten : Instr → Bool
  | .write | .writeExact | .read | .readExact | .peek | .overwrite | .find => true
  | _ => false

/-- The commands whose operand buffer a host may not read while they are busy (R88). -/
def buffersRead : Instr → Bool
  | .read | .readExact | .peek => true
  | _ => false

/-- Address `a` lies in the operand buffer of a busy command that `which` selects (R87, R88). -/
def State.inBusyBuffer (s : State) (which : Instr → Bool) (a : Nat) : Bool :=
  s.busyCmds.any fun b => which b.2.2.instr ∧ b.2.2.a ≤ a ∧ a < b.2.2.a + b.2.2.n

/-- Address `a` is a storage byte of ready instance `J`. -/
def Inst.inStorage (J : Inst) (a : Nat) : Bool := J.ready ∧ J.base ≤ a ∧ a < J.base + J.size

/-- A host write to `a` breaks the contract of R87. -/
def State.writeRace (s : State) (a : Nat) : Bool :=
  s.inBusyBuffer buffersWritten a ||
    (List.range s.insts.length).any fun j =>
      let J := s.inst j
      J.inStorage a && (s.xBusy j || J.wport.busy.isSome || !J.slotFree (a - J.base))

/-- A host read of `a` breaks the contract of R88. -/
def State.readRace (s : State) (a : Nat) : Bool :=
  s.inBusyBuffer buffersRead a ||
    (List.range s.insts.length).any fun j =>
      let J := s.inst j
      J.inStorage a && (s.xBusy j || (!J.slotOcc (a - J.base) && J.wport.busy.isSome))

/-- A host writes one byte of `Mem` (R86, R87). -/
def State.hostMemWrite (s : State) (a : Nat) (b : Byte) : Out :=
  if 2 ^ s.cfg.regW ≤ a then .fault (.noAddress a)
  else if s.writeRace a then .fault (.hostRace a .write)
  else .next { s with mem := s.mem.write a b }

/-- A host reads one byte of `Mem` (R86, R88); the model keeps the byte returned in `rdata`. -/
def State.hostMemRead (s : State) (a : Nat) : Out :=
  if 2 ^ s.cfg.regW ≤ a then .fault (.noAddress a)
  else if s.readRace a then .fault (.hostRace a .read)
  else .next { s with rdata := some (s.mem.read a).toNat }

/-! ### Port engines (R72, R73) -/

/-- `synced(J)` (R73). -/
def Inst.synced (J : Inst) : Bool := J.ready = false ∨ (J.rv = J.r ∧ J.wv = J.w)

/-- The COMPLETE step of command `c` on port `p` of instance `i` is enabled: always on W and R, on X once every instance
involved is synchronised (R72, R73). -/
def State.unheld (s : State) (i : Nat) (p : Port) (c : Instr) : Bool :=
  match p with
  | .x => (involved c i).all fun j => (s.inst j).synced
  | _ => true

/-- The command whose COMPLETE step port `p` of instance `i` can take, if any. -/
def State.completable (s : State) (i : Nat) (p : Port) : Option Instr :=
  match ((s.inst i).port p).busy with
  | none => none
  | some c => if s.unheld i p c.instr then some c.instr else none

/-- The COMPLETE step of port `p` of instance `i`; no change while it is not enabled (`hold`, R14). -/
def State.completeStep (s : State) (i : Nat) (p : Port) : Out :=
  match s.completable i p with
  | none => .next s
  | some c => exec c { s with site := ⟨i, p⟩ }

/-! ### Synchronisers (R80) and the Gray implementation (R78, R79) -/

/-- Every count of a crossing that is more than `d` behind `cnt` moves up to the count `d` behind it: the published count
and the chain's codes, once the view has moved to that count (assumption log 10). -/
def closeIn (capW cnt d x : Nat) : Nat :=
  if d < behind capW cnt x then behind capW cnt d else x

/-- `SYNC_W2R` with jump `k` (R80). -/
def Inst.syncW2R (c : Config) (I : Inst) (k : Nat) : Inst :=
  let wv' := (I.wv + k) % I.size
  let d := dist I.size wv' I.w
  { I with
    wv := wv'
    wpub := closeIn c.capW I.wcnt d I.wpub
    wsync := I.wsync.map fun g => gray (closeIn c.capW I.wcnt d (ungray c.capW g)) }

/-- `SYNC_R2W` with jump `k` (R80). -/
def Inst.syncR2W (c : Config) (I : Inst) (k : Nat) : Inst :=
  let rv' := (I.rv + k) % I.size
  let d := dist I.size rv' I.r
  { I with
    rv := rv'
    rpub := closeIn c.capW I.rcnt d I.rpub
    rsync := I.rsync.map fun g => gray (closeIn c.capW I.rcnt d (ungray c.capW g)) }

/-- `SYNC_W2R(I)` is enabled with jump `k` (R80). -/
def Inst.canW2R (c : Config) (I : Inst) (k : Nat) : Bool :=
  c.cdc = .async ∧ I.ready ∧ I.wv ≠ I.w ∧ 1 ≤ k ∧ k ≤ dist I.size I.wv I.w

/-- `SYNC_R2W(I)` is enabled with jump `k` (R80). -/
def Inst.canR2W (c : Config) (I : Inst) (k : Nat) : Bool :=
  c.cdc = .async ∧ I.ready ∧ I.rv ≠ I.r ∧ 1 ≤ k ∧ k ≤ dist I.size I.rv I.r

/-- Publication of one count at a clock edge (R78). -/
def publish (capW cnt pub : Nat) : Nat := if pub ≠ cnt then (pub + 1) % 2 ^ capW else pub

/-- One clock edge of a synchroniser chain that samples the code `g` (R79). -/
def sample (g : Nat) (chain : List Nat) : List Nat := (g :: chain).dropLast

/-- `I.wv` as the R domain computes it from its chain (R79). -/
def Inst.wvDecoded (c : Config) (I : Inst) : Nat := (I.r + behind c.capW (I.wseen c.capW) I.rcnt) % I.size

/-- `I.rv` as the W domain computes it from its chain (R79). -/
def Inst.rvDecoded (c : Config) (I : Inst) : Nat :=
  (I.w + I.size - behind c.capW I.wcnt (I.rseen c.capW)) % I.size

/-- A W-domain clock edge: publish the write count, sample the read count's code, and compute the view of a ready instance
(R78, R79). -/
def Inst.wClock (c : Config) (I : Inst) : Inst :=
  let I' := { I with wpub := publish c.capW I.wcnt I.wpub, rsync := sample I.rg I.rsync }
  if I.ready then { I' with rv := I'.rvDecoded c } else I'

/-- An R-domain clock edge (R78, R79). -/
def Inst.rClock (c : Config) (I : Inst) : Inst :=
  let I' := { I with rpub := publish c.capW I.rcnt I.rpub, wsync := sample I.wg I.wsync }
  if I.ready then { I' with wv := I'.wvDecoded c } else I'

/-! ### Hardware reset (R300, R301) -/

/-- The bytes a busy command of instance `J` could have written: address and length (R301). A destination range is cut at the
top of the address space, and an instance without storage has no storage byte. -/
def havocRange (c : Config) (J : Inst) (b : Pending) : Nat × Nat :=
  match b.instr with
  | .read | .readExact | .peek => (b.a, min b.n (2 ^ c.regW - b.a))
  | .write | .writeExact | .overwrite | .move _ => if J.ready then (J.base, J.size) else (0, 0)
  | _ => (0, 0)

/-- Put free bytes, from the `draws`-th on, into a range of memory (R301). -/
def havoc (x : Memory × Nat) (range : Nat × Nat) : Memory × Nat :=
  (x.1.writeBytes range.1 ((List.range range.2).map fun j => Config.freeByte (x.2 + j)), x.2 + range.2)

/-- The hardware reset step: every instance to its reset values, the bytes of commands in flight to any value; `Mem`
otherwise, the fault record and the histories are kept (R300, R301). -/
def State.hwReset (s : State) : State :=
  let m := (s.busyCmds.map fun b => havocRange s.cfg (s.inst b.1) b.2.2).foldl havoc (s.mem, s.draws)
  { s with
    insts := s.insts.map fun I => { Inst.reset s.cfg.syncStages with events := I.events }
    mem := m.1
    draws := m.2 }

/-! ### One step of an agent -/

/-- Change instance `i` by `f` if `ok` holds of it, else change nothing: a step that is not enabled is not taken (R14). -/
def State.stepInst (s : State) (i : Nat) (ok : Inst → Bool) (f : Inst → Inst) : Out :=
  if ok (s.inst i) then .next (s.modInst i f) else .next s

/-- The step of an action's agent (R68). -/
def State.perform (s : State) (act : Action) : Out :=
  match act with
  | .regWrite addr width value => s.hostRegWrite addr width value
  | .regRead addr width => s.hostRegRead addr width
  | .memWrite addr b => s.hostMemWrite addr b
  | .memRead addr => s.hostMemRead addr
  | .complete i p => s.completeStep i p
  | .syncW2R i k => s.stepInst i (fun I => I.canW2R s.cfg k) (fun I => I.syncW2R s.cfg k)
  | .syncR2W i k => s.stepInst i (fun I => I.canR2W s.cfg k) (fun I => I.syncR2W s.cfg k)
  | .wClock i => s.stepInst i (fun _ => s.cfg.cdc = .async) (fun I => I.wClock s.cfg)
  | .rClock i => s.stepInst i (fun _ => s.cfg.cdc = .async) (fun I => I.rClock s.cfg)
  | .hwReset => .next s.hwReset

/-- The step of instance `i`'s own agents that is taken when no agent is scheduled: a COMPLETE step, else a synchroniser's
largest jump (R93, assumption log 7). -/
def State.ownActionOf (s : State) (i : Nat) : Option Action :=
  let I := s.inst i
  if (s.completable i .w).isSome then some (.complete i .w)
  else if (s.completable i .r).isSome then some (.complete i .r)
  else if (s.completable i .x).isSome then some (.complete i .x)
  else if I.canW2R s.cfg (dist I.size I.wv I.w) then some (.syncW2R i (dist I.size I.wv I.w))
  else if I.canR2W s.cfg (dist I.size I.rv I.r) then some (.syncR2W i (dist I.size I.rv I.r))
  else none

/-- The first instance's own action, none when the controller is quiescent (R93, R315). -/
def State.ownAction (s : State) : Option Action :=
  (List.range s.insts.length).findSome? s.ownActionOf

/-- A step of an agent, or the record of the fault it raises, which changes nothing else (R14). -/
def State.record (s : State) (act : Action) : Out :=
  match s.perform act with
  | .fault f => .next (s.raise f)
  | o => o

end Sys2Proof.Machine
end

