-- ==== Sys2Proof/Machine/Step.lean ====
section
/-! DEFINITION. One step of the machine: the step of the agent that the schedule names (R68, R279). -/

namespace Sys2Proof.Machine

/-- One step. A faulted run stops, but for a hardware reset, which keeps the faults (R277, R300). Otherwise the scheduled
agent steps; when none is scheduled, the controller's own agents do, and a quiescent controller idles (R93, R315). -/
def step (s : State) : Host.Outcome State Fault Refusal :=
  match s.faults, s.sched with
  | _ :: _, .hwReset :: rest => .next { s with sched := rest }.hwReset
  | f :: _, _ => .fault f
  | [], act :: rest => { s with sched := rest }.record act
  | [], [] =>
    match s.ownAction with
    | some act => s.record act
    | none => .next s

/-- `s` with the command word `w` on the X port of instance 0, ready to run: a word that decodes stands in the port's slot
with the operands the port holds, the instances it involves are synchronised, and the port's COMPLETE step is scheduled
next; a word that does not decode is scheduled as a host write to `X.CMD` (assumption log 6). -/
def State.withFetchWord (s : State) (nbits w : Nat) : State :=
  let word := w % 2 ^ nbits
  match decode s.cfg.numInst .x word with
  | .ok i =>
    let s1 := s.updPort 0 .x fun q => { q with cmd := word, busy := some ⟨i, q.a, q.n, q.k⟩ }
    { (involved i 0).foldl (fun t j => t.modInst j Inst.resync) s1 with sched := .complete 0 .x :: s.sched }
  | .error _ => { s with sched := .regWrite (regAddr s.cfg 0 16) s.cfg.regW word :: s.sched }

end Sys2Proof.Machine
end

