-- ==== Sys2Proof/Safety.lean ====
section
/-! DEFINITION. What is true of the controller in every state a run reaches (R26, R31, R71, R81, R84), quiescence (R315) and
what counts as a safe run (R277): the terms in which claims are stated. -/

namespace Sys2Proof.Machine

/-! ### One crossing of the Gray implementation (R78, R79) -/

/-- The chain of a crossing that publishes the count `cnt`, seen from the receiving end `d` counts behind it: the published
count and the chain's codes are counts of the past, later stages are no later counts, and the last stage is `d` behind. -/
structure Crossing (capW stages cnt pub : Nat) (chain : List Nat) (d : Nat) : Prop where
  cnt_lt : cnt < 2 ^ capW
  pub_lt : pub < 2 ^ capW
  codes_lt : ∀ g ∈ chain, g < 2 ^ capW
  length : chain.length = stages
  rising : ((pub :: chain.map (ungray capW)).map (behind capW cnt)).Pairwise (· ≤ ·)
  last : behind capW cnt (ungray capW (chain.getLastD 0)) = d

/-! ### One instance -/

/-- Both cursors and both views lie inside the storage (R26). -/
structure Inst.CursorsIn (I : Inst) : Prop where
  r : I.r < I.size
  w : I.w < I.size
  rv : I.rv < I.size
  wv : I.wv < I.size

/-- The ring order `rv`, `r`, `wv`, `w`, with `w` at least one slot short of a full lap (R84). -/
structure Inst.RingOrder (I : Inst) : Prop where
  sum : dist I.size I.rv I.r + dist I.size I.r I.wv + dist I.size I.wv I.w = dist I.size I.rv I.w
  short : dist I.size I.rv I.w ≤ I.size - 1

/-- The Gray state of a ready instance agrees with its cursors and its views (R79, R81). -/
structure Inst.GrayAgrees (c : Config) (I : Inst) : Prop where
  counts : behind c.capW I.wcnt I.rcnt = dist I.size I.r I.w
  write : Crossing c.capW c.syncStages I.wcnt I.wpub I.wsync (dist I.size I.wv I.w)
  read : Crossing c.capW c.syncStages I.rcnt I.rpub I.rsync (dist I.size I.rv I.r)

/-- The views of a ready instance: trailing, with the Gray state behind them, in `ASYNC`; exact in `SYNC` (R30, R74, R81). -/
def Inst.ViewsAgree (c : Config) (I : Inst) : Prop :=
  match c.cdc with
  | .async => I.GrayAgrees c
  | .sync => I.rv = I.r ∧ I.wv = I.w

/-- Every register of a port is below `2 ^ REG_W` (R8, R9), and a busy port holds a command it may be given, with operands
below `2 ^ REG_W` (R36, R69). -/
structure PortState.Fits (c : Config) (p : Port) (q : PortState) : Prop where
  a : q.a < 2 ^ c.regW
  n : q.n < 2 ^ c.regW
  k : q.k < 2 ^ c.regW
  cmd : q.cmd < 2 ^ c.regW
  res0 : q.res0 < 2 ^ c.regW
  res1 : q.res1 < 2 ^ c.regW
  busy : ∀ b, q.busy = some b →
    b.instr.wellFormed c.numInst p = true ∧ b.a < 2 ^ c.regW ∧ b.n < 2 ^ c.regW ∧ b.k < 2 ^ c.regW

/-- Every field of an instance fits its width (R23 to R31), its storage lies in the address space (R130), every event's count
fits `EVT_COUNT` (R280), and its ports fit. -/
structure Inst.Fits (c : Config) (I : Inst) : Prop where
  size : I.size < 2 ^ c.capW
  storage : I.base + I.size ≤ 2 ^ c.regW
  base : I.base < 2 ^ c.regW
  r : I.r < 2 ^ c.capW
  w : I.w < 2 ^ c.capW
  rv : I.rv < 2 ^ c.capW
  wv : I.wv < 2 ^ c.capW
  wcnt : I.wcnt < 2 ^ c.capW
  wpub : I.wpub < 2 ^ c.capW
  rcnt : I.rcnt < 2 ^ c.capW
  rpub : I.rpub < 2 ^ c.capW
  wsync : (∀ g ∈ I.wsync, g < 2 ^ c.capW) ∧ I.wsync.length = c.syncStages
  rsync : (∀ g ∈ I.rsync, g < 2 ^ c.capW) ∧ I.rsync.length = c.syncStages
  tag : I.tag < 2 ^ c.regW
  events : ∀ e ∈ I.events, e.count < 2 ^ c.capW
  ports : ∀ p, (I.port p).Fits c p

/-- The invariant of one instance. -/
structure Inst.Inv (c : Config) (I : Inst) : Prop where
  fits : I.Fits c
  cursors : I.ready = true → I.CursorsIn
  ring : I.ready = true → I.RingOrder
  views : I.ready = true → I.ViewsAgree c

/-! ### The controller -/

/-- Memory is in canonical form and lists addresses of the address space only (R60). -/
structure State.MemoryOk (s : State) : Prop where
  wf : Memory.wf s.mem
  addresses : ∀ x ∈ s.mem, x.1 < 2 ^ s.cfg.regW

/-- The machine invariant. -/
structure State.Inv (s : State) : Prop where
  cfg : s.cfg.wf
  count : s.insts.length = s.cfg.numInst
  memory : s.MemoryOk
  insts : ∀ I ∈ s.insts, I.Inv s.cfg

/-- No two busy commands conflict: the exclusive-access contract is kept (R71). -/
def State.Exclusive (s : State) : Prop :=
  ∀ x ∈ s.busyCmds, ∀ y ∈ s.busyCmds, (x.1, x.2.1) ≠ (y.1, y.2.1) →
    conflict (footprint x.1 x.2.1 x.2.2.instr) (footprint y.1 y.2.1 y.2.2.instr) = false

/-- No port is busy and every ready instance's views equal its cursors (R315). -/
def State.Quiescent (s : State) : Prop :=
  ∀ j < s.insts.length, (∀ p, ((s.inst j).port p).busy = none) ∧ (s.inst j).synced = true

/-- The run has broken the contract (R277). -/
def State.Faulted (s : State) : Prop := s.faults ≠ []

/-- The next `n` steps break no contract and meet no refusal (R277). -/
def State.SafeFor (s : State) (n : Nat) : Prop :=
  ∀ k ≤ n, ∃ t, Host.Core.run Sys2Proof.core k s = .next t ∧ ¬ State.Faulted t

/-! ### The terms in which a command's effect is stated -/

/-- The running engine's port can take the COMPLETE step of command `i` with latched operands `c`: its slot is full, the
command is legal there and the instances involved exist (R69, R72, R73, R106). -/
structure Armed (s : State) (i : Instr) (c : Pending) : Prop where
  busy : s.herePort.busy = some c
  legal : i.legalOn s.site.port = true
  exist : ∀ j ∈ involved i s.site.inst, j < s.insts.length

/-- Everything but memory and the instances `js` is as before. -/
structure Elsewhere (s t : State) (js : List Nat) : Prop where
  cfg : t.cfg = s.cfg
  faults : t.faults = s.faults
  site : t.site = s.site
  sched : t.sched = s.sched
  rdata : t.rdata = s.rdata
  draws : t.draws = s.draws
  count : t.insts.length = s.insts.length
  others : ∀ j, j ∉ js → t.inst j = s.inst j

/-- A free-running count after an advance of `m` (R77). -/
def countPlus (c : Config) (cnt m : Nat) : Nat := (cnt + m) % 2 ^ c.capW

/-- A history after one event on port `p`, which is output only when `EVT_EN = 1` (R280). -/
def historyPlus (I : Inst) (p : Port) (kind : EvtKind) (count : Nat) : List Event :=
  if I.evtEn = true then I.events ++ [⟨p, kind, count⟩] else I.events

/-- The published counts and the chains of an instance are as before. -/
structure SameCrossings (I J : Inst) : Prop where
  wpub : J.wpub = I.wpub
  rpub : J.rpub = I.rpub
  wsync : J.wsync = I.wsync
  rsync : J.rsync = I.rsync

/-- The views equal the cursors and both crossings are loaded with the counts (R73, R82). -/
structure Resynced (I J : Inst) : Prop where
  rv : J.rv = J.r
  wv : J.wv = J.w
  wpub : J.wpub = J.wcnt
  rpub : J.rpub = J.rcnt
  wsync : J.wsync = I.wsync.map fun _ => gray J.wcnt
  rsync : J.rsync = I.rsync.map fun _ => gray J.rcnt

/-- The views of an instance after a COMPLETE step on port `p`: on X a resync; on W and R untouched in `ASYNC` and equal to the
cursors in `SYNC` (R72, R73, R74). `I` is the instance before and `J` after. -/
def ViewsAfter (c : Config) (p : Port) (I J : Inst) : Prop :=
  if p = .x then Resynced I J
  else if c.cdc = .async then J.rv = I.rv ∧ J.wv = I.wv ∧ SameCrossings I J
  else J.rv = J.r ∧ J.wv = J.w ∧ SameCrossings I J

/-- Setup, cursors, counts and history of `J` are those of `K`. -/
structure SameFifo (K J : Inst) : Prop where
  base : J.base = K.base
  size : J.size = K.size
  r : J.r = K.r
  w : J.w = K.w
  wcnt : J.wcnt = K.wcnt
  rcnt : J.rcnt = K.rcnt
  evtEn : J.evtEn = K.evtEn
  tag : J.tag = K.tag
  events : J.events = K.events

/-- What a COMPLETE step leaves when the command's rule leaves the running engine's instance with the setup, cursors, counts
and history of `K` and the results `res0`, `res1`: the port is idle with its results and `code`, its other registers, the
other ports and every instance not in `js` are as before, and the views are settled (R72, R73). -/
structure Leaves (s t : State) (js : List Nat) (K : Inst) (res0 res1 : Nat) (code : Code) : Prop where
  elsewhere : Elsewhere s t js
  fifo : SameFifo K t.here
  views : ViewsAfter s.cfg s.site.port s.here t.here
  port : t.herePort = { s.herePort with res0 := res0, res1 := res1, code := code, busy := none }
  ports : ∀ p, p ≠ s.site.port → t.here.port p = s.here.port p

/-- Every byte of memory reads as before. -/
def SameBytes (s t : State) : Prop := ∀ a, Memory.read t.mem a = Memory.read s.mem a

/-- The address of slot `k` counted around the ring from slot `from` of instance `I` (R13). -/
def slotAddr (I : Inst) (start k : Nat) : Nat := I.base + (start + k) % I.size

/-- The `m` bytes at `a .. a + m - 1` of `s` stand in `t` in the `m` slots of `I` from slot `start`, and every other byte of
memory reads as before. -/
structure CopiedIn (s t : State) (I : Inst) (start a m : Nat) : Prop where
  bytes : ∀ k < m, Memory.read t.mem (slotAddr I start k) = Memory.read s.mem (a + k)
  others : ∀ x, (∀ k < m, x ≠ slotAddr I start k) → Memory.read t.mem x = Memory.read s.mem x

/-- The bytes of the `m` slots of `I` from slot `start` in `s` stand in `t` at `a .. a + m - 1`, and every other byte of memory
reads as before. -/
structure CopiedOut (s t : State) (I : Inst) (start a m : Nat) : Prop where
  bytes : ∀ k < m, Memory.read t.mem (a + k) = Memory.read s.mem (slotAddr I start k)
  others : ∀ x, (x < a ∨ a + m ≤ x) → Memory.read t.mem x = Memory.read s.mem x

/-- The engine may access the bytes `a .. a + n - 1`: none, or inside the address space and admitted by the platform (R64). -/
def Admitted (c : Config) (a n : Nat) : Prop :=
  n = 0 ∨ (a + n ≤ 2 ^ c.regW ∧ ∃ g ∈ c.admits, grantCovers g a n = true)

/-- Every access of a list, an address and a length each, is admitted (R64). -/
def AllAdmitted (c : Config) (accesses : List (Nat × Nat)) : Prop := ∀ x ∈ accesses, Admitted c x.1 x.2

/-- The operand range `[a, a + n)` meets the storage of no ready instance (R65). -/
def ClearOfStorage (s : State) (a n : Nat) : Prop :=
  ∀ J ∈ s.insts, J.ready = true → n = 0 ∨ a + n ≤ J.base ∨ J.base + J.size ≤ a

/-- Nothing changed but port `p` of instance `i`, whose registers are now `q`. -/
structure OnlyPort (s t : State) (i : Nat) (p : Port) (q : PortState) : Prop where
  elsewhere : Elsewhere s t [i]
  mem : t.mem = s.mem
  inst : t.inst i = (s.inst i).setPort p q

/-- The opcode map of R105: every listed opcode with its legal ports. -/
def opcodeMap : List (Nat × List Port) :=
  [(0x01, [.x]), (0x02, [.x]), (0x03, [.x]), (0x04, [.x]), (0x05, [.x]),
   (0x06, [.w, .r, .x]), (0x07, [.w, .r, .x]), (0x08, [.w, .r, .x]), (0x09, [.w, .r, .x]),
   (0x10, [.w, .x]), (0x11, [.w, .x]), (0x12, [.w, .x]), (0x13, [.w, .x]), (0x14, [.w, .x]),
   (0x18, [.r, .x]), (0x19, [.r, .x]), (0x1A, [.r, .x]), (0x1B, [.r, .x]), (0x1C, [.r, .x]), (0x1D, [.r, .x]),
   (0x20, [.x]), (0x21, [.x]), (0x22, [.x])]

/-- The number of port `p`'s first register within an instance (R38). -/
def firstReg : Port → Nat
  | .w => 0
  | .r => 8
  | .x => 16

/-- Command `i` answers `v` in `RES0` and changes nothing else but what every COMPLETE step changes (R72, R73). -/
def Answers (i : Instr) (v : State → Nat) : Prop :=
  ∀ (s : State) (c : Pending), Armed s i c →
    ∃ t, exec i s = .next t ∧ SameBytes s t ∧ Leaves s t [s.site.inst] s.here (v s) s.herePort.res1 .done

/-- The step of command `i` completes with 0 in `RES0` and changes nothing else but what every COMPLETE step changes. -/
def ReturnsZero (s : State) (i : Instr) (js : List Nat) : Prop :=
  ∃ t, exec i s = .next t ∧ SameBytes s t ∧ Leaves s t js s.here 0 s.herePort.res1 .done

/-- What a copying command touches: its operand range, the first slot and the number of slots of its instance (R172 to R176,
R231, R232). -/
structure CopyPlan where
  addr : Nat
  len : Nat
  slot : Nat
  slots : Nat
  deriving DecidableEq, Repr

/-- The bytes and slots a copying command `i` with operands `c` touches; `len = 0` when it returns a sentinel or moves no
byte. `FIND` touches the slots its scan reads. -/
def copyPlan (s : State) (i : Instr) (c : Pending) : CopyPlan :=
  let I := s.here
  let rd := s.view.1
  let wr := s.view.2
  let o := I.occ rd wr
  let f := I.free rd wr
  match i with
  | .write => ⟨c.a, min f c.n, wr, min f c.n⟩
  | .writeExact => if f < c.n then ⟨c.a, 0, wr, 0⟩ else ⟨c.a, c.n, wr, c.n⟩
  | .read => ⟨c.a, min o c.n, rd, min o c.n⟩
  | .readExact => if o < c.n then ⟨c.a, 0, rd, 0⟩ else ⟨c.a, c.n, rd, c.n⟩
  | .peek => if o ≤ c.k then ⟨c.a, 0, rd, 0⟩ else ⟨c.a, min c.n (o - c.k), (rd + c.k) % I.size, min c.n (o - c.k)⟩
  | .overwrite =>
    if I.size - 1 < c.n then ⟨c.a + (c.n - (I.size - 1)), I.size - 1, 0, I.size - 1⟩ else ⟨c.a, c.n, I.w, c.n⟩
  | .find =>
    if o < c.n + c.k then ⟨c.a, 0, 0, 0⟩
    else ⟨c.a, c.n, I.r + c.k, scanLen c.k c.n o (I.findFrom s.mem (s.mem.readBytes c.a c.n) (o - c.n - c.k + 1) c.k)⟩
  | _ => ⟨0, 0, 0, 0⟩

/-- The engine accesses of a copying command, in order: its operand range, then the run of slots to the end of storage and the
run from slot 0 (R13); `FIND` reads its slots one by one (R232). -/
def copyAccesses (s : State) (i : Instr) (c : Pending) : List (Nat × Nat) :=
  let q := copyPlan s i c
  let first := min q.slots (s.here.size - q.slot)
  (q.addr, q.len) ::
    match i with
    | .find => (List.range q.slots).map fun j => (slotAddr s.here q.slot j, 1)
    | _ => [(s.here.base + q.slot, first), (s.here.base, q.slots - first)]

/-- A copying command that gets past its sentinel tests (R274). -/
structure Copying (s : State) (i : Instr) (c : Pending) : Prop where
  kind : i ∈ [Instr.write, .writeExact, .read, .readExact, .peek, .overwrite, .find]
  armed : Armed s i c
  ready : s.here.ready = true
  addr : c.a ≠ 0
  len : c.n ≠ 0

/-- Every access of a copying command is admitted (R64) and its operand range meets no ready storage (R65). -/
structure PlanOk (s : State) (i : Instr) (c : Pending) : Prop where
  admitted : AllAdmitted s.cfg (copyAccesses s i c)
  clear : ClearOfStorage s (copyPlan s i c).addr (copyPlan s i c).len

/-- The chunks of a `MOVE` from `S` to `D` once `p` bytes are moved and `left` remain, at most `fuel` of them: each is the least
of the linear read block of `S`, the linear write block of `D` and what remains (R233). When both are one instance, `S`'s write
cursor and `D`'s read cursor have moved too (R236). -/
def moveChunks (same : Bool) (D S : Inst) : Nat → Nat → Nat → List Nat
  | 0, _, _ => []
  | fuel + 1, p, left =>
    if left = 0 then []
    else
      let sw := if same then (S.w + p) % S.size else S.w
      let dr := if same then (D.r + p) % D.size else D.r
      let c := min (min (S.linRLen ((S.r + p) % S.size) sw) (D.linWLen dr ((D.w + p) % D.size))) left
      c :: moveChunks same D S fuel (p + c) (left - c)

/-- The accesses of those chunks once `p` bytes are moved: each chunk's read of `S`, then its write of `D` (R233). -/
def chunkAccesses (D S : Inst) : Nat → List Nat → List (Nat × Nat)
  | _, [] => []
  | p, c :: cs => (S.base + (S.r + p) % S.size, c) :: (D.base + (D.w + p) % D.size, c) :: chunkAccesses D S (p + c) cs

/-- The agent's step that a step of the machine takes: the scheduled one, else the controller's own (R68, R93). -/
def State.nextAction (s : State) : Option Action :=
  match s.sched with
  | act :: _ => some act
  | [] => s.ownAction

/-- The step about to be taken is the COMPLETE step of command `c` on port `p` of instance `i`. -/
def State.completesNext (s : State) (i : Nat) (p : Port) (c : Instr) : Prop :=
  s.nextAction = some (.complete i p) ∧ ∃ b, ((s.inst i).port p).busy = some b ∧ b.instr = c

end Sys2Proof.Machine
end

