-- ==== Sys2Proof/Certificates/Slice0/Obligations.lean ====
section
/-! DEFINITION. The statements about LWRB-AF for the provers, in the terms of Safety.lean. -/

open Sys2Proof Sys2Proof.Machine

/-! ### Command words -/

/-- Every well-formed command decodes from its word, with its source number (R100, R105, R107). -/
def Obligations.DecodeOfEncode : Prop :=
  ∀ (numInst : Nat) (p : Port) (i : Instr), i.wellFormed numInst p = true → decode numInst p (encode i) = .ok i

/-- A word that decodes is the word of the command it decodes to, and that command is well-formed (R107). -/
def Obligations.EncodeOfDecode : Prop :=
  ∀ (numInst : Nat) (p : Port) (w : Nat) (i : Instr), decode numInst p w = .ok i →
    encode i = w ∧ i.wellFormed numInst p = true

/-- A word is ILLEGAL exactly when one of R107's tests fails, and otherwise it decodes to its `OP` and `SRC`. -/
def Obligations.IllegalExactly : Prop :=
  ∀ (numInst : Nat) (p : Port) (w : Nat),
    ((∃ e, decode numInst p w = .error e) ↔
      (bitField w 7 6 ≠ 0 ∨ w / 2 ^ 16 ≠ 0 ∨ (∀ row ∈ opcodeMap, row.1 ≠ bitField w 5 0) ∨
        (∃ row ∈ opcodeMap, row.1 = bitField w 5 0 ∧ p ∉ row.2) ∨
        (bitField w 5 0 = 0x21 ∧ numInst ≤ bitField w 15 8) ∨ (bitField w 5 0 ≠ 0x21 ∧ bitField w 15 8 ≠ 0))) ∧
    ∀ i, decode numInst p w = .ok i → i.opcode = bitField w 5 0 ∧ i.srcField = bitField w 15 8

/-- Words written out from R105 and the vectors of 95_test_vectors.md, one or more of each family, decode as listed. -/
def Obligations.SampleWordsDecode : Prop :=
  decode 2 .x 0x00000001 = .ok .init ∧ decode 2 .r 0x00000009 = .ok .occ ∧ decode 2 .w 0x00000010 = .ok .write ∧
  decode 2 .r 0x0000001A = .ok .peek ∧ decode 2 .w 0x00000013 = .ok .linWLen ∧ decode 2 .r 0x0000001D = .ok .skip ∧
  decode 2 .x 0x00000121 = .ok (.move 1) ∧ decode 2 .x 0x00000022 = .ok .find ∧
  decode 2 .r 0x00000010 = .error .wrongPort ∧ decode 2 .x 0x00000221 = .error .srcRange ∧
  decode 2 .w 0x00000110 = .error .srcNotZero ∧ decode 2 .w 0x00000050 = .error .rsv0 ∧
  decode 2 .w 0x00010010 = .error .rsv1 ∧ decode 2 .x 0x00000000 = .error .reservedOp

/-! ### The register block -/

/-- The three outcomes of a register access (R63): outside the span nothing happens, a bad access in the span faults, and the
address of R38 reaches register `j` of instance `i`. An access is outside the span when its first byte address is, whatever its
width (assumption log 14). -/
def Obligations.RegisterAccessOutcomes : Prop :=
  ∀ (s : State), s.cfg.wf →
    (∀ addr width v, (addr < s.cfg.regBase ∨ s.cfg.regBase + 256 * 32 * (s.cfg.regW / 8) ≤ addr) →
      s.perform (.regWrite addr width v) = .next s ∧ s.perform (.regRead addr width) = .next s) ∧
    (∀ addr width v, s.cfg.regBase ≤ addr → addr < s.cfg.regBase + 256 * 32 * (s.cfg.regW / 8) →
      (width ≠ s.cfg.regW ∨
        ¬ ∃ i < s.cfg.numInst, ∃ j < 32, addr = s.cfg.regBase + (32 * i + j) * (s.cfg.regW / 8)) →
      s.perform (.regWrite addr width v) = .fault (.regAccess addr width) ∧
      s.perform (.regRead addr width) = .fault (.regAccess addr width)) ∧
    (∀ i < s.cfg.numInst, ∀ j < 32,
      regTarget s.cfg (s.cfg.regBase + (32 * i + j) * (s.cfg.regW / 8)) s.cfg.regW = .reg i j)

/-- `A`, `N` and `K` of every port take what a host writes, busy or not, and nothing else changes (R32). -/
def Obligations.OperandRegistersTakeWrites : Prop :=
  ∀ (s : State) (i v : Nat) (p : Port), s.cfg.wf → s.insts.length = s.cfg.numInst → i < s.cfg.numInst →
    v < 2 ^ s.cfg.regW →
    (∃ t, s.perform (.regWrite (regAddr s.cfg i (firstReg p + 1)) s.cfg.regW v) = .next t ∧
      OnlyPort s t i p { (s.inst i).port p with a := v }) ∧
    (∃ t, s.perform (.regWrite (regAddr s.cfg i (firstReg p + 2)) s.cfg.regW v) = .next t ∧
      OnlyPort s t i p { (s.inst i).port p with n := v }) ∧
    (∃ t, s.perform (.regWrite (regAddr s.cfg i (firstReg p + 3)) s.cfg.regW v) = .next t ∧
      OnlyPort s t i p { (s.inst i).port p with k := v })

/-- A write to a read-only or reserved register changes nothing (R34, R35, R37, R38). -/
def Obligations.ReadOnlyRegistersIgnoreWrites : Prop :=
  ∀ (s : State) (i j v : Nat), s.cfg.wf → i < s.cfg.numInst → j < 32 → (24 ≤ j ∨ 4 ≤ j % 8) →
    s.perform (.regWrite (regAddr s.cfg i j) s.cfg.regW v) = .next s

/-- What each register reads (R32 to R38); the read changes nothing but the value returned to the host. -/
def Obligations.RegisterReads : Prop :=
  ∀ (s : State) (i : Nat), s.cfg.wf → i < s.cfg.numInst →
    let reads (j v : Nat) : Prop :=
      s.perform (.regRead (regAddr s.cfg i j) s.cfg.regW) = .next { s with rdata := some v }
    (∀ p, reads (firstReg p) ((s.inst i).port p).cmd ∧ reads (firstReg p + 1) ((s.inst i).port p).a ∧
      reads (firstReg p + 2) ((s.inst i).port p).n ∧ reads (firstReg p + 3) ((s.inst i).port p).k ∧
      reads (firstReg p + 4) ((s.inst i).port p).res0 ∧ reads (firstReg p + 5) ((s.inst i).port p).res1 ∧
      reads (firstReg p + 6) ((s.inst i).status p) ∧ reads (firstReg p + 7) 0) ∧
    reads 24 (s.inst i).base ∧ reads 25 (s.inst i).size ∧ reads 26 (if (s.inst i).evtEn = true then 1 else 0) ∧
    reads 27 0 ∧ reads 28 (paramReg s.cfg) ∧ reads 29 i ∧ reads 30 0 ∧ reads 31 0

/-- The fields of `STATUS` (R35, R271). -/
def Obligations.StatusFields : Prop :=
  ∀ (I : Inst) (p : Port),
    bitField (I.status p) 0 0 = (if (I.port p).busy = none then 0 else 1) ∧
    bitField (I.status p) 2 1 = (match (I.port p).code with | .done => 0 | .illegal => 1 | .abort => 2) ∧
    bitField (I.status p) 3 3 = (if I.occ (I.view p).1 (I.view p).2 = 0 then 1 else 0) ∧
    bitField (I.status p) 4 4 = (if I.free (I.view p).1 (I.view p).2 = 0 then 1 else 0) ∧
    bitField (I.status p) 5 5 = (if I.base ≠ 0 ∧ I.size ≠ 0 then 1 else 0) ∧
    I.status p / 2 ^ 6 = 0

/-- The fields of `PARAM` (R37). -/
def Obligations.ParamFields : Prop :=
  ∀ (c : Config), c.wf →
    bitField (paramReg c) 7 0 = c.capW ∧ bitField (paramReg c) 15 8 = c.numInst - 1 ∧
    bitField (paramReg c) 16 16 = (if c.cdc = .async then 1 else 0) ∧ bitField (paramReg c) 23 17 = 0 ∧
    bitField (paramReg c) 31 24 = c.regW ∧ paramReg c / 2 ^ 32 = 0

/-! ### ISSUE -/

/-- A host write to `CMD` (R69): `F_ISSUE_BUSY` on a busy port; an illegal word only sets `CMD` and `CODE`; a conflicting
command is `F_EXCL`; any other is latched with the operands the port holds. Nothing else changes. -/
def Obligations.IssueRule : Prop :=
  ∀ (s : State) (i : Nat) (p : Port) (word : Nat), s.cfg.wf → s.insts.length = s.cfg.numInst → i < s.cfg.numInst →
    word < 2 ^ s.cfg.regW →
    let write := s.perform (.regWrite (regAddr s.cfg i (firstReg p)) s.cfg.regW word)
    let q := (s.inst i).port p
    (q.busy ≠ none → write = .fault (.issueBusy i p word)) ∧
    (q.busy = none → (∃ e, decode s.cfg.numInst p word = .error e) →
      ∃ t, write = .next t ∧ OnlyPort s t i p { q with cmd := word, code := .illegal }) ∧
    (∀ c, q.busy = none → decode s.cfg.numInst p word = .ok c →
      (∃ b ∈ s.busyCmds, conflict (footprint i p c) (footprint b.1 b.2.1 b.2.2.instr) = true) →
      write = .fault (.excl i p word)) ∧
    (∀ c, q.busy = none → decode s.cfg.numInst p word = .ok c →
      (∀ b ∈ s.busyCmds, conflict (footprint i p c) (footprint b.1 b.2.1 b.2.2.instr) = false) →
      ∃ t, write = .next t ∧ OnlyPort s t i p { q with cmd := word, busy := some ⟨c, q.a, q.n, q.k⟩ })

/-- Two commands conflict exactly when they share an instance and one of them is on the X port (R71). -/
def Obligations.ConflictMeansSharedInstanceWithX : Prop :=
  ∀ (i j : Nat) (p q : Port) (c d : Instr),
    let insts (p : Port) (c : Instr) (i : Nat) : List Nat :=
      match p, c with
      | .x, .move src => [i, src]
      | _, _ => [i]
    (conflict (footprint i p c) (footprint j q d) = true ↔
      (∃ k ∈ insts p c i, k ∈ insts q d j) ∧ (p = .x ∨ q = .x))

/-- An illegal word, the zero word among them, only sets `CMD` and `CODE` of an idle port: it does not make the port busy and
raises no fault (R108, R272). -/
def Obligations.IllegalWordEffect : Prop :=
  (∀ numInst p, ∃ e, decode numInst p 0 = .error e) ∧
  ∀ (s : State) (i : Nat) (p : Port) (word : Nat), s.cfg.wf → s.insts.length = s.cfg.numInst → i < s.cfg.numInst →
    word < 2 ^ s.cfg.regW → ((s.inst i).port p).busy = none → (∃ e, decode s.cfg.numInst p word = .error e) →
    ∃ t, s.perform (.regWrite (regAddr s.cfg i (firstReg p)) s.cfg.regW word) = .next t ∧
      OnlyPort s t i p { (s.inst i).port p with cmd := word, code := .illegal } ∧
      ((t.inst i).port p).busy = none ∧ t.faults = s.faults

/-! ### Initialisation and status commands -/

/-- `INIT` attaches storage and clears the instance, or answers 0 and changes nothing (R130). -/
def Obligations.InitEffect : Prop :=
  ∀ (s : State) (c : Pending), Armed s .init c →
    ((c.a = 0 ∨ c.n = 0 ∨ 2 ^ s.cfg.capW ≤ c.n ∨ 2 ^ s.cfg.regW < c.a + c.n) →
      ReturnsZero s .init [s.site.inst]) ∧
    (c.a ≠ 0 → c.n ≠ 0 → c.n < 2 ^ s.cfg.capW → c.a + c.n ≤ 2 ^ s.cfg.regW →
      ∃ t, exec .init s = .next t ∧ SameBytes s t ∧
        Leaves s t [s.site.inst]
          { s.here with base := c.a, size := c.n, r := 0, w := 0, wcnt := 0, rcnt := 0, evtEn := false }
          1 s.herePort.res1 .done)

/-- `DEINIT` clears `BASE` of a ready instance and nothing else; on an instance that is not ready it answers 0 (R131). -/
def Obligations.DeinitEffect : Prop :=
  ∀ (s : State) (c : Pending), Armed s .deinit c →
    (s.here.ready = false → ReturnsZero s .deinit [s.site.inst]) ∧
    (s.here.ready = true →
      ∃ t, exec .deinit s = .next t ∧ SameBytes s t ∧
        Leaves s t [s.site.inst] { s.here with base := 0 } 1 s.herePort.res1 .done)

/-- `SET_EVT` copies bit 0 of `N` to `EVT_EN` of a ready instance, and else answers 0 (R133). -/
def Obligations.SetEvtEffect : Prop :=
  ∀ (s : State) (c : Pending), Armed s .setEvt c →
    (s.here.ready = false → ReturnsZero s .setEvt [s.site.inst]) ∧
    (s.here.ready = true →
      ∃ t, exec .setEvt s = .next t ∧ SameBytes s t ∧
        Leaves s t [s.site.inst] { s.here with evtEn := decide (c.n % 2 = 1) } 1 s.herePort.res1 .done)

/-- `SET_TAG` stores `A` in `TAG`, ready or not; `GET_TAG` answers `TAG` on every port (R134, R135). -/
def Obligations.TagCommands : Prop :=
  (∀ (s : State) (c : Pending), Armed s .setTag c →
    ∃ t, exec .setTag s = .next t ∧ SameBytes s t ∧
      Leaves s t [s.site.inst] { s.here with tag := c.a } 1 s.herePort.res1 .done) ∧
  Answers .getTag fun s => s.here.tag

/-- `IS_READY` answers 1 exactly when storage is attached and the capacity is not 0 (R27, R132). -/
def Obligations.IsReadyAnswer : Prop :=
  Answers .isReady fun s => if s.here.base ≠ 0 ∧ s.here.size ≠ 0 then 1 else 0

/-! ### Occupancy -/

/-- The view of each port (R15), and `OCC` and `FREE`, which answer the occupancy and the free space of the view of the port they
run on (R150 to R153). -/
def Obligations.OccupancyAnswers : Prop :=
  let occ (s : State) : Nat :=
    if s.here.base = 0 ∨ s.here.size = 0 then 0
    else if s.view.1 ≤ s.view.2 then s.view.2 - s.view.1
    else s.here.size - (s.view.1 - s.view.2)
  (∀ I : Inst, I.view .w = (I.rv, I.w) ∧ I.view .r = (I.r, I.wv) ∧ I.view .x = (I.r, I.w)) ∧
  (∀ s : State, s.view = s.here.view s.site.port) ∧
  (Answers .occ occ) ∧
  (Answers .free fun s => if s.here.base = 0 ∨ s.here.size = 0 then 0 else s.here.size - occ s - 1)

/-- The occupancy of a ready instance's view is the ring distance, from 0 to `SIZE - 1`, and 0 exactly when the positions are
equal; free space and occupancy add up to `SIZE - 1`, and free space is 0 exactly when the write position is one slot behind the
read position (R150, R151, R157). -/
def Obligations.CapacityLaw : Prop :=
  ∀ (I : Inst) (rd wr : Nat), I.ready = true → rd < I.size → wr < I.size →
    I.occ rd wr = (wr + I.size - rd) % I.size ∧ I.occ rd wr ≤ I.size - 1 ∧ (I.occ rd wr = 0 ↔ rd = wr) ∧
    I.free rd wr + I.occ rd wr = I.size - 1 ∧ (I.free rd wr = 0 ↔ wr = (rd + I.size - 1) % I.size)

/-- The `EMPTY` and `FULL` flags of a port (R154, R155). -/
def Obligations.EmptyAndFullFlags : Prop :=
  ∀ (I : Inst) (p : Port),
    (I.ready = false → I.emptyFlag p = true ∧ I.fullFlag p = true) ∧
    (I.ready = true → (I.view p).1 < I.size → (I.view p).2 < I.size →
      (I.emptyFlag p = true ↔ (I.view p).1 = (I.view p).2) ∧
      (I.fullFlag p = true ↔ (I.view p).2 = ((I.view p).1 + I.size - 1) % I.size) ∧
      (I.emptyFlag p = true ∧ I.fullFlag p = true ↔ I.size = 1))

/-- The views are conservative: the R view's occupancy and the W view's free space never exceed the true ones, and the W view's
occupancy and the R view's free space are never below them (R85). -/
def Obligations.ViewsAreConservative : Prop :=
  ∀ (c : Config) (I : Inst), I.Inv c → I.ready = true →
    I.occ I.r I.wv ≤ I.occ I.r I.w ∧ I.free I.rv I.w ≤ I.free I.r I.w ∧
    I.occ I.r I.w ≤ I.occ I.rv I.w ∧ I.free I.r I.w ≤ I.free I.r I.wv

/-! ### Linear blocks -/

/-- `LIN_R_ADDR` and `LIN_R_LEN` (R200, R201). -/
def Obligations.LinearReadAnswers : Prop :=
  (Answers .linRAddr fun s => if s.here.base = 0 ∨ s.here.size = 0 then 0 else s.here.base + s.view.1) ∧
  (Answers .linRLen fun s =>
    if s.here.base = 0 ∨ s.here.size = 0 then 0
    else if s.view.1 < s.view.2 then s.view.2 - s.view.1
    else if s.view.2 < s.view.1 then s.here.size - s.view.1
    else 0)

/-- `LIN_W_ADDR` and `LIN_W_LEN`, with the off-by-one when the read position is 0 (R203, R204). -/
def Obligations.LinearWriteAnswers : Prop :=
  (Answers .linWAddr fun s => if s.here.base = 0 ∨ s.here.size = 0 then 0 else s.here.base + s.view.2) ∧
  (Answers .linWLen fun s =>
    if s.here.base = 0 ∨ s.here.size = 0 then 0
    else if s.view.1 ≤ s.view.2 then
      (if s.view.1 = 0 then s.here.size - s.view.2 - 1 else s.here.size - s.view.2)
    else s.view.1 - s.view.2 - 1)

/-- The window laws (R207): each window is no longer than what the view offers, is empty only when the view offers nothing, lies
inside the view's occupied or free slots and does not pass the end of storage. -/
def Obligations.WindowLaws : Prop :=
  ∀ (I : Inst) (rd wr : Nat), I.ready = true → rd < I.size → wr < I.size →
    I.linRLen rd wr ≤ I.occ rd wr ∧ (0 < I.linRLen rd wr ↔ 0 < I.occ rd wr) ∧
    I.linWLen rd wr ≤ I.free rd wr ∧ (0 < I.linWLen rd wr ↔ 0 < I.free rd wr) ∧
    rd + I.linRLen rd wr ≤ I.size ∧ wr + I.linWLen rd wr ≤ I.size ∧
    (∀ j < I.linRLen rd wr, dist I.size rd (rd + j) < I.occ rd wr) ∧
    (∀ j < I.linWLen rd wr, dist I.size wr (wr + j) < I.free rd wr)

/-- `SKIP` releases `min(N, occ)` bytes of the view (R171, R202). -/
def Obligations.SkipEffect : Prop :=
  ∀ (s : State) (c : Pending), s.Inv → Armed s .skip c →
    ((s.here.ready = false ∨ c.n = 0) → ReturnsZero s .skip [s.site.inst]) ∧
    (s.here.ready = true → c.n ≠ 0 →
      let I := s.here
      let m := min c.n (I.occ s.view.1 s.view.2)
      ∃ t, exec .skip s = .next t ∧ SameBytes s t ∧
        Leaves s t [s.site.inst]
          { I with
            r := (I.r + m) % I.size, rcnt := countPlus s.cfg I.rcnt m
            events := if m = 0 then I.events else historyPlus I s.site.port .read m }
          m s.herePort.res1 .done)

/-- `ADVANCE` commits `min(N, free)` bytes of the view (R170, R205). -/
def Obligations.AdvanceEffect : Prop :=
  ∀ (s : State) (c : Pending), s.Inv → Armed s .advance c →
    ((s.here.ready = false ∨ c.n = 0) → ReturnsZero s .advance [s.site.inst]) ∧
    (s.here.ready = true → c.n ≠ 0 →
      let I := s.here
      let m := min c.n (I.free s.view.1 s.view.2)
      ∃ t, exec .advance s = .next t ∧ SameBytes s t ∧
        Leaves s t [s.site.inst]
          { I with
            w := (I.w + m) % I.size, wcnt := countPlus s.cfg I.wcnt m
            events := if m = 0 then I.events else historyPlus I s.site.port .write m }
          m s.herePort.res1 .done)

/-! ### Copying commands -/

/-- A copying command on an instance that is not ready, with a null buffer or a zero length answers 0 and changes nothing else;
`FIND` answers 0 in `RES1` too (R274). -/
def Obligations.CopySentinels : Prop :=
  ∀ (s : State) (c : Pending), (s.here.ready = false ∨ c.a = 0 ∨ c.n = 0) →
    (∀ i ∈ [Instr.write, .writeExact, .read, .readExact, .peek, .overwrite],
      Armed s i c → ReturnsZero s i [s.site.inst]) ∧
    (Armed s .find c → ∃ t, exec .find s = .next t ∧ SameBytes s t ∧ Leaves s t [s.site.inst] s.here 0 0 .done)

/-- `F_BUS` for an access the platform does not admit comes first and reports such an access of the command; then `F_OVERLAP` for
an operand range that meets a ready storage (R64, R65, R278). Which slots `FIND` accesses is the model's reading (assumption
log 11), and so is `F_BUS` for an `OVERWRITE` above the usable capacity whose payload passes the top of the address space
(assumption log 25). -/
def Obligations.CopyFaultOrder : Prop :=
  ∀ (s : State) (i : Instr) (c : Pending), Copying s i c →
    let q := copyPlan s i c
    q.len ≠ 0 →
    (¬ AllAdmitted s.cfg (copyAccesses s i c) →
      ∃ a n, exec i s = .fault (.bus s.site.inst s.site.port a n) ∧ ¬ Admitted s.cfg a n ∧ (a, n) ∈ copyAccesses s i c) ∧
    (AllAdmitted s.cfg (copyAccesses s i c) → ¬ ClearOfStorage s q.addr q.len →
      exec i s = .fault (.overlap s.site.inst s.site.port))

/-- `WRITE` copies and commits `min(free, N)` bytes and answers that count; with no room it changes nothing (R170, R172). -/
def Obligations.WriteEffect : Prop :=
  ∀ (s : State) (c : Pending), s.Inv → Copying s .write c →
    let I := s.here
    let m := min (I.free s.view.1 s.view.2) c.n
    (m = 0 → ReturnsZero s .write [s.site.inst]) ∧
    (m ≠ 0 → PlanOk s .write c →
      ∃ t, exec .write s = .next t ∧ CopiedIn s t I I.w c.a m ∧
        Leaves s t [s.site.inst]
          { I with
            w := (I.w + m) % I.size, wcnt := countPlus s.cfg I.wcnt m
            events := historyPlus I s.site.port .write m }
          m s.herePort.res1 .done)

/-- `WRITE_EXACT` copies and commits all `N` bytes and answers 1, or, without room for all, answers 0 and changes nothing
(R170, R173). -/
def Obligations.WriteExactEffect : Prop :=
  ∀ (s : State) (c : Pending), s.Inv → Copying s .writeExact c →
    let I := s.here
    (I.free s.view.1 s.view.2 < c.n → ReturnsZero s .writeExact [s.site.inst]) ∧
    (c.n ≤ I.free s.view.1 s.view.2 → PlanOk s .writeExact c →
      ∃ t, exec .writeExact s = .next t ∧ CopiedIn s t I I.w c.a c.n ∧
        Leaves s t [s.site.inst]
          { I with
            w := (I.w + c.n) % I.size, wcnt := countPlus s.cfg I.wcnt c.n
            events := historyPlus I s.site.port .write c.n }
          1 s.herePort.res1 .done)

/-- `READ` copies out and releases `min(occ, N)` bytes and answers that count; of an empty view it changes nothing
(R171, R174). -/
def Obligations.ReadEffect : Prop :=
  ∀ (s : State) (c : Pending), s.Inv → Copying s .read c →
    let I := s.here
    let m := min (I.occ s.view.1 s.view.2) c.n
    (m = 0 → ReturnsZero s .read [s.site.inst]) ∧
    (m ≠ 0 → PlanOk s .read c →
      ∃ t, exec .read s = .next t ∧ CopiedOut s t I I.r c.a m ∧
        Leaves s t [s.site.inst]
          { I with
            r := (I.r + m) % I.size, rcnt := countPlus s.cfg I.rcnt m
            events := historyPlus I s.site.port .read m }
          m s.herePort.res1 .done)

/-- `READ_EXACT` copies out and releases all `N` bytes and answers 1, or, with fewer bytes in the view, answers 0 and changes
nothing (R171, R175). -/
def Obligations.ReadExactEffect : Prop :=
  ∀ (s : State) (c : Pending), s.Inv → Copying s .readExact c →
    let I := s.here
    (I.occ s.view.1 s.view.2 < c.n → ReturnsZero s .readExact [s.site.inst]) ∧
    (c.n ≤ I.occ s.view.1 s.view.2 → PlanOk s .readExact c →
      ∃ t, exec .readExact s = .next t ∧ CopiedOut s t I I.r c.a c.n ∧
        Leaves s t [s.site.inst]
          { I with
            r := (I.r + c.n) % I.size, rcnt := countPlus s.cfg I.rcnt c.n
            events := historyPlus I s.site.port .read c.n }
          1 s.herePort.res1 .done)

/-- `PEEK` copies out up to `N` bytes from the `K`-th unread byte on and changes no cursor, count or event (R176). -/
def Obligations.PeekEffect : Prop :=
  ∀ (s : State) (c : Pending), s.Inv → Copying s .peek c →
    let I := s.here
    let o := I.occ s.view.1 s.view.2
    (o ≤ c.k → ReturnsZero s .peek [s.site.inst]) ∧
    (c.k < o → PlanOk s .peek c →
      let m := min c.n (o - c.k)
      ∃ t, exec .peek s = .next t ∧ CopiedOut s t I (I.r + c.k) c.a m ∧
        Leaves s t [s.site.inst] I m s.herePort.res1 .done)

/-- A `WRITE` into an empty FIFO followed by a `READ` of as many bytes gives the bytes back in order, wherever the
cursors stand, when the reader sees the write (R62, R177). -/
def Obligations.WriteThenReadRoundTrip : Prop :=
  ∀ (s t u v : State) (c d : Pending), s.Inv → Copying s .write c → s.here.r = s.here.w →
    c.n ≤ s.here.free s.view.1 s.view.2 → exec .write s = .next t →
    u.Inv → u.site.inst = s.site.inst → u.mem = t.mem → SameFifo t.here u.here → u.here.wv = t.here.w →
    Copying u .read d → d.n = c.n → exec .read u = .next v →
    v.herePort.res0 = c.n ∧ (∀ k < c.n, Memory.read v.mem (d.a + k) = Memory.read s.mem (c.a + k)) ∧
    v.here.r = v.here.w

/-! ### Reset and the extended operations -/

/-- `RESET` zeroes both cursors and counts of a ready instance, touches no byte and emits `(RESET, 0)`; else it answers 0
(R230). -/
def Obligations.ResetEffect : Prop :=
  ∀ (s : State) (c : Pending), Armed s .reset c →
    (s.here.ready = false → ReturnsZero s .reset [s.site.inst]) ∧
    (s.here.ready = true →
      ∃ t, exec .reset s = .next t ∧ SameBytes s t ∧
        Leaves s t [s.site.inst]
          { s.here with r := 0, w := 0, wcnt := 0, rcnt := 0, events := historyPlus s.here .x .reset 0 }
          1 s.herePort.res1 .done)

/-- `OVERWRITE` of a payload within the usable capacity drops exactly the deficit, writes all `N` bytes at the write cursor and
answers `N` (R231). -/
def Obligations.OverwriteWithinCapacity : Prop :=
  ∀ (s : State) (c : Pending), s.Inv → Copying s .overwrite c → c.n ≤ s.here.size - 1 →
    PlanOk s .overwrite c →
    let I := s.here
    let drop := c.n - I.free I.r I.w
    let I1 := if drop = 0 then I else { I with events := historyPlus I .x .read drop }
    ∃ t, exec .overwrite s = .next t ∧ CopiedIn s t I I.w c.a c.n ∧
      Leaves s t [s.site.inst]
        { I with
          r := (I.r + drop) % I.size, rcnt := countPlus s.cfg I.rcnt drop
          w := (I.w + c.n) % I.size, wcnt := countPlus s.cfg I.wcnt c.n
          events := historyPlus I1 .x .write c.n }
        c.n s.herePort.res1 .done

/-- `OVERWRITE` of a payload above the usable capacity resets the instance and keeps the last `SIZE - 1` bytes; it answers `N`
(R231, C1). -/
def Obligations.OverwriteBeyondCapacity : Prop :=
  ∀ (s : State) (c : Pending), s.Inv → Copying s .overwrite c → s.here.size - 1 < c.n →
    PlanOk s .overwrite c →
    let I := s.here
    let cap := I.size - 1
    let I1 := { I with events := historyPlus I .x .reset 0 }
    ∃ t, exec .overwrite s = .next t ∧ CopiedIn s t I 0 (c.a + (c.n - cap)) cap ∧
      Leaves s t [s.site.inst]
        { I with
          r := 0, rcnt := 0, w := cap, wcnt := countPlus s.cfg 0 cap
          events := if cap = 0 then I1.events else historyPlus I1 .x .write cap }
        c.n s.herePort.res1 .done

/-- `FIND` answers the first logical index at or after `K` at which the needle occurs in the unread bytes, and otherwise 0 in both
results; it changes nothing else (R232). The needle and the slots that the scan reads must be admitted: those up to the end of the
first match, or all from `K` on (assumption log 11). -/
def Obligations.FindFirstMatch : Prop :=
  ∀ (s : State) (c : Pending), s.Inv → Copying s .find c →
    let I := s.here
    let o := I.occ I.r I.w
    let occurs (x : Nat) : Prop := ∀ j < c.n, Memory.read s.mem (slotAddr I I.r (x + j)) = Memory.read s.mem (c.a + j)
    let readable (n : Nat) : Prop := ∀ j < n, Admitted s.cfg (slotAddr I I.r (c.k + j)) 1
    (o < c.n + c.k →
      ∃ t, exec .find s = .next t ∧ SameBytes s t ∧ Leaves s t [s.site.inst] I 0 0 .done) ∧
    (c.n + c.k ≤ o → Admitted s.cfg c.a c.n → ClearOfStorage s c.a c.n →
      (∀ x, c.k ≤ x → x + c.n ≤ o → occurs x → (∀ y, c.k ≤ y → y < x → ¬ occurs y) → readable (x + c.n - c.k) →
        ∃ t, exec .find s = .next t ∧ SameBytes s t ∧ Leaves s t [s.site.inst] I 1 x .done) ∧
      ((∀ x, c.k ≤ x → x + c.n ≤ o → ¬ occurs x) → readable (o - c.k) →
        ∃ t, exec .find s = .next t ∧ SameBytes s t ∧ Leaves s t [s.site.inst] I 0 0 .done))

/-- `MOVE` with an instance that is not ready answers 0 and changes nothing else (R233). -/
def Obligations.MoveSentinel : Prop :=
  ∀ (s : State) (c : Pending) (src : Nat), s.Inv → Armed s (.move src) c →
    (s.here.ready = false ∨ (s.inst src).ready = false) →
    ∃ t, exec (.move src) s = .next t ∧ SameBytes s t ∧
      Leaves s t [s.site.inst, src] s.here 0 s.herePort.res1 .done ∧
      SameFifo (s.inst src) (t.inst src) ∧ Resynced (s.inst src) (t.inst src) ∧
      (src ≠ s.site.inst → ∀ p, (t.inst src).port p = (s.inst src).port p)

/-- `MOVE` between two instances transfers `min(occ, free)` bytes in order, in the chunks of R233, at most three, advances the
source's read cursor and the destination's write cursor by that count, and emits the events of its chunks (R233). -/
def Obligations.MoveTransfers : Prop :=
  ∀ (s : State) (c : Pending) (src : Nat), s.Inv → Armed s (.move src) c → src ≠ s.site.inst →
    s.here.ready = true → (s.inst src).ready = true →
    let D := s.here
    let S := s.inst src
    let b := min (S.occ S.r S.w) (D.free D.r D.w)
    let chunks := moveChunks false D S b 0 b
    AllAdmitted s.cfg (chunkAccesses D S 0 chunks) →
    (S.base + S.size ≤ D.base ∨ D.base + D.size ≤ S.base) →
    chunks.sum = b ∧ (∀ n ∈ chunks, 0 < n) ∧ chunks.length ≤ 3 ∧
    ∃ t : State, exec (.move src) s = .next t ∧
      (∀ k < b, Memory.read t.mem (slotAddr D D.w k) = Memory.read s.mem (slotAddr S S.r k)) ∧
      (∀ x, (∀ k < b, x ≠ slotAddr D D.w k) → Memory.read t.mem x = Memory.read s.mem x) ∧
      Leaves s t [s.site.inst, src]
        { D with
          w := (D.w + b) % D.size, wcnt := countPlus s.cfg D.wcnt b
          events := if D.evtEn = true then D.events ++ chunks.map (fun n => ⟨.x, .write, n⟩) else D.events }
        b s.herePort.res1 .done ∧
      SameFifo
        { S with
          r := (S.r + b) % S.size, rcnt := countPlus s.cfg S.rcnt b
          events := if S.evtEn = true then S.events ++ chunks.map (fun n => ⟨.x, .read, n⟩) else S.events }
        (t.inst src) ∧
      Resynced S (t.inst src) ∧ ∀ p, (t.inst src).port p = S.port p

/-- `MOVE` of an instance to itself rotates the unread bytes by `min(occ, free)`, in the chunks of the general algorithm, each with
a `WRITE` and a `READ` event (R236). -/
def Obligations.MoveToItselfRotates : Prop :=
  ∀ (s : State) (c : Pending), s.Inv → Armed s (.move s.site.inst) c → s.here.ready = true →
    let I := s.here
    let o := I.occ I.r I.w
    let b := min o (I.free I.r I.w)
    let chunks := moveChunks true I I b 0 b
    AllAdmitted s.cfg (chunkAccesses I I 0 chunks) →
    chunks.sum = b ∧ (∀ n ∈ chunks, 0 < n) ∧
    ∃ t : State, exec (.move s.site.inst) s = .next t ∧
      (∀ k < o, Memory.read t.mem (slotAddr I ((I.r + b) % I.size) k) =
        if k < o - b then Memory.read s.mem (slotAddr I I.r (k + b)) else Memory.read s.mem (slotAddr I I.r (k - (o - b)))) ∧
      (∀ x, (∀ k < b, x ≠ slotAddr I I.w k) → Memory.read t.mem x = Memory.read s.mem x) ∧
      Leaves s t [s.site.inst]
        { I with
          r := (I.r + b) % I.size, rcnt := countPlus s.cfg I.rcnt b
          w := (I.w + b) % I.size, wcnt := countPlus s.cfg I.wcnt b
          events :=
            if I.evtEn = true then I.events ++ chunks.flatMap (fun n => [⟨.x, .write, n⟩, ⟨.x, .read, n⟩]) else I.events }
        b s.herePort.res1 .done

/-- `MOVE` faults before any effect: `F_BUS` when some chunk's read of the source or write of the destination is not admitted, and
it reports such an access; `F_OVERLAP` when every access is admitted and the storages of two instances meet (R64, R65, R233, R278).
That `F_BUS` comes first is read from R278 (assumption log 15). -/
def Obligations.MoveFaults : Prop :=
  ∀ (s : State) (c : Pending) (src : Nat), s.Inv → Armed s (.move src) c → s.here.ready = true →
    (s.inst src).ready = true →
    let D := s.here
    let S := s.inst src
    let b := min (S.occ S.r S.w) (D.free D.r D.w)
    let accesses := chunkAccesses D S 0 (moveChunks (decide (s.site.inst = src)) D S b 0 b)
    (¬ AllAdmitted s.cfg accesses →
      ∃ a n, exec (.move src) s = .fault (.bus s.site.inst s.site.port a n) ∧ ¬ Admitted s.cfg a n ∧ (a, n) ∈ accesses) ∧
    (src ≠ s.site.inst → AllAdmitted s.cfg accesses → S.base < D.base + D.size → D.base < S.base + S.size →
      exec (.move src) s = .fault (.overlap s.site.inst s.site.port))

/-- The abort of `MOVE` is unreachable: it always completes with `DONE` (R234, R235). -/
def Obligations.MoveNeverAborts : Prop :=
  ∀ (s t : State) (src : Nat), s.Inv → exec (.move src) s = .next t → t.herePort.code = .done

/-! ### The Gray crossing and the synchronisers -/

/-- The Gray code: its bits, its inverse, and consecutive codes, the wrap among them, differing in one bit (R76). -/
def Obligations.GrayCode : Prop :=
  ∀ (capW : Nat), 1 ≤ capW → ∀ b < 2 ^ capW,
    gray b = b ^^^ (b >>> 1) ∧ gray b < 2 ^ capW ∧ ungray capW (gray b) = b ∧
    (∃ k < capW, gray b ^^^ gray ((b + 1) % 2 ^ capW) = 2 ^ k) ∧
    gray (2 ^ capW - 1) ^^^ gray 0 = 2 ^ (capW - 1) ∧
    (∀ g < 2 ^ capW, (ungray capW g).testBit (capW - 1) = g.testBit (capW - 1) ∧
      ∀ k, k + 1 < capW → (ungray capW g).testBit k = ((ungray capW g).testBit (k + 1) ^^ g.testBit k))

/-- The synchroniser steps (R80): enabled in `ASYNC` on a ready instance whose view trails, with a jump from 1 to the distance;
the view moves forward by the jump and never passes the cursor. The published count and the chain behind that view move up to the
count that the new view stands for, where they are further behind (assumption log 10); nothing else changes. A scheduled step
that is not enabled changes nothing (assumption log 8). -/
def Obligations.SynchroniserSteps : Prop :=
  ∀ (s : State) (i k : Nat), s.Inv → i < s.insts.length →
    let I := s.inst i
    let M := 2 ^ s.cfg.capW
    let caughtUp (cnt d x : Nat) : Nat := if d < (cnt + M - x) % M then (cnt + M - d) % M else x
    let chainUp (cnt d : Nat) (chain : List Nat) : List Nat := chain.map fun g => gray (caughtUp cnt d (ungray s.cfg.capW g))
    ((s.cfg.cdc = .async ∧ I.ready = true ∧ I.wv ≠ I.w ∧ 1 ≤ k ∧ k ≤ dist I.size I.wv I.w) →
      ∃ t, s.perform (.syncW2R i k) = .next t ∧ Elsewhere s t [i] ∧ t.mem = s.mem ∧
        SameFifo I (t.inst i) ∧ (∀ p, (t.inst i).port p = I.port p) ∧
        (t.inst i).wv = (I.wv + k) % I.size ∧ (t.inst i).rv = I.rv ∧
        dist I.size (t.inst i).wv I.w = dist I.size I.wv I.w - k ∧
        (t.inst i).rpub = I.rpub ∧ (t.inst i).rsync = I.rsync ∧
        (t.inst i).wpub = caughtUp I.wcnt (dist I.size I.wv I.w - k) I.wpub ∧
        (t.inst i).wsync = chainUp I.wcnt (dist I.size I.wv I.w - k) I.wsync) ∧
    ((s.cfg.cdc = .async ∧ I.ready = true ∧ I.rv ≠ I.r ∧ 1 ≤ k ∧ k ≤ dist I.size I.rv I.r) →
      ∃ t, s.perform (.syncR2W i k) = .next t ∧ Elsewhere s t [i] ∧ t.mem = s.mem ∧
        SameFifo I (t.inst i) ∧ (∀ p, (t.inst i).port p = I.port p) ∧
        (t.inst i).rv = (I.rv + k) % I.size ∧ (t.inst i).wv = I.wv ∧
        dist I.size (t.inst i).rv I.r = dist I.size I.rv I.r - k ∧
        (t.inst i).wpub = I.wpub ∧ (t.inst i).wsync = I.wsync ∧
        (t.inst i).rpub = caughtUp I.rcnt (dist I.size I.rv I.r - k) I.rpub ∧
        (t.inst i).rsync = chainUp I.rcnt (dist I.size I.rv I.r - k) I.rsync) ∧
    (¬ (s.cfg.cdc = .async ∧ I.ready = true ∧ I.wv ≠ I.w ∧ 1 ≤ k ∧ k ≤ dist I.size I.wv I.w) →
      s.perform (.syncW2R i k) = .next s) ∧
    (¬ (s.cfg.cdc = .async ∧ I.ready = true ∧ I.rv ≠ I.r ∧ 1 ≤ k ∧ k ≤ dist I.size I.rv I.r) →
      s.perform (.syncR2W i k) = .next s)

/-- A clock edge of the Gray implementation publishes one count of its own domain (R78), shifts its chain and takes in the other
domain's published code, and computes the view of a ready instance from the last stage (R79). It leaves the view, or moves it as
one synchroniser step of R80 does (R81), and changes nothing else. -/
def Obligations.ClockEdgesRefineSynchronisers : Prop :=
  ∀ (s : State) (i : Nat), s.Inv → i < s.insts.length → s.cfg.cdc = .async →
    let I := s.inst i
    let published (cnt pub : Nat) : Nat := if pub ≠ cnt then (pub + 1) % 2 ^ s.cfg.capW else pub
    let shifted (g : Nat) (old new : List Nat) : Prop :=
      new.length = old.length ∧ new[0]? = some g ∧ ∀ k, k + 1 < old.length → new[k + 1]? = old[k]?
    let seen (chain : List Nat) : Nat := ungray s.cfg.capW (chain.getD (s.cfg.syncStages - 1) 0)
    (∃ t, s.perform (.rClock i) = .next t ∧ Elsewhere s t [i] ∧ t.mem = s.mem ∧
      SameFifo I (t.inst i) ∧ (∀ p, (t.inst i).port p = I.port p) ∧ (t.inst i).rv = I.rv ∧
      (t.inst i).wpub = I.wpub ∧ (t.inst i).rsync = I.rsync ∧
      (t.inst i).rpub = published I.rcnt I.rpub ∧ shifted (gray I.wpub) I.wsync (t.inst i).wsync ∧
      (I.ready = false → (t.inst i).wv = I.wv) ∧
      (I.ready = true →
        (t.inst i).wv = (I.r + (seen (t.inst i).wsync + 2 ^ s.cfg.capW - I.rcnt) % 2 ^ s.cfg.capW) % I.size ∧
        ((t.inst i).wv = I.wv ∨ ∃ k, 1 ≤ k ∧ k ≤ dist I.size I.wv I.w ∧ (t.inst i).wv = (I.wv + k) % I.size))) ∧
    (∃ t, s.perform (.wClock i) = .next t ∧ Elsewhere s t [i] ∧ t.mem = s.mem ∧
      SameFifo I (t.inst i) ∧ (∀ p, (t.inst i).port p = I.port p) ∧ (t.inst i).wv = I.wv ∧
      (t.inst i).rpub = I.rpub ∧ (t.inst i).wsync = I.wsync ∧
      (t.inst i).wpub = published I.wcnt I.wpub ∧ shifted (gray I.rpub) I.rsync (t.inst i).rsync ∧
      (I.ready = false → (t.inst i).rv = I.rv) ∧
      (I.ready = true →
        (t.inst i).rv = (I.w + I.size - (I.wcnt + 2 ^ s.cfg.capW - seen (t.inst i).rsync) % 2 ^ s.cfg.capW) % I.size ∧
        ((t.inst i).rv = I.rv ∨ ∃ k, 1 ≤ k ∧ k ≤ dist I.size I.rv I.r ∧ (t.inst i).rv = (I.rv + k) % I.size)))

/-! ### Hosts and hardware reset -/

/-- The host write contract (R87). -/
def Obligations.HostWriteContract : Prop :=
  ∀ (s : State) (a : Nat) (b : Byte), s.Inv → a < 2 ^ s.cfg.regW →
    let busyBuffer : Prop := ∃ i < s.insts.length, ∃ p c, ((s.inst i).port p).busy = some c ∧
      c.instr ∈ [Instr.write, .writeExact, .read, .readExact, .peek, .overwrite, .find] ∧ c.a ≤ a ∧ a < c.a + c.n
    let xBusy (j : Nat) : Prop := (s.inst j).xport.busy ≠ none ∨
      ∃ k < s.insts.length, ∃ c, (s.inst k).xport.busy = some c ∧ c.instr = .move j
    let liveSlot : Prop := ∃ j < s.insts.length, (s.inst j).ready = true ∧ ∃ slot < (s.inst j).size,
      a = (s.inst j).base + slot ∧
      (xBusy j ∨ (s.inst j).wport.busy ≠ none ∨
        ¬ ∃ k < (s.inst j).size - 1 - dist (s.inst j).size (s.inst j).r (s.inst j).w,
          slot = ((s.inst j).w + k) % (s.inst j).size)
    (busyBuffer ∨ liveSlot → s.perform (.memWrite a b) = .fault (.hostRace a .write)) ∧
    (¬ (busyBuffer ∨ liveSlot) →
      ∃ t, s.perform (.memWrite a b) = .next t ∧ t = { s with mem := t.mem } ∧
        ∀ x, Memory.read t.mem x = if x = a then b else Memory.read s.mem x)

/-- The host read contract (R88). -/
def Obligations.HostReadContract : Prop :=
  ∀ (s : State) (a : Nat), s.Inv → a < 2 ^ s.cfg.regW →
    let busyBuffer : Prop := ∃ i < s.insts.length, ∃ p c, ((s.inst i).port p).busy = some c ∧
      c.instr ∈ [Instr.read, .readExact, .peek] ∧ c.a ≤ a ∧ a < c.a + c.n
    let xBusy (j : Nat) : Prop := (s.inst j).xport.busy ≠ none ∨
      ∃ k < s.insts.length, ∃ c, (s.inst k).xport.busy = some c ∧ c.instr = .move j
    let liveSlot : Prop := ∃ j < s.insts.length, (s.inst j).ready = true ∧ ∃ slot < (s.inst j).size,
      a = (s.inst j).base + slot ∧
      (xBusy j ∨ ((s.inst j).wport.busy ≠ none ∧
        ¬ ∃ k < dist (s.inst j).size (s.inst j).r (s.inst j).w, slot = ((s.inst j).r + k) % (s.inst j).size))
    (busyBuffer ∨ liveSlot → s.perform (.memRead a) = .fault (.hostRace a .read)) ∧
    (¬ (busyBuffer ∨ liveSlot) →
      s.perform (.memRead a) = .next { s with rdata := some (Memory.read s.mem a).toNat })

/-- A producer that writes inside its linear write window, and a consumer that reads inside its linear read window, never race
while no X-port command involves the instance and no command is busy on the W port (writer) (R206). -/
def Obligations.ZeroCopyWindowsAreSafe : Prop :=
  ∀ (s : State) (j k : Nat) (b : Byte), s.Inv → j < s.insts.length → (s.inst j).ready = true → s.xBusy j = false →
    (∀ i < s.insts.length, i ≠ j → (s.inst i).ready = true →
      (s.inst i).base + (s.inst i).size ≤ (s.inst j).base ∨ (s.inst j).base + (s.inst j).size ≤ (s.inst i).base) →
    let J := s.inst j
    (J.wport.busy = none → k < J.linWLen J.rv J.w → s.inBusyBuffer buffersWritten (J.base + J.w + k) = false →
      ∃ t, s.perform (.memWrite (J.base + J.w + k) b) = .next t) ∧
    (k < J.linRLen J.r J.wv → s.inBusyBuffer buffersRead (J.base + J.r + k) = false →
      ∃ t, s.perform (.memRead (J.base + J.r + k)) = .next t)

/-- Hardware reset (R300, R301): every instance at the values of R42 with its history kept, the faults kept, memory unchanged but
for the bytes a command in flight could have written, which hold free bytes. -/
def Obligations.HardwareReset : Prop :=
  ∀ (s : State), Memory.wf s.mem →
    ∃ t, s.perform .hwReset = .next t ∧ t.cfg = s.cfg ∧ t.faults = s.faults ∧ t.insts.length = s.insts.length ∧
      (∀ i < s.insts.length, t.inst i = { Inst.reset s.cfg.syncStages with events := (s.inst i).events }) ∧
      (∀ x, (∀ b ∈ s.busyCmds, x < (havocRange s.cfg (s.inst b.1) b.2.2).1 ∨
          (havocRange s.cfg (s.inst b.1) b.2.2).1 + (havocRange s.cfg (s.inst b.1) b.2.2).2 ≤ x) →
        Memory.read t.mem x = Memory.read s.mem x) ∧
      (∀ b ∈ s.busyCmds, ∀ x, (havocRange s.cfg (s.inst b.1) b.2.2).1 ≤ x →
        x < (havocRange s.cfg (s.inst b.1) b.2.2).1 + (havocRange s.cfg (s.inst b.1) b.2.2).2 →
        ∃ d, Memory.read t.mem x = Config.freeByte d)

/-! ### The machine -/

/-- A step of any agent, scheduled or the controller's own, that raises a fault records it and changes nothing else (but that a
scheduled step leaves the schedule); a faulted run stops but for a hardware reset, and no step ever removes a recorded fault (R14,
R277). Each fault of R276 has its code. That a faulted run stops is the model's choice (assumption log 13). -/
def Obligations.FaultsAreRecordedAndSticky : Prop :=
  (∀ (s : State) (act : Action) (f : Fault), s.faults = [] → s.nextAction = some act →
    State.perform { s with sched := s.sched.tail } act = .fault f →
    step s = .next { s with sched := s.sched.tail, faults := [f] }) ∧
  (∀ (s : State) (f : Fault), f ∈ s.faults →
    (∀ t, step s = .next t → f ∈ t.faults ∧ ∃ rest, s.sched = .hwReset :: rest) ∧
    ((∀ rest, s.sched ≠ .hwReset :: rest) → ∃ g ∈ s.faults, step s = .fault g)) ∧
  (∀ (i : Nat) (p : Port) (word a n width : Nat) (x : Access),
    (Fault.issueBusy i p word).code = some 1 ∧ (Fault.excl i p word).code = some 2 ∧ (Fault.hostRace a x).code = some 3 ∧
    (Fault.overlap i p).code = some 4 ∧ (Fault.bus i p a n).code = some 5 ∧ (Fault.regAccess a width).code = some 6)

/-- The scheduled COMPLETE step of a busy port runs the decoded command, with the schedule moved on and the engine's port selected;
a fault it raises is recorded. On X it is held while the views of a ready instance involved are not exact (R73): then, and on an
idle port, the scheduled step changes nothing (assumption log 8), and the controller's own next step is not that one. A command word
fetched by `withFetchWord` runs so (assumption log 6). -/
def Obligations.StepRunsTheDecodedCommand : Prop :=
  let lags (J : Inst) : Prop := J.ready = true ∧ (J.rv ≠ J.r ∨ J.wv ≠ J.w)
  (∀ (s : State) (i : Nat) (p : Port) (rest : List Action) (c : Pending), s.faults = [] →
    s.sched = .complete i p :: rest → ((s.inst i).port p).busy = some c →
    (p = .x → ∀ j ∈ involved c.instr i, ¬ lags (s.inst j)) →
    step s = match exec c.instr { s with sched := rest, site := ⟨i, p⟩ } with
      | .fault f => .next { s with sched := rest, faults := [f] }
      | o => o) ∧
  (∀ (s : State) (i : Nat) (c : Pending) (j : Nat), ((s.inst i).port .x).busy = some c → j ∈ involved c.instr i →
    lags (s.inst j) →
    (∀ rest, s.faults = [] → s.sched = .complete i .x :: rest → step s = .next { s with sched := rest }) ∧
    (s.sched = [] → s.nextAction ≠ some (.complete i .x))) ∧
  (∀ (s : State) (i : Nat) (p : Port) (rest : List Action), s.faults = [] → s.sched = .complete i p :: rest →
    ((s.inst i).port p).busy = none → step s = .next { s with sched := rest }) ∧
  (∀ (s : State) (nbits w : Nat) (i : Instr), s.faults = [] → s.insts ≠ [] →
    decode s.cfg.numInst .x (w % 2 ^ nbits) = .ok i →
    let f := s.withFetchWord nbits w
    f.sched = .complete 0 .x :: s.sched ∧
    ((f.inst 0).port .x).busy = some ⟨i, ((s.inst 0).port .x).a, ((s.inst 0).port .x).n, ((s.inst 0).port .x).k⟩ ∧
    step f = match exec i { f with sched := s.sched, site := ⟨0, .x⟩ } with
      | .fault flt => .next { f with sched := s.sched, faults := [flt] }
      | o => o)

/-- Every step keeps the machine invariant: widths, canonical memory, cursors inside the storage, the ring order, and the Gray
state behind the views (R26, R60, R81, R84). -/
def Obligations.StepKeepsTheMachineInvariant : Prop :=
  ∀ (s t : State), s.Inv → step s = .next t → t.Inv

/-- The reset state meets the machine invariant and the exclusive-access contract (R42). -/
def Obligations.ResetMeetsTheInvariants : Prop := State.reset.Inv ∧ State.reset.Exclusive

/-- Every step keeps the exclusive-access contract: no two busy commands conflict (R71). -/
def Obligations.StepKeepsExclusivity : Prop :=
  ∀ (s t : State), s.Inv → s.Exclusive → step s = .next t → t.Exclusive

/-- No step is refused, and a run without a fault always has a next state (R93, R270). -/
def Obligations.StepsNeverGetStuck : Prop :=
  ∀ (s : State), s.Inv → (∀ r, step s ≠ .refused r) ∧ (s.faults = [] → ∃ t, step s = .next t)

/-- Once the hosts stop, the controller becomes quiescent within a bounded number of steps, or records a fault (R93, R315). The
order in which its agents step is the model's choice (assumption log 7). -/
def Obligations.HostsStoppedMeansQuiescent : Prop :=
  ∀ (s : State), s.Inv → s.faults = [] → s.sched = [] →
    ∃ k ≤ 3 * s.insts.length * (2 * s.insts.length + 1) + 2 * s.insts.length, ∃ t,
      Host.Core.run Sys2Proof.core k s = .next t ∧ (t.Quiescent ∨ t.Faulted)

/-- No step changes the parameters, and `SIZE`, `BASE`, `EVT_EN` and `TAG` of an instance change only in the X-port COMPLETE of
the commands that write them, or at hardware reset (R23, R24, R28, R29, R39, R41). -/
def Obligations.SetupChangesOnlyByItsCommands : Prop :=
  ∀ (s t : State) (j : Nat), s.Inv → step s = .next t →
    t.cfg = s.cfg ∧
    ((t.inst j).size ≠ (s.inst j).size → s.nextAction = some .hwReset ∨ s.completesNext j .x .init) ∧
    ((t.inst j).base ≠ (s.inst j).base →
      s.nextAction = some .hwReset ∨ s.completesNext j .x .init ∨ s.completesNext j .x .deinit) ∧
    ((t.inst j).evtEn ≠ (s.inst j).evtEn →
      s.nextAction = some .hwReset ∨ s.completesNext j .x .init ∨ s.completesNext j .x .setEvt) ∧
    ((t.inst j).tag ≠ (s.inst j).tag → s.nextAction = some .hwReset ∨ s.completesNext j .x .setTag)

/-- The true cursors move only in COMPLETE steps of their own instance's ports, in a `MOVE` that names the instance, or at hardware
reset: a W-port step never moves the read cursor and an R-port step never moves the write cursor (R25, R66, R77). -/
def Obligations.CursorsMoveOnlyInTheirDomain : Prop :=
  ∀ (s t : State) (j : Nat), s.Inv → step s = .next t →
    ((t.inst j).w ≠ (s.inst j).w →
      s.nextAction = some .hwReset ∨ s.nextAction = some (.complete j .w) ∨ s.nextAction = some (.complete j .x)) ∧
    ((t.inst j).r ≠ (s.inst j).r →
      s.nextAction = some .hwReset ∨ s.nextAction = some (.complete j .r) ∨ s.nextAction = some (.complete j .x) ∨
      ∃ i, s.completesNext i .x (.move j))
end

