-- ==== Sys2Proof/Laws/Memory.lean ====
section
/-! SUPPORT. The laws of shared memory (R13, R60): a read after a write, the canonical form, and byte runs. -/

namespace Sys2Proof.Machine.Memory

theorem read_lt (m : Memory) (a : Nat) (h : ∀ c ∈ m, a < c.1) : Memory.read m a = Memory.fill := by
  induction m with
  | nil => rfl
  | cons c m ih =>
    have hc : c.1 ≠ a := by have := h c (by simp); omega
    simp only [Memory.read, hc, if_false]
    exact ih fun d hd => h d (by simp [hd])

/-- Every entry of a written memory is an old entry or the byte written. -/
theorem mem_write {m : Memory} {a : Nat} {b : Byte} {c : Host.Cell} (h : c ∈ Memory.write m a b) : c ∈ m ∨ c = (a, b) := by
  induction m with
  | nil =>
    simp only [Memory.write] at h
    split at h <;> simp_all
  | cons d m ih =>
    obtain ⟨k, v⟩ := d
    simp only [Memory.write] at h
    split at h
    · split at h <;> (simp_all; try tauto)
    · split at h
      · split at h <;> (simp_all; try tauto)
      · rcases List.mem_cons.mp h with h | h
        · simp [h]
        · rcases ih h with h | h <;> simp [h]

/-- A write keeps the canonical form. -/
theorem wf_write {m : Memory} (a : Nat) (b : Byte) (h : Memory.wf m) : Memory.wf (Memory.write m a b) := by
  induction m with
  | nil =>
    simp only [Memory.write]
    split
    · exact h
    · exact ⟨by simp, by simpa using ‹_›⟩
  | cons d m ih =>
    obtain ⟨k, v⟩ := d
    obtain ⟨hs, hf⟩ := h
    rw [List.pairwise_cons] at hs
    have htail : Memory.wf m := ⟨hs.2, fun c hc => hf c (by simp [hc])⟩
    have hall : Memory.wf ((k, v) :: m) := ⟨List.pairwise_cons.mpr hs, hf⟩
    simp only [Memory.write]
    split
    · rename_i hak
      split
      · exact hall
      · rename_i hb
        refine ⟨List.pairwise_cons.mpr ⟨?_, hall.1⟩, ?_⟩
        · intro c hc
          rcases List.mem_cons.mp hc with rfl | hc
          · exact hak
          · exact Nat.lt_trans hak (hs.1 c hc)
        · intro c hc
          rcases List.mem_cons.mp hc with rfl | hc
          · exact hb
          · exact hf c hc
    · split
      · rename_i hk
        split
        · exact htail
        · rename_i hb
          refine ⟨List.pairwise_cons.mpr ⟨fun c hc => ?_, hs.2⟩, ?_⟩
          · have := hs.1 c hc; simp only at this ⊢; omega
          · intro c hc
            rcases List.mem_cons.mp hc with rfl | hc
            · exact hb
            · exact hf c (by simp [hc])
      · rename_i h1 h2
        have ih := ih htail
        refine ⟨List.pairwise_cons.mpr ⟨fun c hc => ?_, ih.1⟩, ?_⟩
        · rcases mem_write hc with hc | rfl
          · exact hs.1 c hc
          · simp only; omega
        · intro c hc
          rcases List.mem_cons.mp hc with rfl | hc
          · exact hf _ (by simp)
          · exact ih.2 c hc

/-- A read after a write (R60): the byte written at its address, the old byte at every other. -/
theorem read_write {m : Memory} (h : Memory.wf m) (a : Nat) (b : Byte) (x : Nat) :
    Memory.read (Memory.write m a b) x = if x = a then b else Memory.read m x := by
  induction m with
  | nil =>
    simp only [Memory.write]
    split
    · rename_i hb; split <;> simp [Memory.read, hb]
    · simp only [Memory.read, eq_comm]
  | cons d m ih =>
    obtain ⟨k, v⟩ := d
    obtain ⟨hs, hf⟩ := h
    rw [List.pairwise_cons] at hs
    have htail : Memory.wf m := ⟨hs.2, fun c hc => hf c (by simp [hc])⟩
    have hrise : ∀ y, y ≤ k → Memory.read m y = Memory.fill := fun y hy =>
      read_lt m y fun c hc => Nat.lt_of_le_of_lt hy (hs.1 c hc)
    simp only [Memory.write]
    split
    · rename_i hak
      split
      · rename_i hb
        by_cases hx : x = a
        · subst hx
          have hkx : k ≠ x := by omega
          simp [Memory.read, hkx, hrise x (by omega), hb]
        · simp [hx]
      · by_cases hx : x = a
        · simp [Memory.read, hx]
        · have : a ≠ x := fun e => hx e.symm
          simp [Memory.read, hx, this]
    · split
      · rename_i hk
        subst hk
        split
        · rename_i hb
          by_cases hx : x = a
          · subst hx; simp [hrise x (Nat.le_refl _), hb]
          · have : a ≠ x := fun e => hx e.symm
            simp [Memory.read, hx, this]
        · by_cases hx : x = a
          · simp [Memory.read, hx]
          · have : a ≠ x := fun e => hx e.symm
            simp [Memory.read, hx, this]
      · rename_i h1 h2
        simp only [Memory.read, ih htail]
        by_cases hk : k = x
        · subst hk
          have : k ≠ a := fun e => h2 e.symm
          simp [this]
        · simp [hk]

theorem length_readBytes (m : Memory) (a n : Nat) : (Memory.readBytes m a n).length = n := by
  induction n generalizing a with
  | zero => rfl
  | succ n ih => simp [Memory.readBytes, ih]

/-- Byte `j` of a run read is the byte at `a + j` (R13). -/
theorem getElem_readBytes (m : Memory) (a n j : Nat) (h : j < (Memory.readBytes m a n).length) :
    (Memory.readBytes m a n)[j] = Memory.read m (a + j) := by
  induction n generalizing a j with
  | zero => simp [Memory.readBytes] at h
  | succ n ih =>
    cases j with
    | zero => simp [Memory.readBytes]
    | succ j =>
      simp only [Memory.readBytes, List.getElem_cons_succ]
      rw [ih]; congr 1; omega

theorem wf_writeBytes {m : Memory} (a : Nat) (v : List Byte) (h : Memory.wf m) : Memory.wf (Memory.writeBytes m a v) := by
  induction v generalizing m a with
  | nil => exact h
  | cons b v ih => exact ih _ (wf_write a b h)

/-- Every entry of a memory after a run of writes is an old entry or an address of the run. -/
theorem mem_writeBytes {m : Memory} {a : Nat} {v : List Byte} {c : Host.Cell} (h : c ∈ Memory.writeBytes m a v) :
    c ∈ m ∨ (a ≤ c.1 ∧ c.1 < a + v.length) := by
  induction v generalizing m a with
  | nil => exact .inl h
  | cons b v ih =>
    rcases ih h with h | h
    · rcases mem_write h with h | rfl
      · exact .inl h
      · right; simp
    · right; simp only [List.length_cons]; omega

/-- A read after a run of writes: byte `j` of the run at `a + j`, the old byte outside the run (R13). -/
theorem read_writeBytes {m : Memory} (h : Memory.wf m) (a : Nat) (v : List Byte) (x : Nat) :
    Memory.read (Memory.writeBytes m a v) x =
      if a ≤ x ∧ x < a + v.length then v.getD (x - a) Memory.fill else Memory.read m x := by
  induction v generalizing m a with
  | nil => simp [Memory.writeBytes]
  | cons b v ih =>
    rw [Memory.writeBytes, ih (wf_write a b h), read_write h]
    simp only [List.length_cons]
    by_cases hx : x = a
    · subst hx
      simp
    · by_cases h1 : a + 1 ≤ x ∧ x < a + 1 + v.length
      · have h2 : a ≤ x ∧ x < a + (v.length + 1) := by omega
        have h3 : x - a = (x - (a + 1)) + 1 := by omega
        simp only [h1, h2, h3, and_self, if_true, List.getD_cons_succ]
      · have h2 : ¬ (a ≤ x ∧ x < a + (v.length + 1)) := by omega
        rw [if_neg h1, if_neg h2, if_neg hx]

theorem read_writeBytes_out {m : Memory} (h : Memory.wf m) (a : Nat) (v : List Byte) (x : Nat)
    (hx : x < a ∨ a + v.length ≤ x) : Memory.read (Memory.writeBytes m a v) x = Memory.read m x := by
  rw [read_writeBytes h, if_neg (by omega)]

end Sys2Proof.Machine.Memory
end

