-- ==== Sys2Proof/Laws/Ring.lean ====
section
/-! SUPPORT. Ring arithmetic (R11): distances around a ring of `S` slots, and the flag logic as distances (R150, R151). -/

namespace Sys2Proof.Machine

/-- A distance without a remainder, for positions inside the ring. -/
theorem dist_eq {S a b : Nat} (ha : a < S) (hb : b < S) : dist S a b = if a ≤ b then b - a else S - (a - b) := by
  unfold dist
  split
  · have : b + S - a = (b - a) + S := by omega
    rw [this, Nat.add_mod_right, Nat.mod_eq_of_lt (by omega)]
  · rw [Nat.mod_eq_of_lt (by omega)]; omega

theorem dist_lt {S a b : Nat} (h : 0 < S) : dist S a b < S := Nat.mod_lt _ h

@[simp] theorem dist_self {S a : Nat} (ha : a < S) : dist S a a = 0 := by simp [dist_eq ha ha]

theorem dist_eq_zero {S a b : Nat} (ha : a < S) (hb : b < S) : dist S a b = 0 ↔ a = b := by
  rw [dist_eq ha hb]; split <;> omega

theorem wrap_eq_mod {S x : Nat} (h : x < 2 * S) : wrap S x = x % S := by
  unfold wrap
  split
  · rw [Nat.mod_eq_sub_mod ‹_›, Nat.mod_eq_of_lt (by omega)]
  · rw [Nat.mod_eq_of_lt (by omega)]

theorem wrap_lt {S x : Nat} (h : x < 2 * S) : wrap S x < S := by
  unfold wrap; split <;> omega

theorem add_mod_ring {S a m : Nat} (ha : a < S) (hm : m < S) : (a + m) % S = if a + m < S then a + m else a + m - S := by
  split
  · exact Nat.mod_eq_of_lt ‹_›
  · rw [Nat.mod_eq_sub_mod (by omega), Nat.mod_eq_of_lt (by omega)]

/-- The occupancy of a ready instance is the distance from the read to the write position (R150). -/
theorem Inst.occ_eq_dist {I : Inst} {rd wr : Nat} (h : I.ready = true) (hr : rd < I.size) (hw : wr < I.size) :
    I.occ rd wr = dist I.size rd wr := by
  rw [dist_eq hr hw]; simp [Inst.occ, h]

/-- The free space of a ready instance (R151). -/
theorem Inst.free_eq_dist {I : Inst} {rd wr : Nat} (h : I.ready = true) (hr : rd < I.size) (hw : wr < I.size) :
    I.free rd wr = I.size - 1 - dist I.size rd wr := by
  simp only [Inst.free, h, Inst.occ_eq_dist h hr hw]; simp; omega

theorem Inst.ready_iff {I : Inst} : I.ready = true ↔ I.base ≠ 0 ∧ I.size ≠ 0 := by simp [Inst.ready]

theorem Inst.size_pos {I : Inst} (h : I.ready = true) : 0 < I.size := by
  have := Inst.ready_iff.mp h; omega

end Sys2Proof.Machine
end

