-- ==== Sys2Proof/Laws/State.lean ====
section
/-! SUPPORT. The small lemmas of the state's updates: what each leaves of every field, so that no proof unfolds a record
update. -/

namespace Sys2Proof.Machine

/-! ### State updates -/

@[simp] theorem State.setInst_cfg (s : State) (j : Nat) (I : Inst) : (s.setInst j I).cfg = s.cfg := rfl
@[simp] theorem State.setInst_mem (s : State) (j : Nat) (I : Inst) : (s.setInst j I).mem = s.mem := rfl
@[simp] theorem State.setInst_faults (s : State) (j : Nat) (I : Inst) : (s.setInst j I).faults = s.faults := rfl
@[simp] theorem State.setInst_site (s : State) (j : Nat) (I : Inst) : (s.setInst j I).site = s.site := rfl
@[simp] theorem State.setInst_sched (s : State) (j : Nat) (I : Inst) : (s.setInst j I).sched = s.sched := rfl
@[simp] theorem State.setInst_rdata (s : State) (j : Nat) (I : Inst) : (s.setInst j I).rdata = s.rdata := rfl
@[simp] theorem State.setInst_draws (s : State) (j : Nat) (I : Inst) : (s.setInst j I).draws = s.draws := rfl

@[simp] theorem State.modInst_cfg (s : State) (j : Nat) (f : Inst → Inst) : (s.modInst j f).cfg = s.cfg := rfl
@[simp] theorem State.modInst_mem (s : State) (j : Nat) (f : Inst → Inst) : (s.modInst j f).mem = s.mem := rfl
@[simp] theorem State.modInst_faults (s : State) (j : Nat) (f : Inst → Inst) : (s.modInst j f).faults = s.faults := rfl
@[simp] theorem State.modInst_site (s : State) (j : Nat) (f : Inst → Inst) : (s.modInst j f).site = s.site := rfl
@[simp] theorem State.modInst_sched (s : State) (j : Nat) (f : Inst → Inst) : (s.modInst j f).sched = s.sched := rfl
@[simp] theorem State.modInst_rdata (s : State) (j : Nat) (f : Inst → Inst) : (s.modInst j f).rdata = s.rdata := rfl
@[simp] theorem State.modInst_draws (s : State) (j : Nat) (f : Inst → Inst) : (s.modInst j f).draws = s.draws := rfl

@[simp] theorem State.modPort_cfg (s : State) (f : PortState → PortState) : (s.modPort f).cfg = s.cfg := rfl
@[simp] theorem State.modPort_mem (s : State) (f : PortState → PortState) : (s.modPort f).mem = s.mem := rfl
@[simp] theorem State.modPort_faults (s : State) (f : PortState → PortState) : (s.modPort f).faults = s.faults := rfl
@[simp] theorem State.modPort_site (s : State) (f : PortState → PortState) : (s.modPort f).site = s.site := rfl
@[simp] theorem State.modPort_sched (s : State) (f : PortState → PortState) : (s.modPort f).sched = s.sched := rfl
@[simp] theorem State.modPort_rdata (s : State) (f : PortState → PortState) : (s.modPort f).rdata = s.rdata := rfl
@[simp] theorem State.modPort_draws (s : State) (f : PortState → PortState) : (s.modPort f).draws = s.draws := rfl

@[simp] theorem State.setRes0_cfg (s : State) (v : Nat) : (s.setRes0 v).cfg = s.cfg := rfl
@[simp] theorem State.setRes0_mem (s : State) (v : Nat) : (s.setRes0 v).mem = s.mem := rfl
@[simp] theorem State.setRes0_faults (s : State) (v : Nat) : (s.setRes0 v).faults = s.faults := rfl
@[simp] theorem State.setRes0_site (s : State) (v : Nat) : (s.setRes0 v).site = s.site := rfl
@[simp] theorem State.setRes0_sched (s : State) (v : Nat) : (s.setRes0 v).sched = s.sched := rfl
@[simp] theorem State.setRes0_rdata (s : State) (v : Nat) : (s.setRes0 v).rdata = s.rdata := rfl
@[simp] theorem State.setRes0_draws (s : State) (v : Nat) : (s.setRes0 v).draws = s.draws := rfl

@[simp] theorem State.setRes1_cfg (s : State) (v : Nat) : (s.setRes1 v).cfg = s.cfg := rfl
@[simp] theorem State.setRes1_mem (s : State) (v : Nat) : (s.setRes1 v).mem = s.mem := rfl
@[simp] theorem State.setRes1_faults (s : State) (v : Nat) : (s.setRes1 v).faults = s.faults := rfl
@[simp] theorem State.setRes1_site (s : State) (v : Nat) : (s.setRes1 v).site = s.site := rfl
@[simp] theorem State.setRes1_sched (s : State) (v : Nat) : (s.setRes1 v).sched = s.sched := rfl
@[simp] theorem State.setRes1_rdata (s : State) (v : Nat) : (s.setRes1 v).rdata = s.rdata := rfl
@[simp] theorem State.setRes1_draws (s : State) (v : Nat) : (s.setRes1 v).draws = s.draws := rfl

@[simp] theorem State.commitW_cfg (s : State) (j wr m : Nat) : (s.commitW j wr m).cfg = s.cfg := rfl
@[simp] theorem State.commitW_mem (s : State) (j wr m : Nat) : (s.commitW j wr m).mem = s.mem := rfl
@[simp] theorem State.commitW_faults (s : State) (j wr m : Nat) : (s.commitW j wr m).faults = s.faults := rfl
@[simp] theorem State.commitW_site (s : State) (j wr m : Nat) : (s.commitW j wr m).site = s.site := rfl
@[simp] theorem State.commitW_sched (s : State) (j wr m : Nat) : (s.commitW j wr m).sched = s.sched := rfl
@[simp] theorem State.commitW_rdata (s : State) (j wr m : Nat) : (s.commitW j wr m).rdata = s.rdata := rfl
@[simp] theorem State.commitW_draws (s : State) (j wr m : Nat) : (s.commitW j wr m).draws = s.draws := rfl

@[simp] theorem State.commitR_cfg (s : State) (j rd m : Nat) : (s.commitR j rd m).cfg = s.cfg := rfl
@[simp] theorem State.commitR_mem (s : State) (j rd m : Nat) : (s.commitR j rd m).mem = s.mem := rfl
@[simp] theorem State.commitR_faults (s : State) (j rd m : Nat) : (s.commitR j rd m).faults = s.faults := rfl
@[simp] theorem State.commitR_site (s : State) (j rd m : Nat) : (s.commitR j rd m).site = s.site := rfl
@[simp] theorem State.commitR_sched (s : State) (j rd m : Nat) : (s.commitR j rd m).sched = s.sched := rfl
@[simp] theorem State.commitR_rdata (s : State) (j rd m : Nat) : (s.commitR j rd m).rdata = s.rdata := rfl
@[simp] theorem State.commitR_draws (s : State) (j rd m : Nat) : (s.commitR j rd m).draws = s.draws := rfl

@[simp] theorem State.updPort_cfg (s : State) (i : Nat) (p : Port) (f : PortState → PortState) : (s.updPort i p f).cfg = s.cfg := rfl
@[simp] theorem State.updPort_mem (s : State) (i : Nat) (p : Port) (f : PortState → PortState) : (s.updPort i p f).mem = s.mem := rfl
@[simp] theorem State.updPort_faults (s : State) (i : Nat) (p : Port) (f : PortState → PortState) : (s.updPort i p f).faults = s.faults := rfl
@[simp] theorem State.updPort_site (s : State) (i : Nat) (p : Port) (f : PortState → PortState) : (s.updPort i p f).site = s.site := rfl
@[simp] theorem State.updPort_sched (s : State) (i : Nat) (p : Port) (f : PortState → PortState) : (s.updPort i p f).sched = s.sched := rfl
@[simp] theorem State.updPort_rdata (s : State) (i : Nat) (p : Port) (f : PortState → PortState) : (s.updPort i p f).rdata = s.rdata := rfl
@[simp] theorem State.updPort_draws (s : State) (i : Nat) (p : Port) (f : PortState → PortState) : (s.updPort i p f).draws = s.draws := rfl

@[simp] theorem State.raise_cfg (s : State) (f : Fault) : (s.raise f).cfg = s.cfg := by unfold State.raise; split <;> rfl
@[simp] theorem State.raise_insts (s : State) (f : Fault) : (s.raise f).insts = s.insts := by unfold State.raise; split <;> rfl
@[simp] theorem State.raise_mem (s : State) (f : Fault) : (s.raise f).mem = s.mem := by unfold State.raise; split <;> rfl
@[simp] theorem State.raise_site (s : State) (f : Fault) : (s.raise f).site = s.site := by unfold State.raise; split <;> rfl
@[simp] theorem State.raise_sched (s : State) (f : Fault) : (s.raise f).sched = s.sched := by unfold State.raise; split <;> rfl
@[simp] theorem State.raise_rdata (s : State) (f : Fault) : (s.raise f).rdata = s.rdata := by unfold State.raise; split <;> rfl
@[simp] theorem State.raise_draws (s : State) (f : Fault) : (s.raise f).draws = s.draws := by unfold State.raise; split <;> rfl

@[simp] theorem State.setInst_length (s : State) (j : Nat) (I : Inst) :
    (s.setInst j I).insts.length = s.insts.length := by simp [State.setInst]
@[simp] theorem State.modInst_length (s : State) (j : Nat) (f : Inst → Inst) :
    (s.modInst j f).insts.length = s.insts.length := by simp [State.modInst]
@[simp] theorem State.modPort_length (s : State) (f : PortState → PortState) :
    (s.modPort f).insts.length = s.insts.length := by simp [State.modPort]
@[simp] theorem State.setRes0_length (s : State) (v : Nat) : (s.setRes0 v).insts.length = s.insts.length := by
  simp [State.setRes0]
@[simp] theorem State.setRes1_length (s : State) (v : Nat) : (s.setRes1 v).insts.length = s.insts.length := by
  simp [State.setRes1]
@[simp] theorem State.commitW_length (s : State) (j wr m : Nat) : (s.commitW j wr m).insts.length = s.insts.length := by
  simp [State.commitW]
@[simp] theorem State.commitR_length (s : State) (j rd m : Nat) : (s.commitR j rd m).insts.length = s.insts.length := by
  simp [State.commitR]
@[simp] theorem State.updPort_length (s : State) (i : Nat) (p : Port) (f : PortState → PortState) :
    (s.updPort i p f).insts.length = s.insts.length := by simp [State.updPort]

/-- A recorded fault stays (R277). -/
theorem State.mem_faults_raise (s : State) (f g : Fault) : g ∈ (s.raise f).faults ↔ g ∈ s.faults ∨ g = f := by
  unfold State.raise
  split
  · constructor
    · exact .inl
    · rintro (h | rfl) <;> assumption
  · simp

/-! ### Reading an instance back -/

theorem State.inst_of_lt (s : State) (j : Nat) (h : j < s.insts.length) : s.inst j = s.insts[j] := by
  simp [State.inst, h]

theorem State.inst_mem (s : State) (j : Nat) (h : j < s.insts.length) : s.inst j ∈ s.insts := by
  rw [s.inst_of_lt j h]; exact List.getElem_mem h

theorem State.inst_ge (s : State) (j : Nat) (h : s.insts.length ≤ j) : s.inst j = .reset s.cfg.syncStages := by
  simp [State.inst, List.getD, h]

theorem State.inst_setInst (s : State) (j : Nat) (I : Inst) (i : Nat) :
    (s.setInst j I).inst i = if i = j ∧ j < s.insts.length then I else s.inst i := by
  simp only [State.inst, State.setInst, List.getD_eq_getElem?_getD, List.getElem?_set]
  by_cases h : j = i
  · subst h
    by_cases hl : j < s.insts.length
    · simp [hl]
    · have : s.insts[j]? = none := by simp; omega
      simp [hl]
  · have h' : ¬ i = j := fun e => h e.symm
    simp [h, h']

theorem State.inst_modInst (s : State) (j : Nat) (f : Inst → Inst) (i : Nat) :
    (s.modInst j f).inst i = if i = j ∧ j < s.insts.length then f (s.inst j) else s.inst i :=
  s.inst_setInst j _ i

@[simp] theorem State.inst_modInst_ne (s : State) (j : Nat) (f : Inst → Inst) (i : Nat) (h : i ≠ j) :
    (s.modInst j f).inst i = s.inst i := by simp [s.inst_modInst, h]

theorem State.inst_modInst_same (s : State) (j : Nat) (f : Inst → Inst) (h : j < s.insts.length) :
    (s.modInst j f).inst j = f (s.inst j) := by simp [s.inst_modInst, h]

/-- Replacing memory leaves every instance. -/
@[simp] theorem State.inst_setMem (s : State) (m : Memory) (i : Nat) : State.inst { s with mem := m } i = s.inst i := rfl

/-- Reading an instance depends on the instances and the parameters only. -/
theorem State.inst_congr {s t : State} (hi : s.insts = t.insts) (hc : s.cfg = t.cfg) (j : Nat) : s.inst j = t.inst j := by
  simp [State.inst, hi, hc]

theorem State.mem_modInst (s : State) (j : Nat) (f : Inst → Inst) (I : Inst) (h : I ∈ (s.modInst j f).insts) :
    I ∈ s.insts ∨ (j < s.insts.length ∧ I = f (s.inst j)) := by
  by_cases hj : j < s.insts.length
  · rcases List.mem_or_eq_of_mem_set h with h | h
    · exact .inl h
    · exact .inr ⟨hj, h⟩
  · left
    have : (s.modInst j f).insts = s.insts := by
      simp [State.modInst, State.setInst, List.set_eq_of_length_le (Nat.le_of_not_lt hj)]
    rwa [this] at h

/-! ### Port updates of an instance -/

@[simp] theorem Inst.port_setPort_same (I : Inst) (p : Port) (q : PortState) : (I.setPort p q).port p = q := by
  cases p <;> rfl

@[simp] theorem Inst.port_setPort_ne (I : Inst) (p p' : Port) (q : PortState) (h : p' ≠ p) :
    (I.setPort p q).port p' = I.port p' := by
  cases p <;> cases p' <;> first | rfl | exact absurd rfl h

@[simp] theorem Inst.setPort_base (I : Inst) (p : Port) (q : PortState) : (I.setPort p q).base = I.base := by
  cases p <;> rfl
@[simp] theorem Inst.setPort_size (I : Inst) (p : Port) (q : PortState) : (I.setPort p q).size = I.size := by
  cases p <;> rfl
@[simp] theorem Inst.setPort_r (I : Inst) (p : Port) (q : PortState) : (I.setPort p q).r = I.r := by
  cases p <;> rfl
@[simp] theorem Inst.setPort_w (I : Inst) (p : Port) (q : PortState) : (I.setPort p q).w = I.w := by
  cases p <;> rfl
@[simp] theorem Inst.setPort_rv (I : Inst) (p : Port) (q : PortState) : (I.setPort p q).rv = I.rv := by
  cases p <;> rfl
@[simp] theorem Inst.setPort_wv (I : Inst) (p : Port) (q : PortState) : (I.setPort p q).wv = I.wv := by
  cases p <;> rfl
@[simp] theorem Inst.setPort_wcnt (I : Inst) (p : Port) (q : PortState) : (I.setPort p q).wcnt = I.wcnt := by
  cases p <;> rfl
@[simp] theorem Inst.setPort_wpub (I : Inst) (p : Port) (q : PortState) : (I.setPort p q).wpub = I.wpub := by
  cases p <;> rfl
@[simp] theorem Inst.setPort_wsync (I : Inst) (p : Port) (q : PortState) : (I.setPort p q).wsync = I.wsync := by
  cases p <;> rfl
@[simp] theorem Inst.setPort_rcnt (I : Inst) (p : Port) (q : PortState) : (I.setPort p q).rcnt = I.rcnt := by
  cases p <;> rfl
@[simp] theorem Inst.setPort_rpub (I : Inst) (p : Port) (q : PortState) : (I.setPort p q).rpub = I.rpub := by
  cases p <;> rfl
@[simp] theorem Inst.setPort_rsync (I : Inst) (p : Port) (q : PortState) : (I.setPort p q).rsync = I.rsync := by
  cases p <;> rfl
@[simp] theorem Inst.setPort_evtEn (I : Inst) (p : Port) (q : PortState) : (I.setPort p q).evtEn = I.evtEn := by
  cases p <;> rfl
@[simp] theorem Inst.setPort_tag (I : Inst) (p : Port) (q : PortState) : (I.setPort p q).tag = I.tag := by
  cases p <;> rfl
@[simp] theorem Inst.setPort_events (I : Inst) (p : Port) (q : PortState) : (I.setPort p q).events = I.events := by
  cases p <;> rfl

@[simp] theorem Inst.setPort_ready (I : Inst) (p : Port) (q : PortState) : (I.setPort p q).ready = I.ready := by
  simp [Inst.ready]

/-! ### Events and commits of an instance -/

@[simp] theorem Inst.emit_base (I : Inst) (p : Port) (k : EvtKind) (n : Nat) : (I.emit p k n).base = I.base := by
  unfold Inst.emit; split <;> rfl
@[simp] theorem Inst.emit_size (I : Inst) (p : Port) (k : EvtKind) (n : Nat) : (I.emit p k n).size = I.size := by
  unfold Inst.emit; split <;> rfl
@[simp] theorem Inst.emit_r (I : Inst) (p : Port) (k : EvtKind) (n : Nat) : (I.emit p k n).r = I.r := by
  unfold Inst.emit; split <;> rfl
@[simp] theorem Inst.emit_w (I : Inst) (p : Port) (k : EvtKind) (n : Nat) : (I.emit p k n).w = I.w := by
  unfold Inst.emit; split <;> rfl
@[simp] theorem Inst.emit_rv (I : Inst) (p : Port) (k : EvtKind) (n : Nat) : (I.emit p k n).rv = I.rv := by
  unfold Inst.emit; split <;> rfl
@[simp] theorem Inst.emit_wv (I : Inst) (p : Port) (k : EvtKind) (n : Nat) : (I.emit p k n).wv = I.wv := by
  unfold Inst.emit; split <;> rfl
@[simp] theorem Inst.emit_wcnt (I : Inst) (p : Port) (k : EvtKind) (n : Nat) : (I.emit p k n).wcnt = I.wcnt := by
  unfold Inst.emit; split <;> rfl
@[simp] theorem Inst.emit_wpub (I : Inst) (p : Port) (k : EvtKind) (n : Nat) : (I.emit p k n).wpub = I.wpub := by
  unfold Inst.emit; split <;> rfl
@[simp] theorem Inst.emit_wsync (I : Inst) (p : Port) (k : EvtKind) (n : Nat) : (I.emit p k n).wsync = I.wsync := by
  unfold Inst.emit; split <;> rfl
@[simp] theorem Inst.emit_rcnt (I : Inst) (p : Port) (k : EvtKind) (n : Nat) : (I.emit p k n).rcnt = I.rcnt := by
  unfold Inst.emit; split <;> rfl
@[simp] theorem Inst.emit_rpub (I : Inst) (p : Port) (k : EvtKind) (n : Nat) : (I.emit p k n).rpub = I.rpub := by
  unfold Inst.emit; split <;> rfl
@[simp] theorem Inst.emit_rsync (I : Inst) (p : Port) (k : EvtKind) (n : Nat) : (I.emit p k n).rsync = I.rsync := by
  unfold Inst.emit; split <;> rfl
@[simp] theorem Inst.emit_evtEn (I : Inst) (p : Port) (k : EvtKind) (n : Nat) : (I.emit p k n).evtEn = I.evtEn := by
  unfold Inst.emit; split <;> rfl
@[simp] theorem Inst.emit_tag (I : Inst) (p : Port) (k : EvtKind) (n : Nat) : (I.emit p k n).tag = I.tag := by
  unfold Inst.emit; split <;> rfl
@[simp] theorem Inst.emit_port (I : Inst) (p : Port) (k : EvtKind) (n : Nat) (q : Port) :
    (I.emit p k n).port q = I.port q := by
  unfold Inst.emit; split <;> cases q <;> rfl
@[simp] theorem Inst.emit_ready (I : Inst) (p : Port) (k : EvtKind) (n : Nat) : (I.emit p k n).ready = I.ready := by
  simp [Inst.ready]

/-- What `emit` does to the history (R14, R280). -/
theorem Inst.emit_events (I : Inst) (p : Port) (k : EvtKind) (n : Nat) :
    (I.emit p k n).events = if I.evtEn then I.events ++ [⟨p, k, n⟩] else I.events := by
  unfold Inst.emit; split <;> rfl

@[simp] theorem Inst.commitW_base (c : Config) (I : Inst) (p : Port) (x m : Nat) :
    (I.commitW c p x m).base = I.base := by
  unfold Inst.commitW; split <;> simp
@[simp] theorem Inst.commitW_size (c : Config) (I : Inst) (p : Port) (x m : Nat) :
    (I.commitW c p x m).size = I.size := by
  unfold Inst.commitW; split <;> simp
@[simp] theorem Inst.commitW_r (c : Config) (I : Inst) (p : Port) (x m : Nat) :
    (I.commitW c p x m).r = I.r := by
  unfold Inst.commitW; split <;> simp
@[simp] theorem Inst.commitW_rv (c : Config) (I : Inst) (p : Port) (x m : Nat) :
    (I.commitW c p x m).rv = I.rv := by
  unfold Inst.commitW; split <;> simp
@[simp] theorem Inst.commitW_wv (c : Config) (I : Inst) (p : Port) (x m : Nat) :
    (I.commitW c p x m).wv = I.wv := by
  unfold Inst.commitW; split <;> simp
@[simp] theorem Inst.commitW_wpub (c : Config) (I : Inst) (p : Port) (x m : Nat) :
    (I.commitW c p x m).wpub = I.wpub := by
  unfold Inst.commitW; split <;> simp
@[simp] theorem Inst.commitW_wsync (c : Config) (I : Inst) (p : Port) (x m : Nat) :
    (I.commitW c p x m).wsync = I.wsync := by
  unfold Inst.commitW; split <;> simp
@[simp] theorem Inst.commitW_rcnt (c : Config) (I : Inst) (p : Port) (x m : Nat) :
    (I.commitW c p x m).rcnt = I.rcnt := by
  unfold Inst.commitW; split <;> simp
@[simp] theorem Inst.commitW_rpub (c : Config) (I : Inst) (p : Port) (x m : Nat) :
    (I.commitW c p x m).rpub = I.rpub := by
  unfold Inst.commitW; split <;> simp
@[simp] theorem Inst.commitW_rsync (c : Config) (I : Inst) (p : Port) (x m : Nat) :
    (I.commitW c p x m).rsync = I.rsync := by
  unfold Inst.commitW; split <;> simp
@[simp] theorem Inst.commitW_evtEn (c : Config) (I : Inst) (p : Port) (x m : Nat) :
    (I.commitW c p x m).evtEn = I.evtEn := by
  unfold Inst.commitW; split <;> simp
@[simp] theorem Inst.commitW_tag (c : Config) (I : Inst) (p : Port) (x m : Nat) :
    (I.commitW c p x m).tag = I.tag := by
  unfold Inst.commitW; split <;> simp
@[simp] theorem Inst.commitW_port (c : Config) (I : Inst) (p : Port) (x m : Nat) (q : Port) :
    (I.commitW c p x m).port q = I.port q := by
  unfold Inst.commitW
  split
  · cases q <;> rfl
  · rw [Inst.emit_port]; cases q <;> rfl
@[simp] theorem Inst.commitW_ready (c : Config) (I : Inst) (p : Port) (x m : Nat) :
    (I.commitW c p x m).ready = I.ready := by simp [Inst.ready]
@[simp] theorem Inst.commitW_w (c : Config) (I : Inst) (p : Port) (x m : Nat) :
    (I.commitW c p x m).w = wrap I.size (x + m) := by
  unfold Inst.commitW; split <;> simp
@[simp] theorem Inst.commitW_wcnt (c : Config) (I : Inst) (p : Port) (x m : Nat) :
    (I.commitW c p x m).wcnt = bumpCount c I.wcnt m := by
  unfold Inst.commitW; split <;> simp
theorem Inst.commitW_events (c : Config) (I : Inst) (p : Port) (x m : Nat) :
    (I.commitW c p x m).events =
      if m ≠ 0 ∧ I.evtEn = true then I.events ++ [⟨p, .write, m⟩] else I.events := by
  unfold Inst.commitW
  by_cases hm : m = 0 <;> simp [hm, Inst.emit_events]

@[simp] theorem Inst.commitR_base (c : Config) (I : Inst) (p : Port) (x m : Nat) :
    (I.commitR c p x m).base = I.base := by
  unfold Inst.commitR; split <;> simp
@[simp] theorem Inst.commitR_size (c : Config) (I : Inst) (p : Port) (x m : Nat) :
    (I.commitR c p x m).size = I.size := by
  unfold Inst.commitR; split <;> simp
@[simp] theorem Inst.commitR_w (c : Config) (I : Inst) (p : Port) (x m : Nat) :
    (I.commitR c p x m).w = I.w := by
  unfold Inst.commitR; split <;> simp
@[simp] theorem Inst.commitR_rv (c : Config) (I : Inst) (p : Port) (x m : Nat) :
    (I.commitR c p x m).rv = I.rv := by
  unfold Inst.commitR; split <;> simp
@[simp] theorem Inst.commitR_wv (c : Config) (I : Inst) (p : Port) (x m : Nat) :
    (I.commitR c p x m).wv = I.wv := by
  unfold Inst.commitR; split <;> simp
@[simp] theorem Inst.commitR_wcnt (c : Config) (I : Inst) (p : Port) (x m : Nat) :
    (I.commitR c p x m).wcnt = I.wcnt := by
  unfold Inst.commitR; split <;> simp
@[simp] theorem Inst.commitR_wpub (c : Config) (I : Inst) (p : Port) (x m : Nat) :
    (I.commitR c p x m).wpub = I.wpub := by
  unfold Inst.commitR; split <;> simp
@[simp] theorem Inst.commitR_wsync (c : Config) (I : Inst) (p : Port) (x m : Nat) :
    (I.commitR c p x m).wsync = I.wsync := by
  unfold Inst.commitR; split <;> simp
@[simp] theorem Inst.commitR_rpub (c : Config) (I : Inst) (p : Port) (x m : Nat) :
    (I.commitR c p x m).rpub = I.rpub := by
  unfold Inst.commitR; split <;> simp
@[simp] theorem Inst.commitR_rsync (c : Config) (I : Inst) (p : Port) (x m : Nat) :
    (I.commitR c p x m).rsync = I.rsync := by
  unfold Inst.commitR; split <;> simp
@[simp] theorem Inst.commitR_evtEn (c : Config) (I : Inst) (p : Port) (x m : Nat) :
    (I.commitR c p x m).evtEn = I.evtEn := by
  unfold Inst.commitR; split <;> simp
@[simp] theorem Inst.commitR_tag (c : Config) (I : Inst) (p : Port) (x m : Nat) :
    (I.commitR c p x m).tag = I.tag := by
  unfold Inst.commitR; split <;> simp
@[simp] theorem Inst.commitR_port (c : Config) (I : Inst) (p : Port) (x m : Nat) (q : Port) :
    (I.commitR c p x m).port q = I.port q := by
  unfold Inst.commitR
  split
  · cases q <;> rfl
  · rw [Inst.emit_port]; cases q <;> rfl
@[simp] theorem Inst.commitR_ready (c : Config) (I : Inst) (p : Port) (x m : Nat) :
    (I.commitR c p x m).ready = I.ready := by simp [Inst.ready]
@[simp] theorem Inst.commitR_r (c : Config) (I : Inst) (p : Port) (x m : Nat) :
    (I.commitR c p x m).r = wrap I.size (x + m) := by
  unfold Inst.commitR; split <;> simp
@[simp] theorem Inst.commitR_rcnt (c : Config) (I : Inst) (p : Port) (x m : Nat) :
    (I.commitR c p x m).rcnt = bumpCount c I.rcnt m := by
  unfold Inst.commitR; split <;> simp
theorem Inst.commitR_events (c : Config) (I : Inst) (p : Port) (x m : Nat) :
    (I.commitR c p x m).events =
      if m ≠ 0 ∧ I.evtEn = true then I.events ++ [⟨p, .read, m⟩] else I.events := by
  unfold Inst.commitR
  by_cases hm : m = 0 <;> simp [hm, Inst.emit_events]

/-! ### The views at the end of a COMPLETE step -/

@[simp] theorem Inst.resync_base (I : Inst) : I.resync.base = I.base := rfl
@[simp] theorem Inst.resync_size (I : Inst) : I.resync.size = I.size := rfl
@[simp] theorem Inst.resync_r (I : Inst) : I.resync.r = I.r := rfl
@[simp] theorem Inst.resync_w (I : Inst) : I.resync.w = I.w := rfl
@[simp] theorem Inst.resync_wcnt (I : Inst) : I.resync.wcnt = I.wcnt := rfl
@[simp] theorem Inst.resync_rcnt (I : Inst) : I.resync.rcnt = I.rcnt := rfl
@[simp] theorem Inst.resync_evtEn (I : Inst) : I.resync.evtEn = I.evtEn := rfl
@[simp] theorem Inst.resync_tag (I : Inst) : I.resync.tag = I.tag := rfl
@[simp] theorem Inst.resync_events (I : Inst) : I.resync.events = I.events := rfl
@[simp] theorem Inst.resync_rv (I : Inst) : I.resync.rv = I.r := rfl
@[simp] theorem Inst.resync_wv (I : Inst) : I.resync.wv = I.w := rfl
@[simp] theorem Inst.resync_wpub (I : Inst) : I.resync.wpub = I.wcnt := rfl
@[simp] theorem Inst.resync_rpub (I : Inst) : I.resync.rpub = I.rcnt := rfl
@[simp] theorem Inst.resync_wsync (I : Inst) : I.resync.wsync = I.wsync.map fun _ => gray I.wcnt := rfl
@[simp] theorem Inst.resync_rsync (I : Inst) : I.resync.rsync = I.rsync.map fun _ => gray I.rcnt := rfl
@[simp] theorem Inst.resync_port (I : Inst) (q : Port) : I.resync.port q = I.port q := by cases q <;> rfl
@[simp] theorem Inst.resync_ready (I : Inst) : I.resync.ready = I.ready := rfl

@[simp] theorem Inst.resync_idem (I : Inst) : I.resync.resync = I.resync := by
  cases I; simp [Inst.resync]

theorem Inst.track_async (c : Config) (I : Inst) (h : c.cdc = .async) : I.track c = I := by simp [Inst.track, h]
theorem Inst.track_sync (c : Config) (I : Inst) (h : c.cdc = .sync) : I.track c = { I with rv := I.r, wv := I.w } := by
  simp [Inst.track, h]

@[simp] theorem Inst.track_base (c : Config) (I : Inst) : (I.track c).base = I.base := by
  unfold Inst.track; split <;> rfl
@[simp] theorem Inst.track_size (c : Config) (I : Inst) : (I.track c).size = I.size := by
  unfold Inst.track; split <;> rfl
@[simp] theorem Inst.track_r (c : Config) (I : Inst) : (I.track c).r = I.r := by
  unfold Inst.track; split <;> rfl
@[simp] theorem Inst.track_w (c : Config) (I : Inst) : (I.track c).w = I.w := by
  unfold Inst.track; split <;> rfl
@[simp] theorem Inst.track_wcnt (c : Config) (I : Inst) : (I.track c).wcnt = I.wcnt := by
  unfold Inst.track; split <;> rfl
@[simp] theorem Inst.track_wpub (c : Config) (I : Inst) : (I.track c).wpub = I.wpub := by
  unfold Inst.track; split <;> rfl
@[simp] theorem Inst.track_wsync (c : Config) (I : Inst) : (I.track c).wsync = I.wsync := by
  unfold Inst.track; split <;> rfl
@[simp] theorem Inst.track_rcnt (c : Config) (I : Inst) : (I.track c).rcnt = I.rcnt := by
  unfold Inst.track; split <;> rfl
@[simp] theorem Inst.track_rpub (c : Config) (I : Inst) : (I.track c).rpub = I.rpub := by
  unfold Inst.track; split <;> rfl
@[simp] theorem Inst.track_rsync (c : Config) (I : Inst) : (I.track c).rsync = I.rsync := by
  unfold Inst.track; split <;> rfl
@[simp] theorem Inst.track_evtEn (c : Config) (I : Inst) : (I.track c).evtEn = I.evtEn := by
  unfold Inst.track; split <;> rfl
@[simp] theorem Inst.track_tag (c : Config) (I : Inst) : (I.track c).tag = I.tag := by
  unfold Inst.track; split <;> rfl
@[simp] theorem Inst.track_events (c : Config) (I : Inst) : (I.track c).events = I.events := by
  unfold Inst.track; split <;> rfl
@[simp] theorem Inst.track_port (c : Config) (I : Inst) (q : Port) : (I.track c).port q = I.port q := by
  unfold Inst.track; split <;> cases q <;> rfl
@[simp] theorem Inst.track_ready (c : Config) (I : Inst) : (I.track c).ready = I.ready := by simp [Inst.ready]

/-- An X-port COMPLETE's resync of one more instance. -/
theorem State.foldl_resync_inst (js : List Nat) (s : State) (i : Nat) :
    (js.foldl (fun t j => t.modInst j Inst.resync) s).inst i =
      if i ∈ js ∧ i < s.insts.length then (s.inst i).resync else s.inst i := by
  induction js generalizing s with
  | nil => simp
  | cons j js ih =>
    simp only [List.foldl_cons, ih, State.modInst_length, State.inst_modInst, List.mem_cons]
    by_cases hi : i = j
    · subst hi
      by_cases hl : i < s.insts.length <;> by_cases hm : i ∈ js <;> simp [hl, hm]
    · simp [hi]

@[simp] theorem State.foldl_resync_cfg (js : List Nat) (s : State) :
    (js.foldl (fun t j => t.modInst j Inst.resync) s).cfg = s.cfg := by
  induction js generalizing s with
  | nil => rfl
  | cons j js ih => simp [ih]
@[simp] theorem State.foldl_resync_mem (js : List Nat) (s : State) :
    (js.foldl (fun t j => t.modInst j Inst.resync) s).mem = s.mem := by
  induction js generalizing s with
  | nil => rfl
  | cons j js ih => simp [ih]
@[simp] theorem State.foldl_resync_faults (js : List Nat) (s : State) :
    (js.foldl (fun t j => t.modInst j Inst.resync) s).faults = s.faults := by
  induction js generalizing s with
  | nil => rfl
  | cons j js ih => simp [ih]
@[simp] theorem State.foldl_resync_site (js : List Nat) (s : State) :
    (js.foldl (fun t j => t.modInst j Inst.resync) s).site = s.site := by
  induction js generalizing s with
  | nil => rfl
  | cons j js ih => simp [ih]
@[simp] theorem State.foldl_resync_sched (js : List Nat) (s : State) :
    (js.foldl (fun t j => t.modInst j Inst.resync) s).sched = s.sched := by
  induction js generalizing s with
  | nil => rfl
  | cons j js ih => simp [ih]
@[simp] theorem State.foldl_resync_rdata (js : List Nat) (s : State) :
    (js.foldl (fun t j => t.modInst j Inst.resync) s).rdata = s.rdata := by
  induction js generalizing s with
  | nil => rfl
  | cons j js ih => simp [ih]
@[simp] theorem State.foldl_resync_draws (js : List Nat) (s : State) :
    (js.foldl (fun t j => t.modInst j Inst.resync) s).draws = s.draws := by
  induction js generalizing s with
  | nil => rfl
  | cons j js ih => simp [ih]
@[simp] theorem State.foldl_resync_length (js : List Nat) (s : State) :
    (js.foldl (fun t j => t.modInst j Inst.resync) s).insts.length = s.insts.length := by
  induction js generalizing s with
  | nil => rfl
  | cons j js ih => simp [ih]

@[simp] theorem State.settleViews_cfg (s : State) (c : Instr) : (s.settleViews c).cfg = s.cfg := by
  unfold State.settleViews; split <;> simp
@[simp] theorem State.finish_cfg (s : State) (c : Instr) (code : Code) : (s.finish c code).cfg = s.cfg := by
  simp [State.finish]
@[simp] theorem State.settleViews_mem (s : State) (c : Instr) : (s.settleViews c).mem = s.mem := by
  unfold State.settleViews; split <;> simp
@[simp] theorem State.finish_mem (s : State) (c : Instr) (code : Code) : (s.finish c code).mem = s.mem := by
  simp [State.finish]
@[simp] theorem State.settleViews_faults (s : State) (c : Instr) : (s.settleViews c).faults = s.faults := by
  unfold State.settleViews; split <;> simp
@[simp] theorem State.finish_faults (s : State) (c : Instr) (code : Code) : (s.finish c code).faults = s.faults := by
  simp [State.finish]
@[simp] theorem State.settleViews_site (s : State) (c : Instr) : (s.settleViews c).site = s.site := by
  unfold State.settleViews; split <;> simp
@[simp] theorem State.finish_site (s : State) (c : Instr) (code : Code) : (s.finish c code).site = s.site := by
  simp [State.finish]
@[simp] theorem State.settleViews_sched (s : State) (c : Instr) : (s.settleViews c).sched = s.sched := by
  unfold State.settleViews; split <;> simp
@[simp] theorem State.finish_sched (s : State) (c : Instr) (code : Code) : (s.finish c code).sched = s.sched := by
  simp [State.finish]
@[simp] theorem State.settleViews_rdata (s : State) (c : Instr) : (s.settleViews c).rdata = s.rdata := by
  unfold State.settleViews; split <;> simp
@[simp] theorem State.finish_rdata (s : State) (c : Instr) (code : Code) : (s.finish c code).rdata = s.rdata := by
  simp [State.finish]
@[simp] theorem State.settleViews_draws (s : State) (c : Instr) : (s.settleViews c).draws = s.draws := by
  unfold State.settleViews; split <;> simp
@[simp] theorem State.finish_draws (s : State) (c : Instr) (code : Code) : (s.finish c code).draws = s.draws := by
  simp [State.finish]
/-- The running engine's instance at the end of a COMPLETE step, before its port is updated (R72, R73). -/
theorem State.here_settleViews (s : State) (c : Instr) (h : s.site.inst < s.insts.length) :
    (s.settleViews c).inst s.site.inst =
      if s.site.port = .x then s.here.resync else s.here.track s.cfg := by
  unfold State.settleViews State.here
  cases hp : s.site.port <;> simp [State.inst_modInst_same, h, State.foldl_resync_inst]
  cases c <;> simp [involved]

/-- Another instance at the end of a COMPLETE step (R72, R73). -/
theorem State.inst_settleViews_ne (s : State) (c : Instr) (j : Nat) (h : j ≠ s.site.inst) :
    (s.settleViews c).inst j =
      if s.site.port = .x ∧ j ∈ involved c s.site.inst ∧ j < s.insts.length then (s.inst j).resync else s.inst j := by
  unfold State.settleViews
  cases hp : s.site.port <;> simp [h, State.foldl_resync_inst]

@[simp] theorem State.settleViews_length (s : State) (c : Instr) : (s.settleViews c).insts.length = s.insts.length := by
  unfold State.settleViews; split <;> simp
@[simp] theorem State.finish_length (s : State) (c : Instr) (code : Code) :
    (s.finish c code).insts.length = s.insts.length := by simp [State.finish]

/-- The running engine's port and instance after a COMPLETE step (R72, R73). -/
theorem State.here_finish (s : State) (c : Instr) (code : Code) (h : s.site.inst < s.insts.length) :
    (s.finish c code).inst s.site.inst =
      (if s.site.port = .x then s.here.resync else s.here.track s.cfg).setPort s.site.port
        { s.herePort with code := code, busy := none } := by
  simp only [State.finish, State.modPort, State.settleViews_site]
  rw [State.inst_modInst_same _ _ _ (by simpa using h), State.here_settleViews s c h]
  split <;> simp [State.herePort]

/-- Another instance after a COMPLETE step (R72, R73). -/
theorem State.inst_finish_ne (s : State) (c : Instr) (code : Code) (j : Nat) (h : j ≠ s.site.inst) :
    (s.finish c code).inst j =
      if s.site.port = .x ∧ j ∈ involved c s.site.inst ∧ j < s.insts.length then (s.inst j).resync else s.inst j := by
  simp only [State.finish, State.modPort, State.settleViews_site]
  rw [State.inst_modInst_ne _ _ _ _ h, State.inst_settleViews_ne s c j h]

end Sys2Proof.Machine
end

