-- ==== Sys2Proof/Laws/Ops.lean ====
section
/-! SUPPORT. One lemma per shared operation that says all it can do: the COMPLETE step, the access checks, and the
two-segment copies. -/

namespace Sys2Proof.Machine

/-! ### The COMPLETE step -/

/-- Everything a COMPLETE step that answers a next state did (R72, R73). -/
theorem complete_next {i : Instr} {s t : State} {rule : Pending → Except Fault (State × Code)}
    (h : complete i s rule = .next t) :
    ∃ c u code, s.herePort.busy = some c ∧ i.legalOn s.site.port = true ∧
      (∀ j ∈ involved i s.site.inst, j < s.insts.length) ∧ rule c = .ok (u, code) ∧ t = u.finish i code := by
  unfold complete at h
  split at h
  · cases h
  · rename_i c hc
    split at h
    · cases h
    · rename_i hl
      split at h
      · cases h
      · rename_i hj
        split at h
        · cases h
        · rename_i u code hr
          cases h
          exact ⟨c, u, code, hc, by simpa using hl, by simpa using hj, hr, rfl⟩

/-- A COMPLETE step raises exactly the fault of its command's rule (R72). -/
theorem complete_fault {i : Instr} {s : State} {rule : Pending → Except Fault (State × Code)} {f : Fault}
    (h : complete i s rule = .fault f) : ∃ c, s.herePort.busy = some c ∧ rule c = .error f := by
  unfold complete at h
  split at h
  · cases h
  · rename_i c hc
    split at h
    · cases h
    · split at h
      · cases h
      · split at h
        · rename_i hr; cases h; exact ⟨c, hc, hr⟩
        · cases h

/-- A COMPLETE step whose command may run on its port, on instances that exist, answers what the command's rule gives. -/
theorem complete_eq {i : Instr} {s : State} {rule : Pending → Except Fault (State × Code)} {c : Pending}
    (hb : s.herePort.busy = some c) (hl : i.legalOn s.site.port = true)
    (hj : ∀ j ∈ involved i s.site.inst, j < s.insts.length) :
    complete i s rule = match rule c with
      | .error f => .fault f
      | .ok (u, code) => .next (u.finish i code) := by
  simp only [complete, hb, hl]
  exact (if_neg (by simp)).trans (if_neg (not_not.mpr hj))

theorem mem_involved_self (i : Instr) (j : Nat) : j ∈ involved i j := by cases i <;> simp [involved]

/-! ### Checks before any effect (R64, R65) -/

theorem rejects_eq_false {c : Config} {a n : Nat} :
    rejects c a n = false ↔ n = 0 ∨ (a + n ≤ 2 ^ c.regW ∧ memAdmits c a n = true) := by
  unfold rejects
  simp only [decide_eq_false_iff_not, not_and_or, not_or, not_lt, ne_eq, not_not, Bool.not_eq_false]

/-- Every platform predicate on the accesses of the address space is the predicate of some list of entries (R8). -/
theorem memAdmits_expresses (c : Config) (P : Nat → Nat → Bool) :
    ∃ l, ∀ a n, a + n ≤ 2 ^ c.regW → memAdmits { c with admits := l } a n = P a n := by
  generalize 2 ^ c.regW = N
  refine ⟨(List.range (N + 1)).flatMap fun a => ((List.range (N + 1)).filter (P a)).map (.exactly a), fun a n h => ?_⟩
  rw [Bool.eq_iff_iff]
  simp only [memAdmits, List.any_eq_true, List.mem_flatMap, List.mem_map, List.mem_filter, List.mem_range]
  constructor
  · rintro ⟨_, ⟨x, _, y, ⟨_, hp⟩, rfl⟩, hg⟩
    obtain ⟨rfl, rfl⟩ : a = x ∧ n = y := by simpa [grantCovers] using hg
    exact hp
  · exact fun hp => ⟨_, ⟨a, by omega, n, ⟨by omega, hp⟩, rfl⟩, by simp [grantCovers]⟩

theorem busFault_eq_none {s : State} {l : List (Nat × Nat)} :
    s.busFault l = none ↔ ∀ x ∈ l, rejects s.cfg x.1 x.2 = false := by
  simp [State.busFault, List.find?_eq_none]

/-- The fault of an access check is `F_BUS` with the first rejected access (R64, R276). -/
theorem busFault_eq_some {s : State} {l : List (Nat × Nat)} {f : Fault} (h : s.busFault l = some f) :
    ∃ x ∈ l, rejects s.cfg x.1 x.2 = true ∧ f = .bus s.site.inst s.site.port x.1 x.2 := by
  simp only [State.busFault, Option.map_eq_some_iff] at h
  obtain ⟨x, hx, rfl⟩ := h
  exact ⟨x, List.mem_of_find?_eq_some hx, by simpa using List.find?_some hx, rfl⟩

theorem meets_eq_false {a n b m : Nat} : meets a n b m = false ↔ n = 0 ∨ m = 0 ∨ b + m ≤ a ∨ a + n ≤ b := by
  unfold meets
  simp only [decide_eq_false_iff_not, ne_eq]
  omega

theorem meetsStorage_eq_false {s : State} {a n : Nat} :
    s.meetsStorage a n = false ↔ ∀ J ∈ s.insts, J.ready = true → meets a n J.base J.size = false := by
  simp [State.meetsStorage]

/-- A copy passes its checks iff every access is admitted and the operand range meets no ready storage (R64, R65, R278). -/
theorem copyFault_eq_none {s : State} {a m : Nat} {runs : List (Nat × Nat)} :
    s.copyFault a m runs = none ↔
      (∀ x ∈ (a, m) :: runs, rejects s.cfg x.1 x.2 = false) ∧ s.meetsStorage a m = false := by
  unfold State.copyFault State.overlapFault
  rw [Option.or_eq_none_iff, busFault_eq_none]
  cases s.meetsStorage a m <;> simp

/-! ### The two-segment copies (R13) -/

theorem length_storageRead (I : Inst) (m : Memory) (s n : Nat) : (I.storageRead m s n).length = n := by
  simp only [Inst.storageRead, List.length_append, Memory.length_readBytes]; omega

/-- Byte `j` of a storage read is the byte of slot `(s + j) mod SIZE` (R13). -/
theorem getD_storageRead (I : Inst) (m : Memory) (s n j : Nat) (hs : s < I.size) (hn : n ≤ I.size) (hj : j < n) (d : Byte) :
    (I.storageRead m s n).getD j d = Memory.read m (I.base + (s + j) % I.size) := by
  simp only [Inst.storageRead, List.getD_eq_getElem?_getD]
  by_cases h : j < min n (I.size - s)
  · rw [List.getElem?_append_left (by simpa [Memory.length_readBytes] using h),
      List.getElem?_eq_getElem (by simpa [Memory.length_readBytes] using h), Memory.getElem_readBytes,
      Nat.mod_eq_of_lt (by omega)]
    simp [Nat.add_assoc]
  · have h1 : min n (I.size - s) = I.size - s := by omega
    rw [List.getElem?_append_right (by rw [Memory.length_readBytes]; omega), Memory.length_readBytes,
      List.getElem?_eq_getElem (by rw [Memory.length_readBytes]; omega), Memory.getElem_readBytes,
      Nat.mod_eq_sub_mod (by omega), Nat.mod_eq_of_lt (by omega)]
    simp only [Option.getD_some]
    congr 1; omega

/-- A read of memory after a storage write (R13): byte `j` of `v` in slot `(s + j) mod SIZE`, every other byte unchanged. -/
theorem read_storageWrite (I : Inst) {m : Memory} (hm : Memory.wf m) (s : Nat) (v : List Byte) (hs : s < I.size)
    (hv : v.length ≤ I.size) (x : Nat) :
    Memory.read (I.storageWrite m s v) x =
      if I.base ≤ x ∧ x < I.base + I.size ∧ dist I.size s (x - I.base) < v.length
      then v.getD (dist I.size s (x - I.base)) Memory.fill else Memory.read m x := by
  have hlen1 : (v.take (min v.length (I.size - s))).length = min v.length (I.size - s) := by simp
  have hlen2 : (v.drop (min v.length (I.size - s))).length = v.length - min v.length (I.size - s) := by simp
  simp only [Inst.storageWrite]
  rw [Memory.read_writeBytes (Memory.wf_writeBytes _ _ hm), Memory.read_writeBytes hm, hlen1, hlen2]
  by_cases hin : I.base ≤ x ∧ x < I.base + I.size
  · have hk : x - I.base < I.size := by omega
    rw [dist_eq hs hk]
    by_cases h1 : s ≤ x - I.base
    · have hsecond : ¬ (I.base ≤ x ∧ x < I.base + (v.length - min v.length (I.size - s))) := by omega
      rw [if_neg hsecond]
      simp only [h1, if_true, hin, true_and]
      by_cases h2 : x - I.base - s < v.length
      · have hfirst : I.base + s ≤ x ∧ x < I.base + s + min v.length (I.size - s) := by omega
        have hsub : x - (I.base + s) = x - I.base - s := by omega
        rw [if_pos hfirst, if_pos h2, hsub, List.getD_eq_getElem?_getD, List.getElem?_take,
          if_pos (by omega), List.getD_eq_getElem?_getD]
      · rw [if_neg h2, if_neg (by omega)]
    · simp only [h1, if_false, hin, true_and]
      by_cases h2 : I.size - (s - (x - I.base)) < v.length
      · have hmin : min v.length (I.size - s) = I.size - s := by omega
        have hsecond : I.base ≤ x ∧ x < I.base + (v.length - min v.length (I.size - s)) := by omega
        rw [if_pos hsecond.2, if_pos h2, List.getD_eq_getElem?_getD, List.getElem?_drop, hmin, List.getD_eq_getElem?_getD]
        congr 2; omega
      · have hfirst : ¬ (I.base + s ≤ x ∧ x < I.base + s + min v.length (I.size - s)) := by omega
        rw [if_neg (by omega), if_neg hfirst, if_neg h2]
  · rw [if_neg (by omega), if_neg (by omega), if_neg (by tauto)]

theorem wf_storageWrite (I : Inst) {m : Memory} (hm : Memory.wf m) (s : Nat) (v : List Byte) :
    Memory.wf (I.storageWrite m s v) := Memory.wf_writeBytes _ _ (Memory.wf_writeBytes _ _ hm)

/-- A storage write adds no address outside the storage. -/
theorem mem_storageWrite (I : Inst) {m : Memory} {s : Nat} {v : List Byte} (hs : s < I.size) (hv : v.length ≤ I.size)
    {c : Host.Cell} (h : c ∈ I.storageWrite m s v) : c ∈ m ∨ (I.base ≤ c.1 ∧ c.1 < I.base + I.size) := by
  unfold Inst.storageWrite at h
  rcases Memory.mem_writeBytes h with h | h
  · rcases Memory.mem_writeBytes h with h | h
    · exact .inl h
    · right; simp only [List.length_take] at h; omega
  · right; simp only [List.length_drop] at h; omega

end Sys2Proof.Machine
end

