-- ==== Sys2Proof/Laws/Leaves.lean ====
section
/-! SUPPORT. What a command's rule leaves before the end of its COMPLETE step, one lemma per state update, and what the end of
the step makes of it (R72, R73). -/

namespace Sys2Proof.Machine

theorem State.here_modInst (s : State) (f : Inst → Inst) (h : s.site.inst < s.insts.length) :
    (s.modInst s.site.inst f).here = f s.here := s.inst_modInst_same _ f h

theorem State.here_modPort (s : State) (f : PortState → PortState) (h : s.site.inst < s.insts.length) :
    (s.modPort f).here = s.here.setPort s.site.port (f s.herePort) := s.here_modInst _ h

theorem State.herePort_modPort (s : State) (f : PortState → PortState) (h : s.site.inst < s.insts.length) :
    (s.modPort f).herePort = f s.herePort := by
  change (s.modPort f).here.port s.site.port = _
  rw [s.here_modPort f h, Inst.port_setPort_same]

/-- What the rule of a command that involves its own instance only has done so far: the running engine's instance has the setup,
cursors, counts and history of `K` and the results `res0`, `res1`; nothing else but memory has changed. -/
structure Mid (s u : State) (K : Inst) (res0 res1 : Nat) : Prop where
  exists_here : s.site.inst < s.insts.length
  elsewhere : Elsewhere s u [s.site.inst]
  fifo : SameFifo K u.here
  rv : u.here.rv = s.here.rv
  wv : u.here.wv = s.here.wv
  crossings : SameCrossings s.here u.here
  port : u.herePort = { s.herePort with res0 := res0, res1 := res1 }
  ports : ∀ p, p ≠ s.site.port → u.here.port p = s.here.port p

theorem SameFifo.refl (K : Inst) : SameFifo K K := ⟨rfl, rfl, rfl, rfl, rfl, rfl, rfl, rfl, rfl⟩

theorem SameFifo.trans {A B C : Inst} (h : SameFifo A B) (k : SameFifo B C) : SameFifo A C :=
  ⟨k.base.trans h.base, k.size.trans h.size, k.r.trans h.r, k.w.trans h.w, k.wcnt.trans h.wcnt, k.rcnt.trans h.rcnt,
    k.evtEn.trans h.evtEn, k.tag.trans h.tag, k.events.trans h.events⟩

theorem SameFifo.symm {A B : Inst} (h : SameFifo A B) : SameFifo B A :=
  ⟨h.base.symm, h.size.symm, h.r.symm, h.w.symm, h.wcnt.symm, h.rcnt.symm, h.evtEn.symm, h.tag.symm, h.events.symm⟩

theorem SameFifo.setPort (K : Inst) (p : Port) (q : PortState) : SameFifo K (K.setPort p q) := by
  constructor <;> simp

theorem Elsewhere.refl (s : State) (js : List Nat) : Elsewhere s s js := ⟨rfl, rfl, rfl, rfl, rfl, rfl, rfl, fun _ _ => rfl⟩

theorem Elsewhere.trans {s t u : State} {js : List Nat} (h : Elsewhere s t js) (k : Elsewhere t u js) : Elsewhere s u js :=
  ⟨k.cfg.trans h.cfg, k.faults.trans h.faults, k.site.trans h.site, k.sched.trans h.sched, k.rdata.trans h.rdata,
    k.draws.trans h.draws, k.count.trans h.count, fun j hj => (k.others j hj).trans (h.others j hj)⟩

theorem Elsewhere.modInst (s : State) (j : Nat) (f : Inst → Inst) {js : List Nat} (h : j ∈ js) :
    Elsewhere s (s.modInst j f) js :=
  ⟨rfl, rfl, rfl, rfl, rfl, rfl, by simp, fun i hi => s.inst_modInst_ne j f i fun e => hi (e ▸ h)⟩

theorem Elsewhere.setMem (s : State) (m : Memory) (js : List Nat) : Elsewhere s { s with mem := m } js :=
  ⟨rfl, rfl, rfl, rfl, rfl, rfl, rfl, fun _ _ => rfl⟩

theorem Mid.refl (s : State) (h : s.site.inst < s.insts.length) : Mid s s s.here s.herePort.res0 s.herePort.res1 :=
  ⟨h, .refl s _, .refl _, rfl, rfl, ⟨rfl, rfl, rfl, rfl⟩, rfl, fun _ _ => rfl⟩

theorem Mid.site {s u : State} {K : Inst} {a b : Nat} (h : Mid s u K a b) : u.site = s.site := h.elsewhere.site

theorem Mid.lt {s u : State} {K : Inst} {a b : Nat} (h : Mid s u K a b) : u.site.inst < u.insts.length := by
  rw [h.site, h.elsewhere.count]; exact h.exists_here

theorem Mid.setMem {s u : State} {K : Inst} {a b : Nat} (h : Mid s u K a b) (m : Memory) :
    Mid s { u with mem := m } K a b :=
  ⟨h.exists_here, h.elsewhere.trans (.setMem u m _), h.fifo, h.rv, h.wv, h.crossings, h.port, h.ports⟩

/-- An update of the running engine's instance that leaves its ports, views and crossings. -/
theorem Mid.modInst {s u : State} {K K' : Inst} {a b : Nat} (h : Mid s u K a b) (f : Inst → Inst)
    (hK : SameFifo K' (f u.here)) (hrv : (f u.here).rv = u.here.rv) (hwv : (f u.here).wv = u.here.wv)
    (hc : SameCrossings u.here (f u.here)) (hp : ∀ p, (f u.here).port p = u.here.port p) :
    Mid s (u.modInst s.site.inst f) K' a b := by
  have e : (u.modInst s.site.inst f).here = f u.here := by rw [← h.site]; exact u.here_modInst f h.lt
  refine ⟨h.exists_here, h.elsewhere.trans (.modInst u _ f (by simp)), by rwa [e], ?_, ?_, ?_, ?_, ?_⟩
  · rw [e, hrv, h.rv]
  · rw [e, hwv, h.wv]
  · rw [e]; exact ⟨hc.wpub.trans h.crossings.wpub, hc.rpub.trans h.crossings.rpub, hc.wsync.trans h.crossings.wsync,
      hc.rsync.trans h.crossings.rsync⟩
  · change (u.modInst s.site.inst f).here.port u.site.port = _
    rw [e, hp]; exact h.port
  · intro p hpp; rw [e, hp]; exact h.ports p hpp

theorem Mid.modPort {s u : State} {K : Inst} {a b a' b' : Nat} (h : Mid s u K a b) (f : PortState → PortState)
    (hf : f { s.herePort with res0 := a, res1 := b } = { s.herePort with res0 := a', res1 := b' }) :
    Mid s (u.modPort f) K a' b' := by
  have e := u.here_modPort f h.lt
  refine ⟨h.exists_here, h.elsewhere.trans (.modInst u _ _ (by simp [h.site])), ?_, ?_, ?_, ?_, ?_, ?_⟩
  · rw [e]; exact h.fifo.trans (.setPort _ _ _)
  · rw [e, Inst.setPort_rv, h.rv]
  · rw [e, Inst.setPort_wv, h.wv]
  · rw [e]
    exact ⟨by simpa using h.crossings.wpub, by simpa using h.crossings.rpub, by simpa using h.crossings.wsync,
      by simpa using h.crossings.rsync⟩
  · rw [u.herePort_modPort f h.lt, h.port, hf]
  · intro p hp
    rw [e, Inst.port_setPort_ne _ _ _ _ (by rw [h.site]; exact hp), h.ports p hp]

theorem Mid.setRes0 {s u : State} {K : Inst} {a b : Nat} (h : Mid s u K a b) (v : Nat) : Mid s (u.setRes0 v) K v b :=
  h.modPort _ rfl

theorem Mid.setRes1 {s u : State} {K : Inst} {a b : Nat} (h : Mid s u K a b) (v : Nat) : Mid s (u.setRes1 v) K a v :=
  h.modPort _ rfl

theorem bumpCount_eq (c : Config) (cnt m : Nat) : bumpCount c cnt m = countPlus c cnt m := rfl

/-- `CommitW` on the running engine's instance (R170). -/
theorem Mid.commitW {s u : State} {K : Inst} {a b : Nat} (h : Mid s u K a b) (wr m : Nat) :
    Mid s (u.commitW s.site.inst wr m)
      { K with
        w := wrap K.size (wr + m), wcnt := countPlus s.cfg K.wcnt m
        events := if m = 0 then K.events else historyPlus K s.site.port .write m } a b := by
  refine h.modInst _ ⟨?_, ?_, ?_, ?_, ?_, ?_, ?_, ?_, ?_⟩ (by simp) (by simp) ⟨by simp, by simp, by simp, by simp⟩ (by simp)
  all_goals simp only [Inst.commitW_base, Inst.commitW_size, Inst.commitW_r, Inst.commitW_w, Inst.commitW_wcnt,
    Inst.commitW_rcnt, Inst.commitW_evtEn, Inst.commitW_tag, Inst.commitW_events]
  · exact h.fifo.base
  · exact h.fifo.size
  · exact h.fifo.r
  · rw [h.fifo.size]
  · rw [h.fifo.wcnt, h.elsewhere.cfg, bumpCount_eq]
  · exact h.fifo.rcnt
  · exact h.fifo.evtEn
  · exact h.fifo.tag
  · rw [h.fifo.events, h.fifo.evtEn, h.site]
    unfold historyPlus
    by_cases hm : m = 0 <;> simp [hm]

/-- `CommitR` on the running engine's instance (R171). -/
theorem Mid.commitR {s u : State} {K : Inst} {a b : Nat} (h : Mid s u K a b) (rd m : Nat) :
    Mid s (u.commitR s.site.inst rd m)
      { K with
        r := wrap K.size (rd + m), rcnt := countPlus s.cfg K.rcnt m
        events := if m = 0 then K.events else historyPlus K s.site.port .read m } a b := by
  refine h.modInst _ ⟨?_, ?_, ?_, ?_, ?_, ?_, ?_, ?_, ?_⟩ (by simp) (by simp) ⟨by simp, by simp, by simp, by simp⟩ (by simp)
  all_goals simp only [Inst.commitR_base, Inst.commitR_size, Inst.commitR_r, Inst.commitR_w, Inst.commitR_wcnt,
    Inst.commitR_rcnt, Inst.commitR_evtEn, Inst.commitR_tag, Inst.commitR_events]
  · exact h.fifo.base
  · exact h.fifo.size
  · rw [h.fifo.size]
  · exact h.fifo.w
  · exact h.fifo.wcnt
  · rw [h.fifo.rcnt, h.elsewhere.cfg, bumpCount_eq]
  · exact h.fifo.evtEn
  · exact h.fifo.tag
  · rw [h.fifo.events, h.fifo.evtEn, h.site]
    unfold historyPlus
    by_cases hm : m = 0 <;> simp [hm]

/-! ### The end of the step -/

/-- The end of the COMPLETE step of a command that involves its own instance only: the views are settled and the port is idle
(R72, R73). -/
theorem Mid.finish {s u : State} {K : Inst} {a b : Nat} (h : Mid s u K a b) {i : Instr}
    (hi : involved i s.site.inst = [s.site.inst]) (code : Code) :
    Leaves s (u.finish i code) [s.site.inst] K a b code := by
  have hs := h.site
  -- the settled state is one update of the instance
  obtain ⟨f, hu, hfifo, hport, hviews⟩ : ∃ f : Inst → Inst, u.settleViews i = u.modInst s.site.inst f ∧
      SameFifo u.here (f u.here) ∧ (∀ p, (f u.here).port p = u.here.port p) ∧
      ViewsAfter s.cfg s.site.port s.here (f u.here) := by
    cases hp : s.site.port
    case x =>
      refine ⟨Inst.resync, ?_, ⟨rfl, rfl, rfl, rfl, rfl, rfl, rfl, rfl, rfl⟩, fun p => by simp, ?_⟩
      · simp only [State.settleViews, hs, hp, hi, List.foldl_cons, List.foldl_nil]
      · simp only [ViewsAfter, if_true]
        exact ⟨rfl, rfl, rfl, rfl, by simp [h.crossings.wsync], by simp [h.crossings.rsync]⟩
    all_goals
      refine ⟨Inst.track s.cfg, ?_, ?_, ?_, ?_⟩
      · simp only [State.settleViews, hs, hp, h.elsewhere.cfg]
      · constructor <;> simp
      · simp
      · simp only [ViewsAfter, reduceCtorEq, if_false]
        cases hc : s.cfg.cdc
        · simp only [if_true, Inst.track_async _ _ hc]
          exact ⟨h.rv, h.wv, h.crossings⟩
        · simp only [reduceCtorEq, if_false, Inst.track_sync _ _ hc, true_and]
          exact ⟨h.crossings.wpub, h.crossings.rpub, h.crossings.wsync, h.crossings.rsync⟩
  have hv : (u.settleViews i).here = f u.here := by
    rw [hu]; change (u.modInst s.site.inst f).inst u.site.inst = _; rw [hs]
    rw [u.inst_modInst_same _ _ (by have := h.lt; rwa [hs] at this)]; rw [← hs]; rfl
  have hlt : (u.settleViews i).site.inst < (u.settleViews i).insts.length := by
    rw [hu]; simpa using h.lt
  have e := (u.settleViews i).here_modPort (fun q => { q with code := code, busy := none }) hlt
  have hsite : (u.settleViews i).site = s.site := by rw [hu]; exact hs
  rw [hv] at e
  have ep : (u.settleViews i).herePort = { s.herePort with res0 := a, res1 := b } := by
    change (u.settleViews i).here.port (u.settleViews i).site.port = _
    rw [hv, hport, hsite, ← hs]; exact h.port
  refine ⟨?_, ?_, ?_, ?_, ?_⟩
  · have h1 : Elsewhere s (u.settleViews i) [s.site.inst] := by
      rw [hu]; exact h.elsewhere.trans (.modInst u _ f (by simp))
    have h2 := Elsewhere.modInst (u.settleViews i) (u.settleViews i).site.inst
      (fun I => I.setPort (u.settleViews i).site.port
        { I.port (u.settleViews i).site.port with code := code, busy := none }) (js := [s.site.inst]) (by rw [hsite]; simp)
    exact h1.trans h2
  · change SameFifo K ((u.settleViews i).modPort _).here
    rw [e]
    exact (h.fifo.trans hfifo).trans (.setPort _ _ _)
  · change ViewsAfter s.cfg s.site.port s.here ((u.settleViews i).modPort _).here
    rw [e]
    unfold ViewsAfter at hviews ⊢
    split at hviews
    · rw [if_pos ‹_›]
      exact ⟨by simpa using hviews.rv, by simpa using hviews.wv, by simpa using hviews.wpub, by simpa using hviews.rpub,
        by simpa using hviews.wsync, by simpa using hviews.rsync⟩
    · rw [if_neg ‹_›]
      split at hviews
      · rw [if_pos ‹_›]
        exact ⟨by simpa using hviews.1, by simpa using hviews.2.1, by simpa using hviews.2.2.wpub,
          by simpa using hviews.2.2.rpub, by simpa using hviews.2.2.wsync, by simpa using hviews.2.2.rsync⟩
      · rw [if_neg ‹_›]
        exact ⟨by simpa using hviews.1, by simpa using hviews.2.1, by simpa using hviews.2.2.wpub,
          by simpa using hviews.2.2.rpub, by simpa using hviews.2.2.wsync, by simpa using hviews.2.2.rsync⟩
  · change ((u.settleViews i).modPort _).herePort = _
    rw [(u.settleViews i).herePort_modPort _ hlt, ep]
  · intro p hp
    change ((u.settleViews i).modPort _).here.port p = _
    rw [e, Inst.port_setPort_ne _ _ _ _ (by rw [hsite]; exact hp), hport, h.ports p hp]

/-- A command that may run completes with what its rule leaves (R72, R73). -/
theorem Armed.next {s u : State} {i : Instr} {c : Pending} {K : Inst} {a b : Nat} {code : Code}
    {rule : Pending → Except Fault (State × Code)} (ha : Armed s i c) (hr : rule c = .ok (u, code)) (h : Mid s u K a b)
    (hi : involved i s.site.inst = [s.site.inst]) :
    ∃ t, complete i s rule = .next t ∧ t.mem = u.mem ∧ Leaves s t [s.site.inst] K a b code := by
  refine ⟨u.finish i code, ?_, u.finish_mem i code, h.finish hi code⟩
  rw [complete_eq ha.busy ha.legal ha.exist, hr]

/-- A command that may run raises the fault of its rule (R72). -/
theorem Armed.fault {s : State} {i : Instr} {c : Pending} {f : Fault}
    {rule : Pending → Except Fault (State × Code)} (ha : Armed s i c) (hr : rule c = .error f) :
    complete i s rule = .fault f := by
  rw [complete_eq ha.busy ha.legal ha.exist, hr]

theorem Armed.lt {s : State} {i : Instr} {c : Pending} (ha : Armed s i c) : s.site.inst < s.insts.length :=
  ha.exist _ (mem_involved_self i _)

theorem Armed.mid {s : State} {i : Instr} {c : Pending} (ha : Armed s i c) :
    Mid s s s.here s.herePort.res0 s.herePort.res1 := .refl s ha.lt

end Sys2Proof.Machine
end

