-- ==== Sys2Proof/Laws/Commands.lean ====
section
/-! SUPPORT. Lemmas about the pieces of a command: its answer, its view, its sentinel tests, its access checks and its copies. -/

namespace Sys2Proof.Machine

/-- What the views offer (R150, R151): the parts of the capacity law that the invariant proofs use. -/
theorem view_facts (I : Inst) (rd wr : Nat) (hr : I.ready = true) (h1 : rd < I.size) (h2 : wr < I.size) :
    I.occ rd wr ≤ I.size - 1 ∧ I.free rd wr + I.occ rd wr = I.size - 1 := by
  rw [Inst.free_eq_dist hr h1 h2, Inst.occ_eq_dist hr h1 h2]
  have := dist_lt (a := rd) (b := wr) (Inst.size_pos hr)
  omega

/-- Each linear block is within what the view offers and within the storage (R201, R204). -/
theorem window_facts (I : Inst) (rd wr : Nat) (hr : I.ready = true) (h1 : rd < I.size) (h2 : wr < I.size) :
    I.linRLen rd wr ≤ I.occ rd wr ∧ I.linWLen rd wr ≤ I.free rd wr ∧ rd + I.linRLen rd wr ≤ I.size ∧
      wr + I.linWLen rd wr ≤ I.size := by
  rw [Inst.free_eq_dist hr h1 h2, Inst.occ_eq_dist hr h1 h2]
  have e1 : I.linRLen rd wr = if rd < wr then wr - rd else if wr < rd then I.size - rd else 0 := by simp [Inst.linRLen, hr]
  have e2 : I.linWLen rd wr = if rd ≤ wr then (if rd = 0 then I.size - wr - 1 else I.size - wr) else rd - wr - 1 := by
    simp [Inst.linWLen, hr]
  rw [e1, e2, dist_eq h1 h2]
  split_ifs <;> omega

/-- Equal memories read alike. -/
theorem sameBytes_of_mem {s t : State} (h : t.mem = s.mem) : SameBytes s t := fun a => by rw [h]

/-- A rule that only answers 0 in `RES0` (R274). -/
theorem zero_of {s : State} {i : Instr} {c : Pending} {rule : Pending → Except Fault (State × Code)}
    (ha : Armed s i c) (hx : exec i s = complete i s rule) (hi : involved i s.site.inst = [s.site.inst])
    (hr : rule c = .ok (s.setRes0 0, .done)) : ReturnsZero s i [s.site.inst] := by
  obtain ⟨t, h1, h2, h3⟩ := ha.next hr (ha.mid.setRes0 0) hi
  exact ⟨t, by rw [hx, h1], sameBytes_of_mem (by simpa using h2), h3⟩

/-- A rule that only answers one value in `RES0`. -/
theorem answers_of {i : Instr} {v : State → Nat} {v' : State → Nat}
    (hx : ∀ s, exec i s = complete i s fun _ => .ok (s.setRes0 (v' s), .done))
    (hi : ∀ j, involved i j = [j]) (hv : ∀ s, v' s = v s) : Answers i v := by
  intro s c ha
  obtain ⟨t, e1, e2, e3⟩ := ha.next (rule := fun _ => .ok (s.setRes0 (v' s), .done)) rfl (ha.mid.setRes0 _) (hi _)
  exact ⟨t, by rw [hx]; exact e1, sameBytes_of_mem (by simpa using e2), by rw [← hv]; exact e3⟩

/-- An FIFO is not ready exactly when its base or its size is 0 (R27). -/
theorem ready_false {I : Inst} : I.ready = false ↔ (I.base = 0 ∨ I.size = 0) := by
  simp only [Inst.ready, decide_eq_false_iff_not]; tauto

/-- The running engine works on an instance that meets the invariant. -/
theorem State.Inv.here {s : State} (h : s.Inv) (hl : s.site.inst < s.insts.length) : s.here.Inv s.cfg := h.insts _ (s.inst_mem _ hl)

/-- Both positions of a ready view lie inside the storage (R26). -/
theorem view_lt {s : State} (h : s.Inv) (hl : s.site.inst < s.insts.length) (hr : s.here.ready = true) :
    s.view.1 < s.here.size ∧ s.view.2 < s.here.size := by
  have hc := (State.Inv.here h hl).cursors hr
  unfold State.view
  cases s.site.port
  · exact ⟨hc.rv, hc.w⟩
  · exact ⟨hc.r, hc.wv⟩
  · exact ⟨hc.r, hc.w⟩

/-- A ready view offers fewer bytes, occupied or free, than the storage has slots (R157). -/
theorem occ_le {s : State} (h : s.Inv) (hl : s.site.inst < s.insts.length) (hr : s.here.ready = true) :
    s.here.occ s.view.1 s.view.2 < s.here.size ∧ s.here.free s.view.1 s.view.2 < s.here.size := by
  obtain ⟨h1, h2⟩ := view_lt h hl hr
  rw [Inst.free_eq_dist hr h1 h2, Inst.occ_eq_dist hr h1 h2]
  have := dist_lt (a := s.view.1) (b := s.view.2) (Inst.size_pos hr)
  omega

/-- The reading commands read at the true read cursor (R15). -/
theorem view_r {s : State} {i : Instr} {c : Pending} (ha : Armed s i c) (hi : i ∈ [Instr.read, .readExact, .peek, .skip]) :
    s.view.1 = s.here.r := by
  have := ha.legal
  unfold State.view
  revert this
  simp only [List.mem_cons, List.not_mem_nil, or_false] at hi
  rcases hi with rfl | rfl | rfl | rfl <;> cases s.site.port <;> simp [Instr.legalOn, Instr.legalPorts, Inst.view]

/-- The writing commands write at the true write cursor (R15). -/
theorem view_w {s : State} {i : Instr} {c : Pending} (ha : Armed s i c) (hi : i ∈ [Instr.write, .writeExact, .advance]) :
    s.view.2 = s.here.w := by
  have := ha.legal
  unfold State.view
  revert this
  simp only [List.mem_cons, List.not_mem_nil, or_false] at hi
  rcases hi with rfl | rfl | rfl <;> cases s.site.port <;> simp [Instr.legalOn, Instr.legalPorts, Inst.view]

/-- A command legal on X only runs on X (R106). -/
theorem armed_x {s : State} {i : Instr} {c : Pending} (ha : Armed s i c) (hi : i.legalPorts = [.x]) : s.site.port = .x := by
  have := ha.legal
  cases hh : s.site.port <;> simp [hh, Instr.legalOn, hi] at this ⊢

theorem wview {s : State} (hp : s.site.port = .w ∨ s.site.port = .x) : s.view.2 = s.here.w := by
  rcases hp with h | h <;> simp [State.view, Inst.view, h]

theorem rview {s : State} (hp : s.site.port = .r ∨ s.site.port = .x) : s.view.1 = s.here.r := by
  rcases hp with h | h <;> simp [State.view, Inst.view, h]

theorem wx {s : State} {i : Instr} {c : Pending} (ha : Armed s i c) (h : i.legalPorts = [.w, .x]) : s.site.port = .w ∨ s.site.port = .x := by
  have := ha.legal; simpa [Instr.legalOn, h] using this

theorem rx {s : State} {i : Instr} {c : Pending} (ha : Armed s i c) (h : i.legalPorts = [.r, .x]) : s.site.port = .r ∨ s.site.port = .x := by
  have := ha.legal; simpa [Instr.legalOn, h] using this

/-- The sentinel tests of R274. -/
theorem sentinel_true {s : State} {c : Pending} (h : s.here.ready = false ∨ c.a = 0 ∨ c.n = 0) : s.sentinel c = true := by
  simpa [State.sentinel] using h

/-- A copying command is past its sentinel tests (R274). -/
theorem sentinel_false {s : State} {i : Instr} {c : Pending} (h : Copying s i c) : s.sentinel c = false := by
  simp [State.sentinel, h.ready, h.addr, h.len]

theorem sentinel_no {s : State} {c : Pending} (h : ¬ s.sentinel c = true) : s.here.ready = true ∧ c.a ≠ 0 ∧ c.n ≠ 0 := by
  simpa [State.sentinel] using h

/-- An access is not rejected exactly when it is admitted (R64). -/
theorem rejects_false_iff {c : Config} {a n : Nat} : rejects c a n = false ↔ Admitted c a n := by
  rw [rejects_eq_false]
  unfold Admitted memAdmits
  simp

/-- The access check passes exactly when every access is admitted (R64). -/
theorem busFault_none_iff {s : State} {l : List (Nat × Nat)} : s.busFault l = none ↔ AllAdmitted s.cfg l := by
  rw [busFault_eq_none]; exact forall₂_congr fun _ _ => rejects_false_iff

/-- A failed access check reports an access that is not admitted (R64, R276). -/
theorem busFault_some {s : State} {l : List (Nat × Nat)} (h : ¬ AllAdmitted s.cfg l) :
    ∃ a n, s.busFault l = some (.bus s.site.inst s.site.port a n) ∧ ¬ Admitted s.cfg a n ∧ (a, n) ∈ l := by
  cases hf : s.busFault l with
  | none => exact absurd (busFault_none_iff.mp hf) h
  | some f =>
    obtain ⟨x, hx, hr, rfl⟩ := busFault_eq_some hf
    refine ⟨x.1, x.2, rfl, fun hc => ?_, hx⟩
    rw [rejects_false_iff.mpr hc] at hr; cases hr

/-- An operand range meets no ready storage exactly when it is clear of all of them (R65). -/
theorem meetsStorage_false_iff {s : State} {a n : Nat} (h : ∀ J ∈ s.insts, J.ready = true → J.size ≠ 0) :
    s.meetsStorage a n = false ↔ ClearOfStorage s a n := by
  rw [meetsStorage_eq_false]
  refine forall₃_congr fun J hJ hr => ?_
  rw [meets_eq_false]
  have := h J hJ hr
  omega

/-- The accesses of `FIND`'s slots, as the model lists them (R232). -/
theorem slotBytes_eq (I : Inst) (x n : Nat) : I.slotBytes x n = (List.range n).map fun j => (slotAddr I x j, 1) := rfl

/-- The storage accesses of a copying command, as its check lists them. -/
def planRuns (s : State) (i : Instr) (c : Pending) : List (Nat × Nat) :=
  match i with
  | .find => s.here.slotBytes (copyPlan s i c).slot (copyPlan s i c).slots
  | _ => s.here.runs (copyPlan s i c).slot (copyPlan s i c).slots

theorem copyAccesses_eq (s : State) (i : Instr) (c : Pending) :
    copyAccesses s i c = ((copyPlan s i c).addr, (copyPlan s i c).len) :: planRuns s i c := by
  unfold copyAccesses planRuns
  cases i <;> rfl

/-- A command whose accesses are admitted and whose operand range is clear raises no fault (R64, R65). -/
theorem copyFault_none {s : State} {i : Instr} {c : Pending} (h : PlanOk s i c) :
    s.copyFault (copyPlan s i c).addr (copyPlan s i c).len (planRuns s i c) = none := by
  rw [copyFault_eq_none, ← copyAccesses_eq]
  refine ⟨fun x hx => rejects_false_iff.mpr (h.admitted x hx), ?_⟩
  exact (meetsStorage_false_iff fun J _ hr => (Inst.size_pos hr).ne').mpr h.clear

/-- A start position counts modulo the size. -/
theorem slotAddr_mod {I : Inst} (x k : Nat) : slotAddr I (x % I.size) k = slotAddr I x k := by
  unfold slotAddr; rw [Nat.mod_add_mod]

/-- A slot lies in its storage. -/
theorem slotAddr_range {I : Inst} {x k : Nat} (h : 0 < I.size) : I.base ≤ slotAddr I x k ∧ slotAddr I x k < I.base + I.size := by
  unfold slotAddr
  have := Nat.mod_lt (x + k) h
  omega

/-- Slots before the end of storage are addressed in line. -/
theorem slot_lin {I : Inst} {x k : Nat} (h : x + k < I.size) : slotAddr I x k = I.base + x + k := by
  unfold slotAddr; rw [Nat.mod_eq_of_lt h]; omega

/-- Counting slots from a moved position. -/
theorem slot_shift {I J : Inst} {x c k : Nat} (hb : J.base = I.base) (hs : J.size = I.size) :
    slotAddr J ((x + c) % I.size) k = slotAddr I x (k + c) := by
  unfold slotAddr; rw [hb, hs, Nat.mod_add_mod]; congr 2; omega

/-- The two-segment copy into storage, slot by slot (R13). -/
theorem copiedIn_of {s t : State} {I : Inst} {slot a m : Nat} (hm : Memory.wf s.mem) (hs : slot < I.size) (hv : m ≤ I.size)
    (ht : t.mem = I.storageWrite s.mem slot (s.mem.readBytes a m)) : CopiedIn s t I slot a m := by
  have hlen := Memory.length_readBytes s.mem a m
  constructor
  · intro k hk
    rw [ht, read_storageWrite I hm slot _ hs (by omega)]
    have hk1 : (slot + k) % I.size < I.size := Nat.mod_lt _ (by omega)
    have hd : dist I.size slot ((slot + k) % I.size) = k := by
      rw [dist_eq hs hk1, add_mod_ring hs (by omega)]
      by_cases hh : slot + k < I.size
      · rw [if_pos hh]; split <;> omega
      · rw [if_neg hh]; split <;> omega
    unfold slotAddr
    have e : I.base + (slot + k) % I.size - I.base = (slot + k) % I.size := by omega
    rw [if_pos (by rw [e, hd, hlen]; omega), e, hd, List.getD_eq_getElem?_getD, List.getElem?_eq_getElem (by omega),
      Memory.getElem_readBytes]
    rfl
  · intro x hx
    rw [ht, read_storageWrite I hm slot _ hs (by omega)]
    rw [if_neg]
    rintro ⟨h1, h2, h3⟩
    rw [hlen] at h3
    refine hx _ h3 ?_
    unfold slotAddr
    rw [dist_eq hs (by omega)]
    split
    · rw [show slot + (x - I.base - slot) = x - I.base by omega, Nat.mod_eq_of_lt (by omega)]; omega
    · rw [show slot + (I.size - (slot - (x - I.base))) = x - I.base + I.size by omega, Nat.add_mod_right,
        Nat.mod_eq_of_lt (by omega)]; omega

/-- The two-segment copy out of storage, slot by slot (R13). -/
theorem copiedOut_of {s t : State} {I : Inst} {slot a m : Nat} (hm : Memory.wf s.mem) (hs : slot < I.size) (hv : m ≤ I.size)
    (ht : t.mem = s.mem.writeBytes a (I.storageRead s.mem slot m)) : CopiedOut s t I slot a m := by
  have hlen := length_storageRead I s.mem slot m
  constructor
  · intro k hk
    rw [ht, Memory.read_writeBytes hm, hlen, if_pos (by omega), show a + k - a = k by omega,
      getD_storageRead I s.mem slot m k hs hv hk]
    rfl
  · intro x hx
    rw [ht, Memory.read_writeBytes hm, hlen, if_neg (by omega)]

/-- The needle matches at `x` iff each of its bytes does (R232). -/
theorem matchesAt_iff (I : Inst) (m : Memory) (x : Nat) (v : List Byte) :
    I.matchesAt m x v = true ↔ ∀ j, (hj : j < v.length) → Memory.read m (slotAddr I I.r (x + j)) = v[j] := by
  induction v generalizing x with
  | nil => simp [Inst.matchesAt]
  | cons b v ih =>
    simp only [Inst.matchesAt, Bool.and_eq_true, beq_iff_eq, ih, List.length_cons]
    constructor
    · rintro ⟨h1, h2⟩ j hj
      cases j with
      | zero => exact h1
      | succ j => have := h2 j (by omega); rw [show x + (j + 1) = x + 1 + j by omega]; simpa using this
    · intro h
      refine ⟨h 0 (by omega), fun j hj => ?_⟩
      have := h (j + 1) (by omega)
      rw [show x + 1 + j = x + (j + 1) by omega]; simpa using this

/-- No try matches (R232). -/
theorem findFrom_none (I : Inst) (m : Memory) (v : List Byte) (tries x : Nat) :
    I.findFrom m v tries x = none ↔ ∀ y, x ≤ y → y < x + tries → I.matchesAt m y v = false := by
  induction tries generalizing x with
  | zero => simp [Inst.findFrom]; omega
  | succ n ih =>
    simp only [Inst.findFrom]
    split
    · rename_i hm
      simp only [reduceCtorEq, false_iff, not_forall]
      exact ⟨x, Nat.le_refl _, by omega, by simp [hm]⟩
    · rename_i hm
      rw [ih]
      constructor
      · intro h y h1 h2
        by_cases hy : y = x
        · subst hy; simpa using hm
        · exact h y (by omega) (by omega)
      · intro h y h1 h2; exact h y (by omega) (by omega)

/-- The first try that matches (R232). -/
theorem findFrom_some (I : Inst) (m : Memory) (v : List Byte) (tries x y : Nat) (h1 : x ≤ y) (h2 : y < x + tries)
    (h3 : I.matchesAt m y v = true) (h4 : ∀ z, x ≤ z → z < y → I.matchesAt m z v = false) :
    I.findFrom m v tries x = some y := by
  induction tries generalizing x with
  | zero => omega
  | succ n ih =>
    simp only [Inst.findFrom]
    by_cases hy : x = y
    · subst hy; simp [h3]
    · rw [if_neg (by simp [h4 x (Nat.le_refl _) (by omega)])]
      exact ih (x + 1) (by omega) (by omega) fun z hz1 hz2 => h4 z (by omega) hz2

/-- A match lies within the tries. -/
theorem findFrom_range (I : Inst) (m : Memory) (v : List Byte) (tries x y : Nat) (h : I.findFrom m v tries x = some y) : y < x + tries := by
  induction tries generalizing x with
  | zero => simp [Inst.findFrom] at h
  | succ n ih =>
    unfold Inst.findFrom at h
    split at h
    · cases h; omega
    · have := ih _ h; omega

end Sys2Proof.Machine
end

