-- ==== Sys2Proof/Laws/Gray.lean ====
section
/-! SUPPORT. The Gray code and its inverse (R76), and counts modulo `2 ^ CAP_W` (R79). -/

namespace Sys2Proof.Machine

theorem ungrayFrom_lt (n : Nat) (above : Bool) (g : Nat) : ungrayFrom n above g < 2 ^ n := by
  induction n generalizing above with
  | zero => simp [ungrayFrom]
  | succ n ih =>
    have := ih (above ^^ g.testBit n)
    simp only [ungrayFrom]
    have hb : (above ^^ g.testBit n).toNat ≤ 1 := Bool.toNat_le _
    have : (above ^^ g.testBit n).toNat * 2 ^ n ≤ 1 * 2 ^ n := Nat.mul_le_mul_right _ hb
    rw [Nat.pow_succ]; omega

theorem ungray_lt (capW g : Nat) : ungray capW g < 2 ^ capW := ungrayFrom_lt _ _ _

theorem testBit_gray (b i : Nat) : (gray b).testBit i = (b.testBit i ^^ b.testBit (i + 1)) := by
  simp [gray, Nat.testBit_shiftRight, Nat.add_comm]

/-- Decoding from bit `n - 1` down, with bit `n` known, gives the low `n` bits. -/
theorem ungrayFrom_gray (n b : Nat) : ungrayFrom n (b.testBit n) (gray b) = b % 2 ^ n := by
  induction n with
  | zero => simp [ungrayFrom, Nat.mod_one]
  | succ n ih =>
    have hbit : (b.testBit (n + 1) ^^ (gray b).testBit n) = b.testBit n := by
      rw [testBit_gray]; cases b.testBit (n + 1) <;> cases b.testBit n <;> rfl
    simp only [ungrayFrom, hbit, ih]
    rw [Nat.mod_pow_succ, Nat.testBit_eq_decide_div_mod_eq]
    have : b / 2 ^ n % 2 = 0 ∨ b / 2 ^ n % 2 = 1 := by omega
    rcases this with h | h <;> simp [h]; omega

theorem ungray_gray {capW b : Nat} (h : b < 2 ^ capW) : ungray capW (gray b) = b := by
  have hb : b.testBit capW = false := Nat.testBit_lt_two_pow h
  have := ungrayFrom_gray capW b
  rw [hb, Nat.mod_eq_of_lt h] at this
  exact this

theorem gray_lt {capW b : Nat} (h : b < 2 ^ capW) : gray b < 2 ^ capW :=
  Nat.xor_lt_two_pow h (Nat.lt_of_le_of_lt (Nat.shiftRight_le _ _) h)

theorem behind_lt (capW cnt x : Nat) : behind capW cnt x < 2 ^ capW := Nat.mod_lt _ (Nat.two_pow_pos _)

theorem behind_eq {capW cnt x : Nat} (hc : cnt < 2 ^ capW) (hx : x < 2 ^ capW) :
    behind capW cnt x = if x ≤ cnt then cnt - x else cnt + 2 ^ capW - x := by
  unfold behind
  split
  · have : cnt + 2 ^ capW - x = (cnt - x) + 2 ^ capW := by omega
    rw [this, Nat.add_mod_right, Nat.mod_eq_of_lt (by omega)]
  · exact Nat.mod_eq_of_lt (by omega)

@[simp] theorem behind_self {capW cnt : Nat} (hc : cnt < 2 ^ capW) : behind capW cnt cnt = 0 := by
  simp [behind_eq hc hc]

/-- The count that is `d` behind is `d` behind. -/
theorem behind_behind {capW cnt d : Nat} (hc : cnt < 2 ^ capW) (hd : d < 2 ^ capW) :
    behind capW cnt (behind capW cnt d) = d := by
  rw [behind_eq hc (behind_lt _ _ _), behind_eq hc hd]
  split <;> split <;> omega

/-- Advancing a count by `m` puts every older count `m` further behind, while the sum does not wrap. -/
theorem behind_advance {capW cnt x m : Nat} (hc : cnt < 2 ^ capW) (hx : x < 2 ^ capW)
    (h : behind capW cnt x + m < 2 ^ capW) : behind capW ((cnt + m) % 2 ^ capW) x = behind capW cnt x + m := by
  have h1 : (cnt + m) % 2 ^ capW < 2 ^ capW := Nat.mod_lt _ (Nat.two_pow_pos _)
  rw [behind_eq h1 hx]
  rw [behind_eq hc hx] at h ⊢
  have hm : m < 2 ^ capW := by split at h <;> omega
  by_cases hw : cnt + m < 2 ^ capW
  · rw [Nat.mod_eq_of_lt hw]; split_ifs at h ⊢ <;> omega
  · rw [Nat.mod_eq_sub_mod (by omega), Nat.mod_eq_of_lt (by omega)]; split_ifs at h ⊢ <;> omega

/-- Advancing the reference point of a distance shortens it. -/
theorem behind_catchup {capW cnt x m : Nat} (hc : cnt < 2 ^ capW) (hx : x < 2 ^ capW) (h : m ≤ behind capW cnt x) :
    behind capW cnt ((x + m) % 2 ^ capW) = behind capW cnt x - m := by
  have h1 : (x + m) % 2 ^ capW < 2 ^ capW := Nat.mod_lt _ (Nat.two_pow_pos _)
  rw [behind_eq hc h1]
  rw [behind_eq hc hx] at h ⊢
  have hm : m < 2 ^ capW := by split at h <;> omega
  by_cases hw : x + m < 2 ^ capW
  · rw [Nat.mod_eq_of_lt hw]; split_ifs at h ⊢ <;> omega
  · rw [Nat.mod_eq_sub_mod (by omega), Nat.mod_eq_of_lt (by omega)]; split_ifs at h ⊢ <;> omega

/-- Distances along one order of counts add up. -/
theorem behind_add {capW a b c : Nat} (ha : a < 2 ^ capW) (hb : b < 2 ^ capW) (hc : c < 2 ^ capW)
    (h : behind capW a b + behind capW b c < 2 ^ capW) : behind capW a c = behind capW a b + behind capW b c := by
  rw [behind_eq ha hc]
  rw [behind_eq ha hb, behind_eq hb hc] at h ⊢
  split_ifs at h ⊢ <;> omega

end Sys2Proof.Machine
end

