-- ==== Sys2Proof/Laws/Crossing.lean ====
section
/-! SUPPORT. One lemma per step of a Gray crossing (R77 to R80, R82): what the step does to the crossing's order. -/

namespace Sys2Proof.Machine

theorem Crossing.ne_nil {capW stages cnt pub d : Nat} {chain : List Nat} (h : Crossing capW stages cnt pub chain d)
    (hs : 2 ≤ stages) : chain ≠ [] := by
  intro e; have := h.length; simp [e] at this; omega

theorem getLastD_mem {l : List Nat} (h : l ≠ []) : l.getLastD 0 ∈ l := by
  rw [List.getLastD_eq_getLast?, List.getLast?_eq_some_getLast h]; exact List.getLast_mem h

/-- In a rising list, everything is at most the last. -/
theorem le_getLastD {l : List Nat} (h : l.Pairwise (· ≤ ·)) {x : Nat} (hx : x ∈ l) : x ≤ l.getLastD 0 := by
  induction l with
  | nil => simp at hx
  | cons a l ih =>
    rw [List.pairwise_cons] at h
    cases l with
    | nil => simp at hx ⊢; omega
    | cons b l =>
      have hl : (a :: b :: l).getLastD 0 = (b :: l).getLastD 0 := by simp
      rw [hl]
      rcases List.mem_cons.mp hx with rfl | hx
      · exact h.1 _ (getLastD_mem (by simp))
      · exact ih h.2 hx

theorem getLastD_map (f : Nat → Nat) {l : List Nat} (h : l ≠ []) (d e : Nat) : (l.map f).getLastD d = f (l.getLastD e) := by
  simp [List.getLastD_eq_getLast?, List.getLast?_eq_some_getLast h]

/-- Every count of a crossing is at most `d` behind. -/
theorem Crossing.within {capW stages cnt pub d : Nat} {chain : List Nat} (h : Crossing capW stages cnt pub chain d)
    (hs : 2 ≤ stages) : behind capW cnt pub ≤ d ∧ ∀ g ∈ chain, behind capW cnt (ungray capW g) ≤ d := by
  have hne := h.ne_nil hs
  have hlast : (((pub :: chain.map (ungray capW)).map (behind capW cnt))).getLastD 0 = d := by
    rw [List.map_cons, List.map_map]
    cases chain with
    | nil => exact absurd rfl hne
    | cons a l =>
      rw [show ∀ y, (y :: List.map (behind capW cnt ∘ ungray capW) (a :: l)).getLastD 0
        = (List.map (behind capW cnt ∘ ungray capW) (a :: l)).getLastD 0 from fun y => by simp]
      rw [getLastD_map _ hne 0 0]; exact h.last
  constructor
  · rw [← hlast]; exact le_getLastD h.rising (by simp)
  · intro g hg
    rw [← hlast]; exact le_getLastD h.rising (by simp; right; exact ⟨g, hg, rfl⟩)

/-- The receiving end is behind by a count that fits. -/
theorem Crossing.d_lt {capW stages cnt pub d : Nat} {chain : List Nat} (h : Crossing capW stages cnt pub chain d) :
    d < 2 ^ capW := by rw [← h.last]; exact behind_lt _ _ _

/-- A commit of `m` bytes puts the receiving end `m` counts further behind (R77). -/
theorem Crossing.advance {capW stages cnt pub d : Nat} {chain : List Nat} (h : Crossing capW stages cnt pub chain d)
    (hs : 2 ≤ stages) {m : Nat} (hm : d + m < 2 ^ capW) :
    Crossing capW stages ((cnt + m) % 2 ^ capW) pub chain (d + m) := by
  have hw := h.within hs
  have hmove : ∀ x ∈ pub :: chain.map (ungray capW), behind capW ((cnt + m) % 2 ^ capW) x = behind capW cnt x + m := by
    intro x hx
    rcases List.mem_cons.mp hx with rfl | hx
    · exact behind_advance h.cnt_lt h.pub_lt (by omega)
    · obtain ⟨g, hg, rfl⟩ := List.mem_map.mp hx
      exact behind_advance h.cnt_lt (ungray_lt _ _) (by have := hw.2 g hg; omega)
  refine ⟨Nat.mod_lt _ (Nat.two_pow_pos _), h.pub_lt, h.codes_lt, h.length, ?_, ?_⟩
  · have hmap : (pub :: chain.map (ungray capW)).map (behind capW ((cnt + m) % 2 ^ capW))
        = ((pub :: chain.map (ungray capW)).map (behind capW cnt)).map (· + m) := by
      rw [List.map_map]; exact List.map_congr_left fun x hx => by simpa using hmove x hx
    rw [hmap, List.pairwise_map]
    exact h.rising.imp (by intro a b; omega)
  · rw [hmove _ (List.mem_cons_of_mem _ (List.mem_map_of_mem (getLastD_mem (h.ne_nil hs)))), h.last]

/-- Publication brings the published count no further behind (R78). -/
theorem Crossing.publish {capW stages cnt pub d : Nat} {chain : List Nat} (h : Crossing capW stages cnt pub chain d) :
    Crossing capW stages cnt (publish capW cnt pub) chain d := by
  have hle : behind capW cnt (Machine.publish capW cnt pub) ≤ behind capW cnt pub := by
    unfold Machine.publish
    split
    · rename_i hne
      have h1 : 1 ≤ behind capW cnt pub := by
        rw [behind_eq h.cnt_lt h.pub_lt]
        have := h.pub_lt
        split_ifs <;> omega
      rw [behind_catchup h.cnt_lt h.pub_lt h1]; omega
    · exact Nat.le_refl _
  refine ⟨h.cnt_lt, ?_, h.codes_lt, h.length, ?_, h.last⟩
  · unfold Machine.publish; split
    · exact Nat.mod_lt _ (Nat.two_pow_pos _)
    · exact h.pub_lt
  · have hr := h.rising
    simp only [List.map_cons, List.pairwise_cons] at hr ⊢
    exact ⟨fun x hx => Nat.le_trans hle (hr.1 x hx), hr.2⟩

/-- One sample of the published code moves every stage on, and the receiving end no further behind (R79). -/
theorem Crossing.sample {capW stages cnt pub d : Nat} {chain : List Nat} (h : Crossing capW stages cnt pub chain d)
    (hs : 2 ≤ stages) :
    ∃ d' ≤ d, Crossing capW stages cnt pub (sample (gray pub) chain) d' := by
  have hne := h.ne_nil hs
  have hcodes : ∀ g ∈ Machine.sample (gray pub) chain, g = gray pub ∨ g ∈ chain := by
    intro g hg
    exact List.mem_cons.mp (List.dropLast_subset _ hg)
  have hlen : (Machine.sample (gray pub) chain).length = stages := by
    simp [Machine.sample, h.length]
  have hne' : Machine.sample (gray pub) chain ≠ [] := by
    intro e; rw [e] at hlen; simp at hlen; omega
  have hpub := ungray_gray h.pub_lt
  refine ⟨_, ?_, h.cnt_lt, h.pub_lt, ?_, hlen, ?_, rfl⟩
  · rcases hcodes _ (getLastD_mem hne') with e | hg
    · rw [e, hpub]; exact (h.within hs).1
    · exact (h.within hs).2 _ hg
  · intro g hg
    rcases hcodes g hg with rfl | hg
    · exact gray_lt h.pub_lt
    · exact h.codes_lt g hg
  · have hr := h.rising
    simp only [List.map_cons, List.pairwise_cons] at hr ⊢
    have hfull : (((gray pub :: chain).map (ungray capW)).map (behind capW cnt)).Pairwise (· ≤ ·) := by
      simp only [List.map_cons, hpub, List.pairwise_cons]; exact hr
    have hsub : List.Sublist ((((Machine.sample (gray pub) chain)).map (ungray capW)).map (behind capW cnt))
        (((gray pub :: chain).map (ungray capW)).map (behind capW cnt)) :=
      ((List.dropLast_sublist _).map _).map _
    refine ⟨?_, hfull.sublist hsub⟩
    intro x hx
    obtain ⟨y, hy, rfl⟩ := List.mem_map.mp hx
    obtain ⟨g, hg, rfl⟩ := List.mem_map.mp hy
    rcases hcodes g hg with rfl | hg
    · rw [hpub]
    · exact hr.1 _ (List.mem_map_of_mem (List.mem_map_of_mem hg))

theorem behind_closeIn {capW cnt d x : Nat} (hc : cnt < 2 ^ capW) (hd : d < 2 ^ capW) :
    behind capW cnt (closeIn capW cnt d x) = min (behind capW cnt x) d := by
  unfold closeIn
  split
  · rw [behind_behind hc hd]; omega
  · omega

theorem closeIn_lt {capW cnt d x : Nat} (hx : x < 2 ^ capW) : closeIn capW cnt d x < 2 ^ capW := by
  unfold closeIn; split
  · exact behind_lt _ _ _
  · exact hx

/-- A synchroniser step brings the receiving end to `d'` counts behind (R80). -/
theorem Crossing.closeIn {capW stages cnt pub d : Nat} {chain : List Nat} (h : Crossing capW stages cnt pub chain d)
    (hs : 2 ≤ stages) {d' : Nat} (hd : d' ≤ d) :
    Crossing capW stages cnt (closeIn capW cnt d' pub)
      (chain.map fun g => gray (closeIn capW cnt d' (ungray capW g))) d' := by
  have hd' : d' < 2 ^ capW := Nat.lt_of_le_of_lt hd h.d_lt
  refine ⟨h.cnt_lt, closeIn_lt h.pub_lt, ?_, by simp [h.length], ?_, ?_⟩
  · intro g hg
    obtain ⟨y, -, rfl⟩ := List.mem_map.mp hg
    exact gray_lt (closeIn_lt (ungray_lt _ _))
  · have hmap : (Machine.closeIn capW cnt d' pub ::
          (chain.map fun g => gray (Machine.closeIn capW cnt d' (ungray capW g))).map (ungray capW)).map (behind capW cnt)
        = ((pub :: chain.map (ungray capW)).map (behind capW cnt)).map (min · d') := by
      simp only [List.map_cons, List.map_map, behind_closeIn h.cnt_lt hd']
      congr 1
      exact List.map_congr_left fun g _ => by
        simp [ungray_gray (closeIn_lt (ungray_lt capW g)), behind_closeIn h.cnt_lt hd']
    rw [hmap, List.pairwise_map]
    exact h.rising.imp (by intro a b; omega)
  · rw [getLastD_map _ (h.ne_nil hs) 0 0, ungray_gray (closeIn_lt (ungray_lt _ _)), behind_closeIn h.cnt_lt hd', h.last]
    omega

/-- A resync leaves nothing behind (R82). -/
theorem Crossing.resync {capW stages cnt : Nat} {chain : List Nat} (hc : cnt < 2 ^ capW) (hl : chain.length = stages)
    (hs : 2 ≤ stages) : Crossing capW stages cnt cnt (chain.map fun _ => gray cnt) 0 := by
  have hne : chain ≠ [] := by intro e; simp [e] at hl; omega
  refine ⟨hc, hc, ?_, by simp [hl], ?_, ?_⟩
  · intro g hg
    obtain ⟨_, -, rfl⟩ := List.mem_map.mp hg
    exact gray_lt hc
  · rw [List.pairwise_map, List.pairwise_cons]
    have hall : ∀ x ∈ (chain.map fun _ => gray cnt).map (ungray capW), x = cnt := by
      intro x hx
      simp only [List.map_map, List.mem_map] at hx
      obtain ⟨_, -, rfl⟩ := hx
      exact ungray_gray hc
    refine ⟨fun x hx => by rw [hall x hx], ?_⟩
    exact List.pairwise_of_forall_mem_list fun x hx y hy => by rw [hall x hx, hall y hy]
  · rw [getLastD_map _ hne 0 0, ungray_gray hc, behind_self hc]

end Sys2Proof.Machine
end

