-- ==== Sys2Proof/Laws/Invariant.lean ====
section
/-! SUPPORT. What each shared operation on one instance does to the instance invariant (R26, R84): commits on the W and R
ports, everything on the X port up to its resync, synchroniser steps and clock edges. -/

namespace Sys2Proof.Machine

/-! ### Widths -/

theorem stages_of_wf {c : Config} (h : c.wf) : 2 ≤ c.syncStages := h.2.2.2.2.2

theorem two_pow_capW_le {c : Config} (h : c.wf) : 2 ^ c.capW * 2 ≤ 2 ^ c.regW := by
  obtain ⟨hr, -, hc, -⟩ := h
  rw [← Nat.pow_succ]; exact Nat.pow_le_pow_right (by omega) (by omega)

/-- A reset port fits (R42). -/
theorem PortState.reset_fits (c : Config) (p : Port) : PortState.reset.Fits c p := by
  constructor <;> simp [PortState.reset]

/-- Replacing a port's registers by ones that fit. -/
theorem Inst.Fits.setPort {c : Config} {I : Inst} (h : I.Fits c) {p : Port} {q : PortState} (hq : q.Fits c p) :
    (I.setPort p q).Fits c := by
  constructor
  case ports =>
    intro p'
    by_cases e : p' = p
    · subst e; simpa using hq
    · simpa [e] using h.ports p'
  all_goals
    cases p <;> first
      | exact h.size | exact h.storage | exact h.base | exact h.r | exact h.w | exact h.rv | exact h.wv | exact h.wcnt
      | exact h.wpub | exact h.rcnt | exact h.rpub | exact h.wsync | exact h.rsync | exact h.tag | exact h.events

/-- A port that takes a result below `2 ^ REG_W` still fits. -/
theorem PortState.Fits.withRes0 {c : Config} {p : Port} {q : PortState} (h : q.Fits c p) {v : Nat} (hv : v < 2 ^ c.regW) :
    PortState.Fits c p { q with res0 := v } :=
  ⟨h.a, h.n, h.k, h.cmd, hv, h.res1, h.busy⟩

theorem PortState.Fits.withRes1 {c : Config} {p : Port} {q : PortState} (h : q.Fits c p) {v : Nat} (hv : v < 2 ^ c.regW) :
    PortState.Fits c p { q with res1 := v } :=
  ⟨h.a, h.n, h.k, h.cmd, h.res0, hv, h.busy⟩

/-- A port whose slot is emptied still fits (R72, R73). -/
theorem PortState.Fits.done {c : Config} {p : Port} {q : PortState} (h : q.Fits c p) (code : Code) :
    PortState.Fits c p { q with code := code, busy := none } :=
  ⟨h.a, h.n, h.k, h.cmd, h.res0, h.res1, by simp⟩

theorem Inst.Fits.emit {c : Config} {I : Inst} (h : I.Fits c) (p : Port) (k : EvtKind) {n : Nat} (hn : n < 2 ^ c.capW) :
    (I.emit p k n).Fits c := by
  unfold Inst.emit
  split
  · constructor
    case events =>
      intro e he
      rcases List.mem_append.mp he with he | he
      · exact h.events e he
      · simp at he; subst he; exact hn
    case ports => intro p'; have := h.ports p'; cases p' <;> exact this
    all_goals first
      | exact h.size | exact h.storage | exact h.base | exact h.r | exact h.w | exact h.rv | exact h.wv | exact h.wcnt
      | exact h.wpub | exact h.rcnt | exact h.rpub | exact h.wsync | exact h.rsync | exact h.tag
  · exact h

theorem bumpCount_lt {c : Config} {cnt m : Nat} : bumpCount c cnt m < 2 ^ c.capW := Nat.mod_lt _ (Nat.two_pow_pos _)

theorem Inst.Fits.commitW {c : Config} {I : Inst} (h : I.Fits c) (p : Port) {x m : Nat} (hx : x < I.size) (hm : m < I.size) :
    (I.commitW c p x m).Fits c := by
  have hw : wrap I.size (x + m) < I.size := wrap_lt (by omega)
  have hbase : Inst.Fits c { I with w := wrap I.size (x + m), wcnt := bumpCount c I.wcnt m } := by
    constructor
    case w => exact Nat.lt_trans hw h.size
    case wcnt => exact bumpCount_lt
    case ports => intro p'; have := h.ports p'; cases p' <;> exact this
    all_goals first
      | exact h.size | exact h.storage | exact h.base | exact h.r | exact h.rv | exact h.wv
      | exact h.wpub | exact h.rcnt | exact h.rpub | exact h.wsync | exact h.rsync | exact h.tag | exact h.events
  unfold Inst.commitW
  simp only
  split
  · exact hbase
  · exact hbase.emit p .write (Nat.lt_trans hm h.size)

theorem Inst.Fits.commitR {c : Config} {I : Inst} (h : I.Fits c) (p : Port) {x m : Nat} (hx : x < I.size) (hm : m < I.size) :
    (I.commitR c p x m).Fits c := by
  have hw : wrap I.size (x + m) < I.size := wrap_lt (by omega)
  have hbase : Inst.Fits c { I with r := wrap I.size (x + m), rcnt := bumpCount c I.rcnt m } := by
    constructor
    case r => exact Nat.lt_trans hw h.size
    case rcnt => exact bumpCount_lt
    case ports => intro p'; have := h.ports p'; cases p' <;> exact this
    all_goals first
      | exact h.size | exact h.storage | exact h.base | exact h.w | exact h.rv | exact h.wv | exact h.wcnt
      | exact h.wpub | exact h.rpub | exact h.wsync | exact h.rsync | exact h.tag | exact h.events
  unfold Inst.commitR
  simp only
  split
  · exact hbase
  · exact hbase.emit p .read (Nat.lt_trans hm h.size)

theorem Inst.Fits.zeroCursors {c : Config} {I : Inst} (h : I.Fits c) : I.zeroCursors.Fits c := by
  have h0 : 0 < 2 ^ c.capW := Nat.two_pow_pos _
  constructor
  case r => exact h0
  case w => exact h0
  case rcnt => exact h0
  case wcnt => exact h0
  case ports => intro p'; have := h.ports p'; cases p' <;> exact this
  all_goals first
    | exact h.size | exact h.storage | exact h.base | exact h.rv | exact h.wv
    | exact h.wpub | exact h.rpub | exact h.wsync | exact h.rsync | exact h.tag | exact h.events

/-! ### The X port: what holds up to the resync -/

/-- What an X-port command keeps of an instance before its resync restores the whole invariant (R73, R82). -/
structure Inst.Core (c : Config) (I : Inst) : Prop where
  fits : I.Fits c
  cursors : I.ready = true → I.r < I.size ∧ I.w < I.size
  counts : I.ready = true → c.cdc = .async → behind c.capW I.wcnt I.rcnt = dist I.size I.r I.w

theorem Inst.Inv.core {c : Config} {I : Inst} (h : I.Inv c) : I.Core c where
  fits := h.fits
  cursors hr := ⟨(h.cursors hr).r, (h.cursors hr).w⟩
  counts hr hc := by
    have := h.views hr
    simp only [Inst.ViewsAgree, hc] at this
    exact this.counts

/-- The resync of an X-port COMPLETE restores the invariant (R73, R82, R84). -/
theorem Inst.Core.resync {c : Config} {I : Inst} (h : I.Core c) (hc : c.wf) : I.resync.Inv c where
  fits := by
    have f := h.fits
    constructor
    case rv => exact f.r
    case wv => exact f.w
    case wpub => exact f.wcnt
    case rpub => exact f.rcnt
    case wsync =>
      refine ⟨fun g hg => ?_, by simpa using f.wsync.2⟩
      obtain ⟨_, -, rfl⟩ := List.mem_map.mp hg
      exact gray_lt f.wcnt
    case rsync =>
      refine ⟨fun g hg => ?_, by simpa using f.rsync.2⟩
      obtain ⟨_, -, rfl⟩ := List.mem_map.mp hg
      exact gray_lt f.rcnt
    case ports => intro p; have := f.ports p; cases p <;> exact this
    all_goals first
      | exact f.size | exact f.storage | exact f.base | exact f.r | exact f.w | exact f.wcnt | exact f.rcnt
      | exact f.tag | exact f.events
  cursors hr := by
    obtain ⟨h1, h2⟩ := h.cursors hr
    exact ⟨h1, h2, h1, h2⟩
  ring hr := by
    obtain ⟨h1, h2⟩ := h.cursors hr
    constructor
    · simp only [Inst.resync_size, Inst.resync_rv, Inst.resync_wv, Inst.resync_r, Inst.resync_w, dist_self h1,
        dist_self h2]; omega
    · have := dist_lt (a := I.r) (b := I.w) (Inst.size_pos hr)
      simp only [Inst.resync_size, Inst.resync_rv, Inst.resync_w] at *; omega
  views hr := by
    obtain ⟨h1, h2⟩ := h.cursors hr
    unfold Inst.ViewsAgree
    split
    · rename_i ha
      constructor
      · exact h.counts hr ha
      · have := Crossing.resync h.fits.wcnt h.fits.wsync.2 (stages_of_wf hc)
        simpa [dist_self h2] using this
      · have := Crossing.resync h.fits.rcnt h.fits.rsync.2 (stages_of_wf hc)
        simpa [dist_self h1] using this
    · exact ⟨rfl, rfl⟩

theorem dist_advance {S r w m : Nat} (hr : r < S) (hw : w < S) (hm : dist S r w + m < S) :
    dist S r (wrap S (w + m)) = dist S r w + m := by
  have h1 : wrap S (w + m) < S := wrap_lt (by omega)
  rw [dist_eq hr h1]
  rw [dist_eq hr hw] at hm ⊢
  unfold wrap
  split_ifs at hm ⊢ <;> omega

theorem dist_catchup {S r w m : Nat} (hr : r < S) (hw : w < S) (hm : m ≤ dist S r w) :
    dist S (wrap S (r + m)) w = dist S r w - m := by
  have hlt : dist S r w < S := dist_lt (by omega)
  have h1 : wrap S (r + m) < S := wrap_lt (by omega)
  rw [dist_eq h1 hw]
  rw [dist_eq hr hw] at hm ⊢
  unfold wrap
  split_ifs at hm ⊢ <;> omega

theorem Inst.Core.commitW {c : Config} {I : Inst} (h : I.Core c) (hr : I.ready = true) (p : Port) {m : Nat}
    (hm : dist I.size I.r I.w + m < I.size) : (I.commitW c p I.w m).Core c := by
  obtain ⟨h1, h2⟩ := h.cursors hr
  refine ⟨h.fits.commitW p h2 (by omega), fun _ => ?_, fun _ ha => ?_⟩
  · simp only [Inst.commitW_r, Inst.commitW_size, Inst.commitW_w]
    exact ⟨h1, wrap_lt (by omega)⟩
  · have hb := h.counts hr ha
    have hs := h.fits.size
    simp only [Inst.commitW_wcnt, Inst.commitW_rcnt, Inst.commitW_r, Inst.commitW_size, Inst.commitW_w, bumpCount]
    rw [behind_advance h.fits.wcnt h.fits.rcnt (by omega), hb, dist_advance h1 h2 hm]

theorem Inst.Core.commitR {c : Config} {I : Inst} (h : I.Core c) (hr : I.ready = true) (p : Port) {m : Nat}
    (hm : m ≤ dist I.size I.r I.w) : (I.commitR c p I.r m).Core c := by
  obtain ⟨h1, h2⟩ := h.cursors hr
  have hlt := dist_lt (a := I.r) (b := I.w) (Inst.size_pos hr)
  refine ⟨h.fits.commitR p h1 (by omega), fun _ => ?_, fun _ ha => ?_⟩
  · simp only [Inst.commitR_w, Inst.commitR_size, Inst.commitR_r]
    exact ⟨wrap_lt (by omega), h2⟩
  · have hb := h.counts hr ha
    simp only [Inst.commitR_wcnt, Inst.commitR_rcnt, Inst.commitR_r, Inst.commitR_size, Inst.commitR_w, bumpCount]
    rw [behind_catchup h.fits.wcnt h.fits.rcnt (by omega), hb, dist_catchup h1 h2 hm]

theorem Inst.Core.setPort {c : Config} {I : Inst} (h : I.Core c) {p : Port} {q : PortState} (hq : q.Fits c p) :
    (I.setPort p q).Core c := by
  refine ⟨h.fits.setPort hq, ?_, ?_⟩
  · simpa using h.cursors
  · simpa using h.counts

theorem Inst.Inv.setPort {c : Config} {I : Inst} (h : I.Inv c) {p : Port} {q : PortState} (hq : q.Fits c p) :
    (I.setPort p q).Inv c := by
  refine ⟨h.fits.setPort hq, fun hr => ?_, fun hr => ?_, fun hr => ?_⟩
  · have := h.cursors (by simpa using hr)
    exact ⟨by simpa using this.r, by simpa using this.w, by simpa using this.rv, by simpa using this.wv⟩
  · have := h.ring (by simpa using hr)
    exact ⟨by simpa using this.sum, by simpa using this.short⟩
  · have := h.views (by simpa using hr)
    unfold Inst.ViewsAgree at *
    split <;> simp_all only
    · exact ⟨by simpa using this.counts, by simpa using this.write, by simpa using this.read⟩
    · simpa using this

/-! ### The W and R ports -/

/-- A commit of `m` bytes within the W view's free space, by the W port (R72, R84, R170). -/
theorem Inst.Inv.commitW {c : Config} {I : Inst} (h : I.Inv c) (hc : c.wf) (hr : I.ready = true) (p : Port) {m : Nat}
    (hm : dist I.size I.rv I.w + m < I.size) : ((I.commitW c p I.w m).track c).Inv c := by
  have hcur := h.cursors hr
  have hring := h.ring hr
  have hv := h.views hr
  have h2 := hcur.w
  have hrw : dist I.size I.r I.w + m < I.size := by
    have e : dist I.size I.r I.wv + dist I.size I.wv I.w = dist I.size I.r I.w := by
      have := hring.sum; have h3 := hcur.r; have h4 := hcur.rv; have h5 := hcur.wv
      rw [dist_eq h4 h3, dist_eq h3 h5, dist_eq h5 h2, dist_eq h4 h2] at this
      rw [dist_eq h3 h5, dist_eq h5 h2, dist_eq h3 h2]
      split_ifs at this ⊢ <;> omega
    have := hring.sum; omega
  have hfit := h.fits.commitW p h2 (m := m) (by omega)
  cases hcdc : c.cdc with
  | async =>
    rw [Inst.track_async c _ hcdc]
    have hg : I.GrayAgrees c := by simpa [Inst.ViewsAgree, hcdc] using hv
    have hwvw : dist I.size I.wv I.w + m < I.size := by have := hring.sum; omega
    refine ⟨hfit, fun _ => ?_, fun _ => ?_, fun _ => ?_⟩
    · refine ⟨by simpa using hcur.r, ?_, by simpa using hcur.rv, by simpa using hcur.wv⟩
      simp only [Inst.commitW_w, Inst.commitW_size]; exact wrap_lt (by omega)
    · constructor <;> simp only [Inst.commitW_size, Inst.commitW_rv, Inst.commitW_r, Inst.commitW_wv, Inst.commitW_w]
      · rw [dist_advance hcur.wv h2 hwvw, dist_advance hcur.rv h2 hm]; have := hring.sum; omega
      · rw [dist_advance hcur.rv h2 hm]; omega
    · simp only [Inst.ViewsAgree, hcdc]
      have hs := h.fits.size
      constructor <;> simp only [Inst.commitW_size, Inst.commitW_rv, Inst.commitW_r, Inst.commitW_wv, Inst.commitW_w,
        Inst.commitW_wcnt, Inst.commitW_rcnt, Inst.commitW_wpub, Inst.commitW_wsync, Inst.commitW_rpub,
        Inst.commitW_rsync, bumpCount]
      · rw [behind_advance h.fits.wcnt h.fits.rcnt (by rw [hg.counts]; omega), hg.counts, dist_advance hcur.r h2 hrw]
      · rw [dist_advance hcur.wv h2 hwvw]; exact hg.write.advance (stages_of_wf hc) (by omega)
      · exact hg.read
  | sync =>
    rw [Inst.track_sync c _ hcdc]
    have hw' : wrap I.size (I.w + m) < I.size := wrap_lt (by omega)
    refine ⟨?_, fun _ => ?_, fun _ => ?_, fun _ => ?_⟩
    · constructor
      case rv => simpa using h.fits.r
      case wv => simpa using Nat.lt_trans hw' h.fits.size
      case ports => intro p'; have := hfit.ports p'; cases p' <;> exact this
      all_goals first
        | exact hfit.size | exact hfit.storage | exact hfit.base | exact hfit.r | exact hfit.w | exact hfit.wcnt
        | exact hfit.wpub | exact hfit.rcnt | exact hfit.rpub | exact hfit.wsync | exact hfit.rsync | exact hfit.tag
        | exact hfit.events
    · exact ⟨by simpa using hcur.r, by simpa using hw', by simpa using hcur.r, by simpa using hw'⟩
    · constructor <;> simp [dist_self hcur.r, dist_self hw', dist_advance hcur.r h2 hrw]
      omega
    · simp [Inst.ViewsAgree, hcdc]

/-- A commit of `m` bytes within the R view's occupancy, by the R port (R72, R84, R171). -/
theorem Inst.Inv.commitR {c : Config} {I : Inst} (h : I.Inv c) (hc : c.wf) (hr : I.ready = true) (p : Port) {m : Nat}
    (hm : m ≤ dist I.size I.r I.wv) : ((I.commitR c p I.r m).track c).Inv c := by
  have hcur := h.cursors hr
  have hring := h.ring hr
  have hv := h.views hr
  have h1 := hcur.r
  have hpos := Inst.size_pos hr
  have hadd : dist I.size I.rv I.r + m < I.size := by
    have := hring.sum; have := hring.short; omega
  have hrw : m ≤ dist I.size I.r I.w := by
    have e : dist I.size I.r I.wv + dist I.size I.wv I.w = dist I.size I.r I.w := by
      have := hring.sum; have h2 := hcur.w; have h4 := hcur.rv; have h5 := hcur.wv
      rw [dist_eq h4 h1, dist_eq h1 h5, dist_eq h5 h2, dist_eq h4 h2] at this
      rw [dist_eq h1 h5, dist_eq h5 h2, dist_eq h1 h2]
      split_ifs at this ⊢ <;> omega
    omega
  have hlt := dist_lt (a := I.r) (b := I.wv) hpos
  have hfit := h.fits.commitR p h1 (m := m) (by omega)
  cases hcdc : c.cdc with
  | async =>
    rw [Inst.track_async c _ hcdc]
    have hg : I.GrayAgrees c := by simpa [Inst.ViewsAgree, hcdc] using hv
    refine ⟨hfit, fun _ => ?_, fun _ => ?_, fun _ => ?_⟩
    · refine ⟨?_, by simpa using hcur.w, by simpa using hcur.rv, by simpa using hcur.wv⟩
      simp only [Inst.commitR_r, Inst.commitR_size]; exact wrap_lt (by omega)
    · constructor <;> simp only [Inst.commitR_size, Inst.commitR_rv, Inst.commitR_r, Inst.commitR_wv, Inst.commitR_w]
      · rw [dist_advance hcur.rv h1 hadd, dist_catchup h1 hcur.wv hm]; have := hring.sum; omega
      · exact hring.short
    · simp only [Inst.ViewsAgree, hcdc]
      have hs := h.fits.size
      constructor <;> simp only [Inst.commitR_size, Inst.commitR_rv, Inst.commitR_r, Inst.commitR_wv, Inst.commitR_w,
        Inst.commitR_wcnt, Inst.commitR_rcnt, Inst.commitR_wpub, Inst.commitR_wsync, Inst.commitR_rpub,
        Inst.commitR_rsync, bumpCount]
      · rw [behind_catchup h.fits.wcnt h.fits.rcnt (by rw [hg.counts]; exact hrw), hg.counts, dist_catchup h1 hcur.w hrw]
      · exact hg.write
      · rw [dist_advance hcur.rv h1 hadd]; exact hg.read.advance (stages_of_wf hc) (by omega)
  | sync =>
    rw [Inst.track_sync c _ hcdc]
    have hr' : wrap I.size (I.r + m) < I.size := wrap_lt (by omega)
    refine ⟨?_, fun _ => ?_, fun _ => ?_, fun _ => ?_⟩
    · constructor
      case rv => simpa using Nat.lt_trans hr' h.fits.size
      case wv => simpa using h.fits.w
      case ports => intro p'; have := hfit.ports p'; cases p' <;> exact this
      all_goals first
        | exact hfit.size | exact hfit.storage | exact hfit.base | exact hfit.r | exact hfit.w | exact hfit.wcnt
        | exact hfit.wpub | exact hfit.rcnt | exact hfit.rpub | exact hfit.wsync | exact hfit.rsync | exact hfit.tag
        | exact hfit.events
    · exact ⟨by simpa using hr', by simpa using hcur.w, by simpa using hr', by simpa using hcur.w⟩
    · have := dist_lt (a := wrap I.size (I.r + m)) (b := I.w) hpos
      constructor <;> simp [dist_self hcur.w, dist_self hr']
      omega
    · simp [Inst.ViewsAgree, hcdc]

/-- The views of `CDC_MODE = SYNC` already track the cursors of an instance that meets the invariant, so tracking keeps it. -/
theorem Inst.Inv.track {c : Config} {I : Inst} (h : I.Inv c) : (I.track c).Inv c := by
  cases hcdc : c.cdc with
  | async => rwa [Inst.track_async c _ hcdc]
  | sync =>
    rw [Inst.track_sync c _ hcdc]
    refine ⟨?_, fun hr => ?_, fun hr => ?_, fun hr => ?_⟩
    · have f := h.fits
      constructor
      case rv => exact f.r
      case wv => exact f.w
      case ports => intro p'; have := f.ports p'; cases p' <;> exact this
      all_goals first
        | exact f.size | exact f.storage | exact f.base | exact f.r | exact f.w | exact f.wcnt
        | exact f.wpub | exact f.rcnt | exact f.rpub | exact f.wsync | exact f.rsync | exact f.tag | exact f.events
    · have := h.cursors hr
      exact ⟨this.r, this.w, this.r, this.w⟩
    · have hcur := h.cursors hr
      have hpos : 0 < I.size := Inst.size_pos hr
      have := dist_lt (a := I.r) (b := I.w) hpos
      refine ⟨by simp [dist_self hcur.r, dist_self hcur.w], ?_⟩
      change dist I.size I.r I.w ≤ I.size - 1
      omega
    · simp [Inst.ViewsAgree, hcdc]

/-! ### Synchronisers and clock edges -/

/-- `SYNC_W2R` keeps the invariant (R80, R84). -/
theorem Inst.Inv.syncW2R {c : Config} {I : Inst} (h : I.Inv c) (hc : c.wf) {k : Nat} (hk : I.canW2R c k = true) :
    (I.syncW2R c k).Inv c := by
  simp only [Inst.canW2R, decide_eq_true_eq] at hk
  obtain ⟨ha, hr, -, -, hk⟩ := hk
  have hcur := h.cursors hr
  have hring := h.ring hr
  have hg : I.GrayAgrees c := by simpa [Inst.ViewsAgree, ha] using h.views hr
  have hpos := Inst.size_pos hr
  have hlt := dist_lt (a := I.wv) (b := I.w) hpos
  have hwr : (I.wv + k) % I.size = wrap I.size (I.wv + k) := (wrap_eq_mod (by have := hcur.wv; omega)).symm
  have hwv' : wrap I.size (I.wv + k) < I.size := wrap_lt (by have := hcur.wv; omega)
  have hd := dist_catchup hcur.wv hcur.w hk
  have hrv : dist I.size I.r (wrap I.size (I.wv + k)) = dist I.size I.r I.wv + k :=
    dist_advance hcur.r hcur.wv (by have := hring.sum; have := hring.short; omega)
  have hcross := hg.write.closeIn (stages_of_wf hc) (d' := dist I.size I.wv I.w - k) (by omega)
  refine ⟨?_, fun _ => ?_, fun _ => ?_, fun _ => ?_⟩
  · have f := h.fits
    unfold Inst.syncW2R
    constructor
    case wv => simp only [hwr]; exact Nat.lt_trans hwv' f.size
    case wpub => simp only [hwr, hd]; exact hcross.pub_lt
    case wsync => simp only [hwr, hd]; exact ⟨hcross.codes_lt, hcross.length⟩
    case ports => intro p'; have := f.ports p'; cases p' <;> exact this
    all_goals first
      | exact f.size | exact f.storage | exact f.base | exact f.r | exact f.w | exact f.rv | exact f.wcnt
      | exact f.rcnt | exact f.rpub | exact f.rsync | exact f.tag | exact f.events
  · exact ⟨hcur.r, hcur.w, hcur.rv, by simp only [Inst.syncW2R, hwr]; exact hwv'⟩
  · constructor
    · simp only [Inst.syncW2R, hwr, hd, hrv]; have := hring.sum; omega
    · exact hring.short
  · simp only [Inst.ViewsAgree, ha]
    refine ⟨hg.counts, ?_, hg.read⟩
    simp only [Inst.syncW2R, hwr, hd]; exact hcross

/-- `SYNC_R2W` keeps the invariant (R80, R84). -/
theorem Inst.Inv.syncR2W {c : Config} {I : Inst} (h : I.Inv c) (hc : c.wf) {k : Nat} (hk : I.canR2W c k = true) :
    (I.syncR2W c k).Inv c := by
  simp only [Inst.canR2W, decide_eq_true_eq] at hk
  obtain ⟨ha, hr, -, -, hk⟩ := hk
  have hcur := h.cursors hr
  have hring := h.ring hr
  have hg : I.GrayAgrees c := by simpa [Inst.ViewsAgree, ha] using h.views hr
  have hpos := Inst.size_pos hr
  have hlt := dist_lt (a := I.rv) (b := I.r) hpos
  have hwr : (I.rv + k) % I.size = wrap I.size (I.rv + k) := (wrap_eq_mod (by have := hcur.rv; omega)).symm
  have hrv' : wrap I.size (I.rv + k) < I.size := wrap_lt (by have := hcur.rv; omega)
  have hd := dist_catchup hcur.rv hcur.r hk
  have hw : dist I.size (wrap I.size (I.rv + k)) I.w = dist I.size I.rv I.w - k :=
    dist_catchup hcur.rv hcur.w (by have := hring.sum; omega)
  have hcross := hg.read.closeIn (stages_of_wf hc) (d' := dist I.size I.rv I.r - k) (by omega)
  refine ⟨?_, fun _ => ?_, fun _ => ?_, fun _ => ?_⟩
  · have f := h.fits
    unfold Inst.syncR2W
    constructor
    case rv => simp only [hwr]; exact Nat.lt_trans hrv' f.size
    case rpub => simp only [hwr, hd]; exact hcross.pub_lt
    case rsync => simp only [hwr, hd]; exact ⟨hcross.codes_lt, hcross.length⟩
    case ports => intro p'; have := f.ports p'; cases p' <;> exact this
    all_goals first
      | exact f.size | exact f.storage | exact f.base | exact f.r | exact f.w | exact f.wv | exact f.rcnt
      | exact f.wcnt | exact f.wpub | exact f.wsync | exact f.tag | exact f.events
  · exact ⟨hcur.r, hcur.w, by simp only [Inst.syncR2W, hwr]; exact hrv', hcur.wv⟩
  · constructor
    · simp only [Inst.syncR2W, hwr, hd, hw]; have := hring.sum; omega
    · simp only [Inst.syncR2W, hwr, hw]; have := hring.short; omega
  · simp only [Inst.ViewsAgree, ha]
    refine ⟨hg.counts, hg.write, ?_⟩
    simp only [Inst.syncR2W, hwr, hd]; exact hcross

/-- A view decoded from its chain is where the chain's count says it is: `d` slots before the cursor (R79, R81). -/
theorem dist_decoded {S a d : Nat} (ha : a < S) (hd : d < S) :
    (a + S - d) % S < S ∧ dist S ((a + S - d) % S) a = d := by
  have h1 : (a + S - d) % S < S := Nat.mod_lt _ (by omega)
  refine ⟨h1, ?_⟩
  rw [dist_eq h1 ha]
  by_cases h : d ≤ a
  · have : a + S - d = (a - d) + S := by omega
    rw [this, Nat.add_mod_right, Nat.mod_eq_of_lt (by omega)]; split_ifs <;> omega
  · rw [Nat.mod_eq_of_lt (by omega)]; split_ifs <;> omega

/-- A W-domain clock edge keeps the invariant (R78, R79, R81). -/
theorem Inst.Inv.wClock {c : Config} {I : Inst} (h : I.Inv c) (hc : c.wf) (ha : c.cdc = .async) : (I.wClock c).Inv c := by
  have hst := stages_of_wf hc
  have f := h.fits
  have hsamp : (∀ g ∈ sample I.rg I.rsync, g < 2 ^ c.capW) ∧ (sample I.rg I.rsync).length = c.syncStages := by
    refine ⟨fun g hg => ?_, by simp [sample, f.rsync.2]⟩
    rcases List.mem_cons.mp (List.dropLast_subset _ hg) with rfl | hg
    · exact gray_lt f.rpub
    · exact f.rsync.1 g hg
  have hpubl : publish c.capW I.wcnt I.wpub < 2 ^ c.capW := by
    unfold publish; split
    · exact Nat.mod_lt _ (Nat.two_pow_pos _)
    · exact f.wpub
  cases hr : I.ready with
  | false =>
    have e : I.wClock c = { I with wpub := publish c.capW I.wcnt I.wpub, rsync := sample I.rg I.rsync } := by
      simp [Inst.wClock, hr]
    rw [e]
    refine ⟨?_, fun h => ?_, fun h => ?_, fun h => ?_⟩
    · constructor
      case wpub => exact hpubl
      case rsync => exact hsamp
      case ports => intro p'; have := f.ports p'; cases p' <;> exact this
      all_goals first
        | exact f.size | exact f.storage | exact f.base | exact f.r | exact f.w | exact f.rv | exact f.wv | exact f.wcnt
        | exact f.rcnt | exact f.rpub | exact f.wsync | exact f.tag | exact f.events
    all_goals (change I.ready = true at h; simp [hr] at h)
  | true =>
    have hcur := h.cursors hr
    have hring := h.ring hr
    have hg : I.GrayAgrees c := by simpa [Inst.ViewsAgree, ha] using h.views hr
    have hpos := Inst.size_pos hr
    obtain ⟨d, hd, hcross⟩ := hg.read.sample hst
    have hseen := hcross.last
    have hw : dist I.size I.r I.w + dist I.size I.rv I.r = dist I.size I.rv I.w := by
      have := hring.sum; have h1 := hcur.r; have h2 := hcur.w; have h4 := hcur.rv; have h5 := hcur.wv
      rw [dist_eq h4 h1, dist_eq h1 h5, dist_eq h5 h2, dist_eq h4 h2] at this
      rw [dist_eq h1 h2, dist_eq h4 h1, dist_eq h4 h2]
      split_ifs at this ⊢ <;> omega
    have hsz := f.size
    have hshort := hring.short
    have hbehind : behind c.capW I.wcnt (ungray c.capW ((sample I.rg I.rsync).getLastD 0)) = dist I.size I.r I.w + d := by
      change behind c.capW I.rcnt (ungray c.capW ((sample I.rg I.rsync).getLastD 0)) = d at hseen
      rw [behind_add f.wcnt f.rcnt (ungray_lt _ _) (by rw [hseen, hg.counts]; omega), hseen, hg.counts]
    obtain ⟨hrv1, hrv2⟩ := dist_decoded (S := I.size) (a := I.w) (d := dist I.size I.r I.w + d) hcur.w (by omega)
    have e : I.wClock c = { I with
        wpub := publish c.capW I.wcnt I.wpub
        rsync := sample I.rg I.rsync
        rv := (I.w + I.size - (dist I.size I.r I.w + d)) % I.size } := by
      simp only [Inst.wClock, hr, if_true, Inst.rvDecoded, Inst.rseen, hbehind]
    have hrvr : dist I.size ((I.w + I.size - (dist I.size I.r I.w + d)) % I.size) I.r = d := by
      have h1 := hcur.r; have h2 := hcur.w
      rw [dist_eq hrv1 h2] at hrv2
      rw [dist_eq hrv1 h1]
      rw [dist_eq h1 h2] at *
      split_ifs at * <;> omega
    rw [e]
    refine ⟨?_, fun _ => ?_, fun _ => ?_, fun _ => ?_⟩
    · constructor
      case wpub => exact hpubl
      case rsync => exact hsamp
      case rv => exact Nat.lt_trans hrv1 f.size
      case ports => intro p'; have := f.ports p'; cases p' <;> exact this
      all_goals first
        | exact f.size | exact f.storage | exact f.base | exact f.r | exact f.w | exact f.wv | exact f.wcnt
        | exact f.rcnt | exact f.rpub | exact f.wsync | exact f.tag | exact f.events
    · exact ⟨hcur.r, hcur.w, hrv1, hcur.wv⟩
    · constructor
      · simp only [hrvr, hrv2]; have := hring.sum; omega
      · simp only [hrv2]; omega
    · simp only [Inst.ViewsAgree, ha]
      refine ⟨hg.counts, hg.write.publish, ?_⟩
      simp only [hrvr]; exact hcross

/-- An R-domain clock edge keeps the invariant (R78, R79, R81). -/
theorem Inst.Inv.rClock {c : Config} {I : Inst} (h : I.Inv c) (hc : c.wf) (ha : c.cdc = .async) : (I.rClock c).Inv c := by
  have hst := stages_of_wf hc
  have f := h.fits
  have hsamp : (∀ g ∈ sample I.wg I.wsync, g < 2 ^ c.capW) ∧ (sample I.wg I.wsync).length = c.syncStages := by
    refine ⟨fun g hg => ?_, by simp [sample, f.wsync.2]⟩
    rcases List.mem_cons.mp (List.dropLast_subset _ hg) with rfl | hg
    · exact gray_lt f.wpub
    · exact f.wsync.1 g hg
  have hpubl : publish c.capW I.rcnt I.rpub < 2 ^ c.capW := by
    unfold publish; split
    · exact Nat.mod_lt _ (Nat.two_pow_pos _)
    · exact f.rpub
  cases hr : I.ready with
  | false =>
    have e : I.rClock c = { I with rpub := publish c.capW I.rcnt I.rpub, wsync := sample I.wg I.wsync } := by
      simp [Inst.rClock, hr]
    rw [e]
    refine ⟨?_, fun h => ?_, fun h => ?_, fun h => ?_⟩
    · constructor
      case rpub => exact hpubl
      case wsync => exact hsamp
      case ports => intro p'; have := f.ports p'; cases p' <;> exact this
      all_goals first
        | exact f.size | exact f.storage | exact f.base | exact f.r | exact f.w | exact f.rv | exact f.wv | exact f.wcnt
        | exact f.rcnt | exact f.wpub | exact f.rsync | exact f.tag | exact f.events
    all_goals (change I.ready = true at h; simp [hr] at h)
  | true =>
    have hcur := h.cursors hr
    have hring := h.ring hr
    have hg : I.GrayAgrees c := by simpa [Inst.ViewsAgree, ha] using h.views hr
    have hpos := Inst.size_pos hr
    obtain ⟨d, hd, hcross⟩ := hg.write.sample hst
    have hseen : behind c.capW I.wcnt (ungray c.capW ((sample I.wg I.wsync).getLastD 0)) = d := hcross.last
    have hrw : dist I.size I.r I.wv + dist I.size I.wv I.w = dist I.size I.r I.w := by
      have := hring.sum; have h1 := hcur.r; have h2 := hcur.w; have h4 := hcur.rv; have h5 := hcur.wv
      rw [dist_eq h4 h1, dist_eq h1 h5, dist_eq h5 h2, dist_eq h4 h2] at this
      rw [dist_eq h1 h5, dist_eq h5 h2, dist_eq h1 h2]
      split_ifs at this ⊢ <;> omega
    have hsz := f.size
    have hlt := dist_lt (a := I.r) (b := I.w) hpos
    have hbehind : behind c.capW (ungray c.capW ((sample I.wg I.wsync).getLastD 0)) I.rcnt = dist I.size I.r I.w - d := by
      have hx := ungray_lt c.capW ((sample I.wg I.wsync).getLastD 0)
      have hcnt := hg.counts
      have hw := f.wcnt
      have hrc := f.rcnt
      rw [behind_eq hw hrc] at hcnt
      rw [behind_eq hw hx] at hseen
      rw [behind_eq hx hrc]
      split_ifs at * <;> omega
    have hwv : (I.r + (dist I.size I.r I.w - d)) % I.size = wrap I.size (I.r + (dist I.size I.r I.w - d)) :=
      (wrap_eq_mod (by have := hcur.r; omega)).symm
    have hwv' : wrap I.size (I.r + (dist I.size I.r I.w - d)) < I.size := wrap_lt (by have := hcur.r; omega)
    have e : I.rClock c = { I with
        rpub := publish c.capW I.rcnt I.rpub
        wsync := sample I.wg I.wsync
        wv := wrap I.size (I.r + (dist I.size I.r I.w - d)) } := by
      simp only [Inst.rClock, hr, if_true, Inst.wvDecoded, Inst.wseen, hbehind, hwv]
    have hwvw : dist I.size (wrap I.size (I.r + (dist I.size I.r I.w - d))) I.w = d := by
      rw [dist_catchup hcur.r hcur.w (by omega)]; omega
    have hrwv : dist I.size I.r (wrap I.size (I.r + (dist I.size I.r I.w - d))) = dist I.size I.r I.w - d := by
      have := dist_advance (S := I.size) (r := I.r) (w := I.r) (m := dist I.size I.r I.w - d) hcur.r hcur.r
        (by rw [dist_self hcur.r]; omega)
      rw [this, dist_self hcur.r]; omega
    rw [e]
    refine ⟨?_, fun _ => ?_, fun _ => ?_, fun _ => ?_⟩
    · constructor
      case rpub => exact hpubl
      case wsync => exact hsamp
      case wv => exact Nat.lt_trans hwv' f.size
      case ports => intro p'; have := f.ports p'; cases p' <;> exact this
      all_goals first
        | exact f.size | exact f.storage | exact f.base | exact f.r | exact f.w | exact f.rv | exact f.wcnt
        | exact f.rcnt | exact f.wpub | exact f.rsync | exact f.tag | exact f.events
    · exact ⟨hcur.r, hcur.w, hcur.rv, hwv'⟩
    · constructor
      · simp only [hwvw, hrwv]; have := hring.sum; omega
      · exact hring.short
    · simp only [Inst.ViewsAgree, ha]
      refine ⟨hg.counts, ?_, hg.read.publish⟩
      simp only [hwvw]; exact hcross

/-- A reset instance meets the invariant (R42). -/
theorem Inst.reset_inv (c : Config) (events : List Event) (he : ∀ e ∈ events, e.count < 2 ^ c.capW) :
    Inst.Inv c { Inst.reset c.syncStages with events := events } := by
  have h0 : 0 < 2 ^ c.capW := Nat.two_pow_pos _
  refine ⟨?_, fun h => ?_, fun h => ?_, fun h => ?_⟩
  · constructor
    case ports => intro p; cases p <;> exact PortState.reset_fits c _
    case events => exact he
    case wsync => simp [Inst.reset, List.mem_replicate]
    case rsync => simp [Inst.reset, List.mem_replicate]
    all_goals simp [Inst.reset]
  all_goals simp [Inst.ready, Inst.reset] at h

end Sys2Proof.Machine
end

