-- ==== Sys2Proof/Laws/Effects.lean ====
section
/-! SUPPORT. What a command that answers a next state may have changed of setup, cursors and busy flags, and that a command that may run is not refused. -/

namespace Sys2Proof.Machine

/-- What a command `i` run at `site` may change of instance `j`: `I` before, `J` after. -/
structure MayChange (site : Site) (i : Instr) (j : Nat) (I J : Inst) : Prop where
  size : J.size ≠ I.size → site = ⟨j, .x⟩ ∧ i = .init
  base : J.base ≠ I.base → site = ⟨j, .x⟩ ∧ (i = .init ∨ i = .deinit)
  evtEn : J.evtEn ≠ I.evtEn → site = ⟨j, .x⟩ ∧ (i = .init ∨ i = .setEvt)
  tag : J.tag ≠ I.tag → site = ⟨j, .x⟩ ∧ i = .setTag
  w : J.w ≠ I.w → site = ⟨j, .w⟩ ∨ site = ⟨j, .x⟩
  r : J.r ≠ I.r → site = ⟨j, .r⟩ ∨ site = ⟨j, .x⟩ ∨ (site.port = .x ∧ i = .move j)
  busy : ∀ p, (J.port p).busy = (I.port p).busy

theorem MayChange.refl {site i j I} : MayChange site i j I I := by constructor <;> simp

theorem MayChange.trans {site i j} {I J K : Inst} (h : MayChange site i j I J) (k : MayChange site i j J K) : MayChange site i j I K := by
  constructor
  · intro e; by_cases hh : J.size = I.size; exacts [k.size (hh ▸ e), h.size hh]
  · intro e; by_cases hh : J.base = I.base; exacts [k.base (hh ▸ e), h.base hh]
  · intro e; by_cases hh : J.evtEn = I.evtEn; exacts [k.evtEn (hh ▸ e), h.evtEn hh]
  · intro e; by_cases hh : J.tag = I.tag; exacts [k.tag (hh ▸ e), h.tag hh]
  · intro e; by_cases hh : J.w = I.w; exacts [k.w (hh ▸ e), h.w hh]
  · intro e; by_cases hh : J.r = I.r; exacts [k.r (hh ▸ e), h.r hh]
  · intro p; exact (k.busy p).trans (h.busy p)

/-- What a command's rule has changed so far. -/
structure RuleEffect (i : Instr) (s u : State) : Prop where
  site : u.site = s.site
  cfg : u.cfg = s.cfg
  faults : u.faults = s.faults
  sched : u.sched = s.sched
  count : u.insts.length = s.insts.length
  ok : ∀ j, MayChange s.site i j (s.inst j) (u.inst j)

theorem RuleEffect.refl {i : Instr} {s : State} : RuleEffect i s s := ⟨rfl, rfl, rfl, rfl, rfl, fun _ => .refl⟩

theorem RuleEffect.setMem {i : Instr} {s u : State} (h : RuleEffect i s u) (m : Memory) : RuleEffect i s { u with mem := m } := ⟨h.site, h.cfg, h.faults, h.sched, h.count, h.ok⟩

theorem RuleEffect.modInst {i : Instr} {s u : State} (h : RuleEffect i s u) (j : Nat) (f : Inst → Inst) (hf : ∀ I, MayChange s.site i j I (f I)) : RuleEffect i s (u.modInst j f) := by
  refine ⟨h.site, h.cfg, h.faults, h.sched, by simpa using h.count, fun k => ?_⟩
  rw [State.inst_modInst]
  split
  · rename_i hk; rw [hk.1]; exact (h.ok j).trans (hf _)
  · exact h.ok k

theorem setPort_busy (I : Inst) (p p' : Port) (q : PortState) (h : q.busy = (I.port p).busy) : ((I.setPort p q).port p').busy = (I.port p').busy := by
  by_cases hp : p' = p
  · subst hp; rw [Inst.port_setPort_same, h]
  · rw [Inst.port_setPort_ne _ _ _ _ hp]

theorem MayChange.setPort {site i j} (I : Inst) (p : Port) (q : PortState) (h : q.busy = (I.port p).busy) : MayChange site i j I (I.setPort p q) := by
  refine ⟨by simp, by simp, by simp, by simp, by simp, by simp, fun p' => setPort_busy I p p' q h⟩

theorem RuleEffect.setRes0 {i : Instr} {s u : State} (h : RuleEffect i s u) (v : Nat) : RuleEffect i s (u.setRes0 v) :=
  h.modInst u.site.inst (fun I => I.setPort u.site.port { I.port u.site.port with res0 := v }) fun I => MayChange.setPort I u.site.port { I.port u.site.port with res0 := v } rfl

theorem RuleEffect.setRes1 {i : Instr} {s u : State} (h : RuleEffect i s u) (v : Nat) : RuleEffect i s (u.setRes1 v) :=
  h.modInst u.site.inst (fun I => I.setPort u.site.port { I.port u.site.port with res1 := v }) fun I => MayChange.setPort I u.site.port { I.port u.site.port with res1 := v } rfl

theorem RuleEffect.commitW {i : Instr} {s u : State} (h : RuleEffect i s u) {j : Nat} (hj : s.site = ⟨j, .w⟩ ∨ s.site = ⟨j, .x⟩) (w m : Nat) : RuleEffect i s (u.commitW j w m) :=
  h.modInst _ _ fun I => by constructor <;> simp; intro _; exact hj

theorem RuleEffect.commitR {i : Instr} {s u : State} (h : RuleEffect i s u) {j : Nat} (hj : s.site = ⟨j, .r⟩ ∨ s.site = ⟨j, .x⟩ ∨ (s.site.port = .x ∧ i = .move j)) (w m : Nat) : RuleEffect i s (u.commitR j w m) :=
  h.modInst _ _ fun I => by constructor <;> simp; intro _; exact hj

theorem resetCursors_setup (I : Inst) (p : Port) : (I.resetCursors p).size = I.size ∧ (I.resetCursors p).base = I.base ∧ (I.resetCursors p).evtEn = I.evtEn ∧
  (I.resetCursors p).tag = I.tag ∧ ∀ q, (I.resetCursors p).port q = I.port q := by
  unfold Inst.resetCursors Inst.emit Inst.zeroCursors; split <;> simp <;> intro q <;> cases q <;> rfl

theorem RuleEffect.resetCursors {i : Instr} {s u : State} (h : RuleEffect i s u) {j : Nat} (hj : s.site = ⟨j, .x⟩) (p : Port) : RuleEffect i s (u.modInst j fun I => I.resetCursors p) :=
  h.modInst _ _ fun I => by
    obtain ⟨h1, h2, h3, h4, h5⟩ := resetCursors_setup I p
    constructor <;> simp [*]

/-- What a COMPLETE step may change: setup, cursors and busy flags, instance by instance. -/
structure StepEffect (i : Instr) (s t : State) : Prop where
  cfg : t.cfg = s.cfg
  faults : t.faults = s.faults
  sched : t.sched = s.sched
  count : t.insts.length = s.insts.length
  size : ∀ j, (t.inst j).size ≠ (s.inst j).size → s.site = ⟨j, .x⟩ ∧ i = .init
  base : ∀ j, (t.inst j).base ≠ (s.inst j).base → s.site = ⟨j, .x⟩ ∧ (i = .init ∨ i = .deinit)
  evtEn : ∀ j, (t.inst j).evtEn ≠ (s.inst j).evtEn → s.site = ⟨j, .x⟩ ∧ (i = .init ∨ i = .setEvt)
  tag : ∀ j, (t.inst j).tag ≠ (s.inst j).tag → s.site = ⟨j, .x⟩ ∧ i = .setTag
  w : ∀ j, (t.inst j).w ≠ (s.inst j).w → s.site = ⟨j, .w⟩ ∨ s.site = ⟨j, .x⟩
  r : ∀ j, (t.inst j).r ≠ (s.inst j).r → s.site = ⟨j, .r⟩ ∨ s.site = ⟨j, .x⟩ ∨ (s.site.port = .x ∧ i = .move j)
  busy : ∀ j p, ((t.inst j).port p).busy = if (⟨j, p⟩ : Site) = s.site then none else ((s.inst j).port p).busy

theorem finish_inst (u : State) (i : Instr) (code : Code) (j : Nat) : ∃ K : Inst, (K = u.inst j ∨ K = (u.inst j).resync ∨ K = (u.inst j).track u.cfg) ∧
   ((u.finish i code).inst j = K ∨ (u.finish i code).inst j = K.setPort u.site.port { K.port u.site.port with code := code, busy := none }) ∧
   (j = u.site.inst → j < u.insts.length → (u.finish i code).inst j = K.setPort u.site.port { K.port u.site.port with code := code, busy := none }) ∧
   (j ≠ u.site.inst → (u.finish i code).inst j = K) := by
  by_cases hl : j < u.insts.length
  · by_cases hj : j = u.site.inst
    · have h1 := u.here_finish i code (hj ▸ hl)
      refine ⟨if u.site.port = .x then u.here.resync else u.here.track u.cfg, ?_, ?_⟩
      · rw [hj]; unfold State.here; split <;> simp
      · have : (u.finish i code).inst j = (if u.site.port = .x then u.here.resync else u.here.track u.cfg).setPort u.site.port { (if u.site.port = .x then u.here.resync else u.here.track u.cfg).port u.site.port with code := code, busy := none } := by
          rw [hj, h1]; congr 1
          have : (if u.site.port = .x then u.here.resync else u.here.track u.cfg).port u.site.port = u.herePort := by
            split
            · simp [State.herePort]
            · unfold Inst.track State.herePort; cases u.cfg.cdc <;> cases u.site.port <;> rfl
          rw [this]
        exact ⟨.inr this, fun _ _ => this, fun hh => absurd hj hh⟩
    · refine ⟨if u.site.port = .x ∧ j ∈ involved i u.site.inst ∧ j < u.insts.length then (u.inst j).resync else u.inst j, ?_, .inl (u.inst_finish_ne i code j hj), fun h => absurd h hj, fun _ => u.inst_finish_ne i code j hj⟩
      split <;> simp
  · refine ⟨u.inst j, .inl rfl, .inl ?_, fun _ h => absurd h hl, fun _ => ?_⟩ <;>
    · rw [State.inst_ge _ j (by simpa using hl), State.inst_ge _ j (by simpa using hl)]; simp

theorem RuleEffect.finish {i : Instr} {s u : State} (h : RuleEffect i s u) (hl : s.site.inst < s.insts.length) (code : Code) : StepEffect i s (u.finish i code) := by
  have key : ∀ j, ((u.finish i code).inst j).size = (u.inst j).size ∧ ((u.finish i code).inst j).base = (u.inst j).base ∧ ((u.finish i code).inst j).evtEn = (u.inst j).evtEn ∧
     ((u.finish i code).inst j).tag = (u.inst j).tag ∧ ((u.finish i code).inst j).w = (u.inst j).w ∧ ((u.finish i code).inst j).r = (u.inst j).r := by
    intro j
    obtain ⟨K, hK, hf, -⟩ := finish_inst u i code j
    have : K.size = (u.inst j).size ∧ K.base = (u.inst j).base ∧ K.evtEn = (u.inst j).evtEn ∧ K.tag = (u.inst j).tag ∧ K.w = (u.inst j).w ∧ K.r = (u.inst j).r := by
      rcases hK with rfl | rfl | rfl <;> simp
    rcases hf with hf | hf <;> rw [hf] <;> simpa using this
  refine ⟨by simp [h.cfg], by simp [h.faults], by simp [h.sched], by simp [h.count], fun j hj => (h.ok j).size ?_, fun j hj => (h.ok j).base ?_, fun j hj => (h.ok j).evtEn ?_, fun j hj => (h.ok j).tag ?_,
    fun j hj => (h.ok j).w ?_, fun j hj => (h.ok j).r ?_, fun j p => ?_⟩
  · rwa [(key j).1] at hj
  · rwa [(key j).2.1] at hj
  · rwa [(key j).2.2.1] at hj
  · rwa [(key j).2.2.2.1] at hj
  · rwa [(key j).2.2.2.2.1] at hj
  · rwa [(key j).2.2.2.2.2] at hj
  · obtain ⟨K, hK, -, hf1, hf2⟩ := finish_inst u i code j
    have hKb : ∀ p, (K.port p).busy = ((s.inst j).port p).busy := by
      intro p; rw [← (h.ok j).busy p]
      rcases hK with rfl | rfl | rfl
      · rfl
      · cases p <;> rfl
      · unfold Inst.track; cases u.cfg.cdc <;> cases p <;> rfl
    by_cases hj : j = s.site.inst
    · rw [hf1 (by rw [h.site]; exact hj) (by rw [h.count, hj]; exact hl), h.site]
      by_cases hp : p = s.site.port
      · rw [hp, Inst.port_setPort_same, hj]; simp
      · rw [Inst.port_setPort_ne _ _ _ _ hp, hKb, if_neg]; intro e; rw [← e] at hp; exact hp rfl
    · rw [hf2 (by rw [h.site]; exact hj), hKb, if_neg]; intro e; rw [← e] at hj; exact hj rfl

theorem stepEffect_of {i : Instr} {s t : State} {rule : Pending → Except Fault (State × Code)} (h : complete i s rule = .next t)
    (hk : ∀ c u code, Armed s i c → rule c = .ok (u, code) → RuleEffect i s u) : StepEffect i s t := by
  obtain ⟨c, u, code, h1, h2, h3, h4, rfl⟩ := complete_next h
  exact (hk c u code ⟨h1, h2, h3⟩ h4).finish (h3 _ (mem_involved_self _ _)) code

theorem site_x {s : State} {i : Instr} {c : Pending} (ha : Armed s i c) (h : i.legalPorts = [.x]) : s.site = ⟨s.site.inst, .x⟩ := by
  have := armed_x ha h; rw [← this]

theorem site_w {s : State} {i : Instr} {c : Pending} (ha : Armed s i c) (h : i.legalPorts = [.w, .x]) : s.site = ⟨s.site.inst, .w⟩ ∨ s.site = ⟨s.site.inst, .x⟩ := by
  rcases wx ha h with h | h <;> rw [← h] <;> simp

theorem site_r {s : State} {i : Instr} {c : Pending} (ha : Armed s i c) (h : i.legalPorts = [.r, .x]) : s.site = ⟨s.site.inst, .r⟩ ∨ s.site = ⟨s.site.inst, .x⟩ ∨ (s.site.port = .x ∧ i = .move s.site.inst) := by
  rcases rx ha h with h | h <;> rw [← h] <;> simp

theorem copyIn_effect {s : State} {i : Instr} (hw : s.site = ⟨s.site.inst, .w⟩ ∨ s.site = ⟨s.site.inst, .x⟩) {a m res : Nat} {u : State} {code : Code} (h : s.copyIn a m res = .ok (u, code)) : RuleEffect i s u := by
  unfold State.copyIn at h; simp only at h
  split at h
  · cases h
  · cases h; exact ((RuleEffect.refl.setMem _).commitW hw _ _).setRes0 _

theorem copyOut_effect {s : State} {i : Instr} {slot a m res : Nat} {u : State} {code : Code} (h : s.copyOut slot a m res = .ok (u, code)) : RuleEffect i s u := by
  unfold State.copyOut at h; simp only at h
  split at h
  · cases h
  · cases h; exact (RuleEffect.refl.setMem _).setRes0 _

theorem consume_effect {s : State} {i : Instr} (hw : s.site = ⟨s.site.inst, .r⟩ ∨ s.site = ⟨s.site.inst, .x⟩ ∨ (s.site.port = .x ∧ i = .move s.site.inst)) {a m res : Nat} {u : State} {code : Code} (h : s.consume a m res = .ok (u, code)) : RuleEffect i s u := by
  unfold State.consume at h
  split at h
  · cases h
  · rename_i t c ht; cases h; exact (copyOut_effect ht).commitR hw _ _

theorem moveLoop_effect {s : State} {src : Nat} (hx : s.site = ⟨s.site.inst, .x⟩) (fuel : Nat) : ∀ (b : Nat) (u : State), RuleEffect (.move src) s u → RuleEffect (.move src) s (moveLoop s.site.inst src fuel b u).1 := by
  induction fuel with
  | zero => intro b u h; exact h
  | succ f ih =>
    intro b u h
    unfold moveLoop
    split
    · exact h
    · simp only
      split
      · exact h
      · refine ih _ _ (((h.setMem _).commitW (.inr hx) _ _).commitR (.inr (.inr ⟨by rw [hx], rfl⟩)) _ _)

/-- Everything a command that answers a next state may have changed of setup, cursors and busy flags. -/
theorem exec_stepEffect {i : Instr} {s t : State} (h : exec i s = .next t) : StepEffect i s t := by
  cases i with
  | init =>
    refine stepEffect_of h fun c u code ha hr => ?_
    split at hr <;> cases hr
    · exact RuleEffect.refl.setRes0 _
    · exact (RuleEffect.refl.modInst _ _ fun I => ⟨by intro _; exact ⟨site_x ha rfl, rfl⟩, by intro _; exact ⟨site_x ha rfl, .inl rfl⟩, by intro _; exact ⟨site_x ha rfl, .inl rfl⟩, by intro h; exact absurd rfl h,
        fun _ => .inr (site_x ha rfl), fun _ => .inr (.inl (site_x ha rfl)), by intro p; cases p <;> rfl⟩).setRes0 _
  | deinit =>
    refine stepEffect_of h fun c u code ha hr => ?_
    split at hr <;> cases hr
    · exact RuleEffect.refl.setRes0 _
    · exact (RuleEffect.refl.modInst _ _ fun I => ⟨by simp, by intro _; exact ⟨site_x ha rfl, .inr rfl⟩, by simp, by simp, by simp, by simp, by intro p; cases p <;> rfl⟩).setRes0 _
  | reset =>
    refine stepEffect_of h fun c u code ha hr => ?_
    split at hr <;> cases hr
    · exact RuleEffect.refl.setRes0 _
    · exact (RuleEffect.refl.resetCursors (site_x ha rfl) _).setRes0 _
  | setEvt =>
    refine stepEffect_of h fun c u code ha hr => ?_
    split at hr <;> cases hr
    · exact RuleEffect.refl.setRes0 _
    · exact (RuleEffect.refl.modInst _ _ fun I => ⟨by simp, by simp, by intro _; exact ⟨site_x ha rfl, .inr rfl⟩, by simp, by simp, by simp, by intro p; cases p <;> rfl⟩).setRes0 _
  | setTag =>
    change execSetTag s = _ at h; unfold execSetTag at h
    refine stepEffect_of h fun c u code ha hr => ?_
    cases hr
    exact (RuleEffect.refl.modInst _ _ fun I => ⟨by simp, by simp, by simp, by intro _; exact ⟨site_x ha rfl, rfl⟩, by simp, by simp, by intro p; cases p <;> rfl⟩).setRes0 _
  | getTag =>
    change execGetTag s = _ at h; unfold execGetTag at h
    exact stepEffect_of h fun c u code ha hr => by cases hr; exact RuleEffect.refl.setRes0 _
  | isReady =>
    change execIsReady s = _ at h; unfold execIsReady at h
    exact stepEffect_of h fun c u code ha hr => by cases hr; exact RuleEffect.refl.setRes0 _
  | free =>
    change execFree s = _ at h; unfold execFree at h
    exact stepEffect_of h fun c u code ha hr => by cases hr; exact RuleEffect.refl.setRes0 _
  | occ =>
    change execOcc s = _ at h; unfold execOcc at h
    exact stepEffect_of h fun c u code ha hr => by cases hr; exact RuleEffect.refl.setRes0 _
  | linWAddr =>
    change execLinWAddr s = _ at h; unfold execLinWAddr at h
    exact stepEffect_of h fun c u code ha hr => by cases hr; exact RuleEffect.refl.setRes0 _
  | linWLen =>
    change execLinWLen s = _ at h; unfold execLinWLen at h
    exact stepEffect_of h fun c u code ha hr => by cases hr; exact RuleEffect.refl.setRes0 _
  | linRAddr =>
    change execLinRAddr s = _ at h; unfold execLinRAddr at h
    exact stepEffect_of h fun c u code ha hr => by cases hr; exact RuleEffect.refl.setRes0 _
  | linRLen =>
    change execLinRLen s = _ at h; unfold execLinRLen at h
    exact stepEffect_of h fun c u code ha hr => by cases hr; exact RuleEffect.refl.setRes0 _
  | write =>
    refine stepEffect_of h fun c u code ha hr => ?_
    split at hr
    · cases hr; exact RuleEffect.refl.setRes0 _
    · simp only at hr
      split at hr
      · cases hr; exact RuleEffect.refl.setRes0 _
      · exact copyIn_effect (site_w ha rfl) hr
  | writeExact =>
    refine stepEffect_of h fun c u code ha hr => ?_
    split at hr
    · cases hr; exact RuleEffect.refl.setRes0 _
    · split at hr
      · cases hr; exact RuleEffect.refl.setRes0 _
      · exact copyIn_effect (site_w ha rfl) hr
  | read =>
    refine stepEffect_of h fun c u code ha hr => ?_
    split at hr
    · cases hr; exact RuleEffect.refl.setRes0 _
    · simp only at hr
      split at hr
      · cases hr; exact RuleEffect.refl.setRes0 _
      · exact consume_effect (site_r ha rfl) hr
  | readExact =>
    refine stepEffect_of h fun c u code ha hr => ?_
    split at hr
    · cases hr; exact RuleEffect.refl.setRes0 _
    · split at hr
      · cases hr; exact RuleEffect.refl.setRes0 _
      · exact consume_effect (site_r ha rfl) hr
  | peek =>
    refine stepEffect_of h fun c u code ha hr => ?_
    split at hr
    · cases hr; exact RuleEffect.refl.setRes0 _
    · simp only at hr
      split at hr
      · cases hr; exact RuleEffect.refl.setRes0 _
      · exact copyOut_effect hr
  | skip =>
    refine stepEffect_of h fun c u code ha hr => ?_
    split at hr <;> cases hr
    · exact RuleEffect.refl.setRes0 _
    · exact (RuleEffect.refl.commitR (site_r ha rfl) _ _).setRes0 _
  | advance =>
    refine stepEffect_of h fun c u code ha hr => ?_
    split at hr <;> cases hr
    · exact RuleEffect.refl.setRes0 _
    · exact (RuleEffect.refl.commitW (site_w ha rfl) _ _).setRes0 _
  | overwrite =>
    refine stepEffect_of h fun c u code ha hr => ?_
    have hx := site_x ha rfl
    split at hr
    · cases hr; exact RuleEffect.refl.setRes0 _
    · simp only at hr
      split at hr
      · unfold State.overwriteAll at hr; simp only at hr
        split at hr <;> cases hr
        exact (((RuleEffect.refl.setMem _).resetCursors hx _).commitW (.inr hx) _ _).setRes0 _
      · unfold State.overwriteSome at hr; simp only at hr
        split at hr <;> cases hr
        refine (RuleEffect.commitW (RuleEffect.setMem ?_ _) (.inr hx) _ _).setRes0 _
        split
        · exact RuleEffect.refl.commitR (.inr (.inl hx)) _ _
        · exact RuleEffect.refl
  | move src =>
    refine stepEffect_of h fun c u code ha hr => ?_
    have hx := site_x ha rfl
    simp only at hr
    split at hr
    · cases hr; exact RuleEffect.refl.setRes0 _
    · split at hr
      · cases hr
      · split at hr
        · cases hr
        · have hk := moveLoop_effect (src := src) hx (moveBudget s.here (s.inst src)) (moveBudget s.here (s.inst src)) s .refl
          split at hr
          · rename_i t' heq; cases hr; rw [heq] at hk; exact hk.setRes0 _
          · rename_i t' code' _ heq; cases hr; rw [heq] at hk; exact hk.setRes0 _
  | find =>
    refine stepEffect_of h fun c u code ha hr => ?_
    have hm : ∀ a b, RuleEffect .find s ((s.setRes0 a).setRes1 b) := fun a b => (RuleEffect.refl.setRes0 _).setRes1 _
    simp only at hr
    split at hr
    · cases hr; exact hm _ _
    · split at hr
      · cases hr; exact hm _ _
      · split at hr
        · cases hr
        · split at hr <;> cases hr <;> exact hm _ _

/-- A command that may run is not refused. -/
theorem complete_not_refused {i : Instr} {s : State} {rule : Pending → Except Fault (State × Code)} {c : Pending} (ha : Armed s i c) (r : Refusal) : complete i s rule ≠ .refused r := by
  rw [complete_eq ha.busy ha.legal ha.exist]
  split <;> simp

/-- A command that may run is not refused. -/
theorem exec_not_refused {i : Instr} {s : State} {c : Pending} (ha : Armed s i c) (r : Refusal) : exec i s ≠ .refused r := by
  cases i <;> dsimp only [exec] <;> exact complete_not_refused ha r

/-- A busy port of a machine that meets the invariant can take its COMPLETE step but for synchronisation (R69, R72). -/
theorem armed_of {s : State} (hI : s.Inv) {i : Nat} {p : Port} {c : Pending} (hb : ((s.inst i).port p).busy = some c) : Armed { s with site := ⟨i, p⟩ } c.instr c := by
  have hl : i < s.insts.length := by
    by_contra hh
    rw [s.inst_ge i (by omega)] at hb
    cases p <;> simp [Inst.reset, Inst.port, PortState.reset] at hb
  have hF := ((hI.insts _ (s.inst_mem i hl)).fits.ports p).busy c hb
  have hw := hF.1
  simp only [Instr.wellFormed, Bool.and_eq_true] at hw
  refine ⟨hb, hw.2, fun j hj => ?_⟩
  change j < s.insts.length
  cases hi : c.instr with
  | move src =>
    rw [hi] at hj hw
    simp only [involved, List.mem_cons, List.not_mem_nil, or_false] at hj
    rcases hj with rfl | rfl
    · exact hl
    · rw [hI.count]; simpa [Instr.srcExists] using hw.1.2
  | _ => rw [hi] at hj; simp [involved] at hj; rw [hj]; exact hl

theorem inst_eq {s t : State} (h : t.insts = s.insts) (hc : t.cfg = s.cfg) (j : Nat) : t.inst j = s.inst j := State.inst_congr h hc j

end Sys2Proof.Machine
end

