-- ==== Sys2Proof/Laws/GrayCodes.lean ====
section
/-! SUPPORT. Consecutive Gray codes and the bits of a decoded code (R76). -/

namespace Sys2Proof.Machine

/-- The Gray code of a number with one more low bit (R76). -/
theorem gray_bit (e m : Nat) (he : e < 2) : gray (2 * m + e) = 2 * gray m + ((e + m) % 2) := by
  unfold gray
  apply Nat.eq_of_testBit_eq
  intro i
  have h1 : (2 * m + e) >>> 1 = m := by simp [Nat.shiftRight_eq_div_pow]; omega
  rw [h1]
  cases i with
  | zero =>
    rw [Nat.testBit_xor]
    simp only [Nat.testBit_zero]
    have : (2 * (m ^^^ m >>> 1) + (e + m) % 2) % 2 = (e + m) % 2 := by omega
    rw [this]
    have : (2 * m + e) % 2 = e := by omega
    rw [this]
    interval_cases e <;> rcases Nat.mod_two_eq_zero_or_one m with h | h <;> simp [h, Nat.add_mod]
  | succ i =>
    have e1 : (2 * (m ^^^ m >>> 1) + (e + m) % 2).testBit (i + 1) = (m ^^^ m >>> 1).testBit i := by
      rw [Nat.testBit_succ]; congr 1 <;> omega
    have e2 : (2 * m + e).testBit (i + 1) = m.testBit i := by
      rw [Nat.testBit_succ]; congr 1 <;> omega
    rw [e1, Nat.testBit_xor, Nat.testBit_xor, e2]
    simp [Nat.testBit_shiftRight, Nat.add_comm]

theorem xor_two_mul_add (a b e : Nat) (he : e < 2) : (2 * a + e) ^^^ (2 * b + e) = 2 * (a ^^^ b) := by
  apply Nat.eq_of_testBit_eq
  intro i
  cases i with
  | zero => simp [Nat.testBit_zero, Nat.add_mod]; omega
  | succ i =>
    rw [Nat.testBit_xor, Nat.testBit_succ, Nat.testBit_succ, Nat.testBit_succ, show (2 * a + e) / 2 = a by omega,
      show (2 * b + e) / 2 = b by omega, show 2 * (a ^^^ b) / 2 = a ^^^ b by omega, Nat.testBit_xor]

/-- Consecutive Gray codes differ in one bit (R76). -/
theorem gray_succ (b : Nat) : ∃ k, gray b ^^^ gray (b + 1) = 2 ^ k := by
  induction b using Nat.strong_induction_on with
  | _ b ih =>
    rcases Nat.even_or_odd' b with ⟨m, rfl | rfl⟩
    · refine ⟨0, ?_⟩
      have h1 := gray_bit 0 m (by decide)
      have h2 := gray_bit 1 m (by decide)
      rw [Nat.add_zero] at h1
      rw [h1, h2]
      apply Nat.eq_of_testBit_eq
      intro i
      cases i with
      | zero => rcases Nat.mod_two_eq_zero_or_one m with h | h <;> simp [Nat.testBit_zero, Nat.add_mod, h]
      | succ i =>
        rw [Nat.testBit_xor, Nat.testBit_succ, Nat.testBit_succ, Nat.testBit_succ]
        rw [show (2 * gray m + (0 + m) % 2) / 2 = gray m by omega, show (2 * gray m + (1 + m) % 2) / 2 = gray m by omega]
        simp
    · obtain ⟨k, hk⟩ := ih m (by omega)
      refine ⟨k + 1, ?_⟩
      have h1 := gray_bit 1 m (by decide)
      have h2 := gray_bit 0 (m + 1) (by decide)
      rw [show 2 * m + 1 + 1 = 2 * (m + 1) + 0 by ring, h1, h2, show (0 + (m + 1)) % 2 = (1 + m) % 2 by omega, xor_two_mul_add _ _ _ (Nat.mod_lt _ (by decide)), hk, Nat.pow_succ, Nat.mul_comm]

/-- The code of the last count (R76). -/
theorem gray_top (n : Nat) : gray (2 ^ (n + 1) - 1) = 2 ^ n := by
  induction n with
  | zero => rfl
  | succ n ih =>
    have hp : 1 ≤ 2 ^ (n + 1) := Nat.one_le_two_pow
    have e : 2 ^ (n + 1 + 1) - 1 = 2 * (2 ^ (n + 1) - 1) + 1 := by rw [Nat.pow_succ]; omega
    rw [e, gray_bit _ _ (by decide), ih, Nat.pow_succ]
    have : (1 + (2 ^ (n + 1) - 1)) % 2 = 0 := by rw [Nat.add_sub_cancel' hp, Nat.pow_succ]; omega
    omega

/-- The bits of the decoded code (R76). -/
theorem ungrayFrom_bits (n : Nat) (above : Bool) (g : Nat) : ∀ k < n, (ungrayFrom n above g).testBit k =
    ((if k + 1 = n then above else (ungrayFrom n above g).testBit (k + 1)) ^^ g.testBit k) := by
  induction n generalizing above with
  | zero => intro k hk; omega
  | succ n ih =>
    intro k hk
    have hlt := ungrayFrom_lt n (above ^^ g.testBit n) g
    have hbit : ∀ j, (ungrayFrom (n + 1) above g).testBit j = if j = n then (above ^^ g.testBit n) else if j < n then (ungrayFrom n (above ^^ g.testBit n) g).testBit j else false := by
      intro j
      simp only [ungrayFrom]
      rw [Nat.mul_comm, Nat.testBit_two_pow_mul_add _ hlt]
      by_cases h : j < n
      · rw [if_pos h, if_neg (by omega), if_pos h]
      · rw [if_neg h, if_neg h]
        by_cases h2 : j = n
        · subst h2; simp; cases above <;> cases g.testBit j <;> rfl
        · rw [if_neg h2]
          have : 1 ≤ j - n := by omega
          apply Nat.testBit_lt_two_pow
          calc (above ^^ g.testBit n).toNat ≤ 1 := Bool.toNat_le _
            _ < 2 ^ (j - n) := Nat.one_lt_two_pow (by omega)
    rw [hbit, hbit]
    by_cases h : k = n
    · subst h; simp
    · rw [if_neg h, if_pos (by omega), if_neg (by omega), ih _ k (by omega)]
      by_cases h2 : k + 1 = n
      · rw [if_pos h2, if_pos h2]
      · rw [if_neg h2, if_neg h2, if_pos (by omega)]

end Sys2Proof.Machine
end

