-- ==== Sys2Proof/Laws/Hosts.lean ====
section
/-! SUPPORT. Hosts, synchronisers and hardware reset: the register block, the busy commands, the byte contracts and the clock edges. -/

namespace Sys2Proof.Machine

/-- The address of R38 reaches its register (R63). -/
theorem regTarget_reg {c : Config} (hc : c.wf) {i j : Nat} (hi : i < c.numInst) (hj : j < 32) :
    regTarget c (regAddr c i j) c.regW = .reg i j := by
  obtain ⟨h1, h2, h3, h4, h5, h6⟩ := hc
  unfold regTarget regAddr regBytes
  have hr : 0 < c.regW / 8 := by omega
  have e : c.regBase + (32 * i + j) * (c.regW / 8) - c.regBase = (32 * i + j) * (c.regW / 8) := by omega
  simp only [e]
  have hlt : (32 * i + j) * (c.regW / 8) < 256 * 32 * (c.regW / 8) := by
    apply Nat.mul_lt_mul_of_pos_right _ hr; omega
  rw [if_neg (by omega), Nat.mul_mod_left, Nat.mul_div_cancel _ hr]
  rw [if_neg]
  · congr 1 <;> omega
  · omega

/-- Changing the registers of one port changes nothing else. -/
theorem onlyPort_updPort {s : State} {i : Nat} (p : Port) (f : PortState → PortState) (h : i < s.insts.length) :
    OnlyPort s (s.updPort i p f) i p (f ((s.inst i).port p)) := by
  refine ⟨Elsewhere.modInst s i _ (by simp), rfl, ?_⟩
  unfold State.updPort
  rw [State.inst_modInst_same _ _ _ h]

/-- Rewriting a port with what it holds changes nothing. -/
theorem updPort_id {s : State} {i : Nat} {p : Port} {f : PortState → PortState} (h : f ((s.inst i).port p) = (s.inst i).port p) : s.updPort i p f = s := by
  unfold State.updPort State.modInst State.setInst
  simp only [h]
  have : (s.inst i).setPort p ((s.inst i).port p) = s.inst i := by cases p <;> rfl
  rw [this]
  have : s.insts.set i (s.inst i) = s.insts := by
    by_cases hl : i < s.insts.length
    · rw [s.inst_of_lt i hl]; simp
    · exact List.set_eq_of_length_le (by omega)
  rw [this]

/-- A register write to `CMD` is an ISSUE (R63, R69). -/
theorem regWrite_cmd {s : State} {i : Nat} {p : Port} {word : Nat} (hc : s.cfg.wf) (hi : i < s.cfg.numInst) (hw : word < 2 ^ s.cfg.regW) :
    s.perform (.regWrite (regAddr s.cfg i (firstReg p)) s.cfg.regW word) = s.issue i p word := by
  have hj : firstReg p < 32 := by cases p <;> simp [firstReg]
  simp only [State.perform, State.hostRegWrite, regTarget_reg hc hi hj, Nat.mod_eq_of_lt hw]
  cases p <;> simp [firstReg, portOfBank]

/-- The busy commands are what the ports hold. -/
theorem mem_busyCmds {s : State} {x : Nat × Port × Pending} :
    x ∈ s.busyCmds ↔ x.1 < s.insts.length ∧ ((s.inst x.1).port x.2.1).busy = some x.2.2 := by
  obtain ⟨i, p, c⟩ := x
  simp only [State.busyCmds, Inst.busyCmds, List.mem_flatMap, List.mem_range, List.mem_map, List.mem_filterMap,
    Option.map_eq_some_iff, Prod.mk.injEq, Prod.exists]
  constructor
  · rintro ⟨j, hj, p', c', ⟨p'', -, c'', h, rfl, rfl⟩, rfl, rfl, rfl⟩
    exact ⟨hj, h⟩
  · rintro ⟨h1, h2⟩
    exact ⟨i, h1, p, c, ⟨p, by cases p <;> simp, c, h2, rfl, rfl⟩, rfl, rfl, rfl⟩

/-- The side a port occupies (R71). -/
def sideOf : Port → Side | .w => .wside | .r => .rside | .x => .excl

/-- The instances a command of a port occupies (R71). -/
def instsOf (p : Port) (c : Instr) (i : Nat) : List Nat := match p with | .x => involved c i | _ => [i]

theorem footprint_eq (i : Nat) (p : Port) (c : Instr) : footprint i p c = (instsOf p c i).map fun j => (j, sideOf p) := by
  cases p <;> rfl

/-- Two commands conflict iff they share an instance and one is on X (R71). -/
theorem conflict_iff (i j : Nat) (p q : Port) (c d : Instr) : conflict (footprint i p c) (footprint j q d) = true ↔
    (∃ k ∈ instsOf p c i, k ∈ instsOf q d j) ∧ (p = .x ∨ q = .x) := by
  have hs : ∀ p, sideOf p = .excl ↔ p = .x := by intro p; cases p <;> simp [sideOf]
  simp only [footprint_eq, conflict, List.any_map, List.any_eq_true, Function.comp, decide_eq_true_eq, hs]
  constructor
  · rintro ⟨k, hk, l, hl, rfl, h⟩; exact ⟨⟨k, hk, hl⟩, h⟩
  · rintro ⟨⟨k, hk, hl⟩, h⟩; exact ⟨k, hk, k, hl, rfl, h⟩

/-- Conflict is symmetric (R71). -/
theorem conflict_comm (a b : List (Nat × Side)) : conflict a b = conflict b a := by
  unfold conflict
  rw [Bool.eq_iff_iff]
  simp only [List.any_eq_true, decide_eq_true_eq]
  constructor <;> rintro ⟨x, hx, y, hy, h1, h2⟩ <;> exact ⟨y, hy, x, hx, h1.symm, h2.symm⟩

theorem conflicts_iff {s : State} {i : Nat} {p : Port} {c : Instr} : s.conflicts i p c = true ↔
    ∃ b ∈ s.busyCmds, conflict (footprint i p c) (footprint b.1 b.2.1 b.2.2.instr) = true := by
  simp [State.conflicts]

theorem inBusyBuffer_iff {s : State} {which : Instr → Bool} {a : Nat} : s.inBusyBuffer which a = true ↔
    ∃ i < s.insts.length, ∃ p c, ((s.inst i).port p).busy = some c ∧ which c.instr = true ∧ c.a ≤ a ∧ a < c.a + c.n := by
  simp only [State.inBusyBuffer, List.any_eq_true, decide_eq_true_eq, Prod.exists, mem_busyCmds]
  constructor
  · rintro ⟨i, p, c, ⟨h1, h2⟩, h3⟩; exact ⟨i, h1, p, c, h2, h3⟩
  · rintro ⟨i, h1, p, c, h2, h3⟩; exact ⟨i, p, c, ⟨h1, h2⟩, h3⟩

theorem buffersWritten_iff (i : Instr) : buffersWritten i = true ↔ i ∈ [Instr.write, .writeExact, .read, .readExact, .peek, .overwrite, .find] := by
  cases i <;> simp [buffersWritten]

theorem buffersRead_iff (i : Instr) : buffersRead i = true ↔ i ∈ [Instr.read, .readExact, .peek] := by
  cases i <;> simp [buffersRead]

/-- `XBusy(J)` in words (R87). -/
theorem xBusy_iff {s : State} {j : Nat} (hj : j < s.insts.length) : s.xBusy j = true ↔ ((s.inst j).xport.busy ≠ none ∨
      ∃ k < s.insts.length, ∃ c, (s.inst k).xport.busy = some c ∧ c.instr = .move j) := by
  simp only [State.xBusy, List.any_eq_true, decide_eq_true_eq, Prod.exists, mem_busyCmds]
  constructor
  · rintro ⟨i, p, c, ⟨h1, h2⟩, rfl, rfl | h3⟩
    · left; change (s.inst i).xport.busy = some c at h2; simp [h2]
    · right; exact ⟨i, h1, c, h2, h3⟩
  · rintro (h | ⟨k, h1, c, h2, h3⟩)
    · obtain ⟨c, hc⟩ := Option.ne_none_iff_exists'.mp h
      exact ⟨j, .x, c, ⟨hj, hc⟩, rfl, .inl rfl⟩
    · exact ⟨k, .x, c, ⟨h1, h2⟩, rfl, .inr h3⟩

/-- A slot is one of the `n` slots from `x` on iff its ring distance from `x` is below `n`. -/
theorem ring_mem {S x slot n : Nat} (hx : x < S) (hs : slot < S) (hn : n ≤ S) : dist S x slot < n ↔ ∃ k < n, slot = (x + k) % S := by
  constructor
  · intro h
    refine ⟨_, h, ?_⟩
    have := dist_lt (a := x) (b := slot) (S := S) (by omega)
    rw [add_mod_ring hx this, dist_eq hx hs]
    split_ifs <;> omega
  · rintro ⟨k, hk, rfl⟩
    rw [add_mod_ring hx (by omega)]
    by_cases hh : x + k < S
    · rw [if_pos hh, dist_eq hx hh]; split_ifs <;> omega
    · rw [if_neg hh, dist_eq hx (by omega)]; split_ifs <;> omega

theorem inStorage_iff {J : Inst} {a : Nat} : J.inStorage a = true ↔ J.ready = true ∧ ∃ slot < J.size, a = J.base + slot := by
  simp only [Inst.inStorage, decide_eq_true_eq]
  constructor
  · rintro ⟨h1, h2, h3⟩; exact ⟨h1, a - J.base, by omega, by omega⟩
  · rintro ⟨h1, k, h2, rfl⟩; exact ⟨h1, by omega, by omega⟩

/-- A step of one instance that is enabled. -/
theorem stepInst_next {s : State} {i : Nat} {ok : Inst → Bool} {f : Inst → Inst} (h : ok (s.inst i) = true) (hi : i < s.insts.length) :
    s.stepInst i ok f = .next (s.modInst i f) ∧ Elsewhere s (s.modInst i f) [i] ∧ (s.modInst i f).mem = s.mem ∧
      (s.modInst i f).inst i = f (s.inst i) := by
  refine ⟨by unfold State.stepInst; rw [if_pos h], Elsewhere.modInst s i f (by simp), rfl, s.inst_modInst_same i f hi⟩

/-- A view that trails by no more than before has moved forward by the difference (R80). -/
theorem moved_forward {S v v' w : Nat} (hv : v < S) (hv' : v' < S) (hw : w < S) (h : dist S v' w ≤ dist S v w) :
    v' = v ∨ ∃ k, 1 ≤ k ∧ k ≤ dist S v w ∧ v' = (v + k) % S := by
  by_cases he : dist S v' w = dist S v w
  · left
    rw [dist_eq hv' hw, dist_eq hv hw] at he
    split_ifs at he <;> omega
  · right
    refine ⟨dist S v w - dist S v' w, by omega, by omega, ?_⟩
    have hlt := dist_lt (a := v) (b := w) (S := S) (by omega)
    rw [add_mod_ring hv (by omega)]
    rw [dist_eq hv' hw, dist_eq hv hw] at *
    split_ifs at * <;> omega

/-- An R-domain clock edge leaves the write view no further behind (R79, R81). -/
theorem rClock_behind {c : Config} {I : Inst} (h : I.Inv c) (hc : c.wf) (ha : c.cdc = .async) (hr : I.ready = true) :
    dist I.size (I.rClock c).wv I.w ≤ dist I.size I.wv I.w := by
  have h2 := Inst.Inv.rClock h hc ha
  have hg : I.GrayAgrees c := by simpa [Inst.ViewsAgree, ha] using h.views hr
  have hready : (I.rClock c).ready = true := by
    unfold Inst.rClock; simp only [hr, if_true]; exact hr
  have hg2 : (I.rClock c).GrayAgrees c := by simpa [Inst.ViewsAgree, ha] using h2.views hready
  obtain ⟨d, hd, hcross⟩ := hg.write.sample (stages_of_wf hc)
  have l2 := hg2.write.last
  have e : (I.rClock c).wsync = sample I.wg I.wsync ∧ (I.rClock c).wcnt = I.wcnt ∧ (I.rClock c).size = I.size ∧ (I.rClock c).w = I.w := by
    unfold Inst.rClock; simp only [hr, if_true, and_self]
  rw [e.1, e.2.1, e.2.2.1, e.2.2.2] at l2
  have l1 := hcross.last
  change behind c.capW I.wcnt (ungray c.capW ((sample I.wg I.wsync).getLastD 0)) = d at l1
  omega

/-- A W-domain clock edge leaves the read view no further behind (R79, R81). -/
theorem wClock_behind {c : Config} {I : Inst} (h : I.Inv c) (hc : c.wf) (ha : c.cdc = .async) (hr : I.ready = true) :
    dist I.size (I.wClock c).rv I.r ≤ dist I.size I.rv I.r := by
  have h2 := Inst.Inv.wClock h hc ha
  have hg : I.GrayAgrees c := by simpa [Inst.ViewsAgree, ha] using h.views hr
  have hready : (I.wClock c).ready = true := by
    unfold Inst.wClock; simp only [hr, if_true]; exact hr
  have hg2 : (I.wClock c).GrayAgrees c := by simpa [Inst.ViewsAgree, ha] using h2.views hready
  obtain ⟨d, hd, hcross⟩ := hg.read.sample (stages_of_wf hc)
  have l2 := hg2.read.last
  have e : (I.wClock c).rsync = sample I.rg I.rsync ∧ (I.wClock c).rcnt = I.rcnt ∧ (I.wClock c).size = I.size ∧ (I.wClock c).r = I.r := by
    unfold Inst.wClock; simp only [hr, if_true, and_self]
  rw [e.1, e.2.1, e.2.2.1, e.2.2.2] at l2
  have l1 := hcross.last
  change behind c.capW I.rcnt (ungray c.capW ((sample I.rg I.rsync).getLastD 0)) = d at l1
  omega

/-- What a byte reads after hardware reset: free where a range covers it, unchanged elsewhere (R301). -/
theorem havoc_fold (l : List (Nat × Nat)) (m : Memory) (d : Nat) (hm : Memory.wf m) (x : Nat) :
    ((∀ p ∈ l, x < p.1 ∨ p.1 + p.2 ≤ x) → Memory.read (l.foldl havoc (m, d)).1 x = Memory.read m x) ∧
    ((∃ e, Memory.read m x = Config.freeByte e) ∨ (∃ p ∈ l, p.1 ≤ x ∧ x < p.1 + p.2) → ∃ e, Memory.read (l.foldl havoc (m, d)).1 x = Config.freeByte e) := by
  induction l generalizing m d with
  | nil => refine ⟨fun _ => rfl, fun h => ?_⟩; rcases h with h | ⟨p, h, _⟩; exacts [h, by simp at h]
  | cons p l ih =>
    obtain ⟨a, n⟩ := p
    have hw := Memory.wf_writeBytes a ((List.range n).map fun j => Config.freeByte (d + j)) hm
    obtain ⟨i1, i2⟩ := ih (m.writeBytes a ((List.range n).map fun j => Config.freeByte (d + j))) (d + n) hw
    have hr := Memory.read_writeBytes hm a ((List.range n).map fun j => Config.freeByte (d + j)) x
    simp only [List.foldl_cons]
    change _ ∧ (_ → ∃ e, Memory.read (l.foldl havoc (havoc (m, d) (a, n))).1 x = _)
    have e0 : havoc (m, d) (a, n) = (m.writeBytes a ((List.range n).map fun j => Config.freeByte (d + j)), d + n) := rfl
    rw [e0]
    refine ⟨fun h => ?_, fun h => i2 ?_⟩
    · rw [i1 fun p hp => h p (List.mem_cons_of_mem _ hp), hr, if_neg]
      have := h (a, n) List.mem_cons_self
      simp at *; omega
    · by_cases hin : a ≤ x ∧ x < a + n
      · left; rw [hr, if_pos (by simpa using hin)]
        refine ⟨d + (x - a), ?_⟩
        rw [List.getD_eq_getElem?_getD, List.getElem?_eq_getElem (by simp; omega)]
        simp
      · rcases h with h | ⟨p, hp, h⟩
        · left; rw [hr, if_neg (by simpa using hin)]; exact h
        · rcases List.mem_cons.mp hp with rfl | hp
          · exact absurd h hin
          · exact .inr ⟨p, hp, h⟩

theorem synced_resync (I : Inst) : I.resync.synced = true := by simp [Inst.synced, Inst.resync]

theorem inst_setSched (s : State) (l : List Action) (j : Nat) : State.inst { s with sched := l } j = s.inst j := rfl

end Sys2Proof.Machine
end

