-- ==== Sys2Proof/Laws/Move.lean ====
section
/-! SUPPORT. The chunk loop of `MOVE` (R233 to R236), said once. -/

namespace Sys2Proof.Machine

/-- One chunk's two commits of `MOVE` from `sc` to `d` (R233). -/
def chunkCommits (d sc c : Nat) (s : State) : State := (s.commitW d (s.inst d).w c).commitR sc (s.inst sc).r c

/-- What the chunk loop of `MOVE` with a budget of `b` needs: two ready instances with cursors in range, `b` bytes in the source and `b` free slots in the destination (R233). -/
structure MoveOk (d sc b : Nat) (s : State) : Prop where
  dl : d < s.insts.length
  sl : sc < s.insts.length
  dr : (s.inst d).ready = true
  sr : (s.inst sc).ready = true
  dcr : (s.inst d).r < (s.inst d).size
  dcw : (s.inst d).w < (s.inst d).size
  scr : (s.inst sc).r < (s.inst sc).size
  scw : (s.inst sc).w < (s.inst sc).size
  occ : b ≤ dist (s.inst sc).size (s.inst sc).r (s.inst sc).w
  free : b ≤ (s.inst d).size - 1 - dist (s.inst d).size (s.inst d).r (s.inst d).w

theorem chunkCommits_d {d sc c : Nat} {s : State} (hd : d < s.insts.length) (hs : sc < s.insts.length) (hne : d ≠ sc) :
    (chunkCommits d sc c s).inst d = (s.inst d).commitW s.cfg s.site.port (s.inst d).w c := by
  unfold chunkCommits State.commitR
  rw [State.inst_modInst_ne _ _ _ _ hne]
  exact s.inst_modInst_same _ _ hd

theorem chunkCommits_s {d sc c : Nat} {s : State} (hd : d < s.insts.length) (hs : sc < s.insts.length) (hne : d ≠ sc) :
    (chunkCommits d sc c s).inst sc = (s.inst sc).commitR s.cfg s.site.port (s.inst sc).r c := by
  unfold chunkCommits State.commitR
  rw [State.inst_modInst_same _ _ _ (by simpa using hs)]
  unfold State.commitW
  rw [State.inst_modInst_ne _ _ _ _ (Ne.symm hne)]; rfl

theorem chunkCommits_same {d c : Nat} {s : State} (hd : d < s.insts.length) :
    (chunkCommits d d c s).inst d = ((s.inst d).commitW s.cfg s.site.port (s.inst d).w c).commitR s.cfg s.site.port (s.inst d).r c := by
  unfold chunkCommits State.commitR
  rw [State.inst_modInst_same _ _ _ (by simpa using hd)]
  unfold State.commitW
  rw [State.inst_modInst_same _ _ _ hd]; rfl

theorem linRLen_eq {I : Inst} (h : I.ready = true) : I.linRLen I.r I.w = if I.r < I.w then I.w - I.r else if I.w < I.r then I.size - I.r else 0 := by
  simp [Inst.linRLen, h]

theorem linWLen_eq {I : Inst} (h : I.ready = true) : I.linWLen I.r I.w = if I.r ≤ I.w then (if I.r = 0 then I.size - I.w - 1 else I.size - I.w) else I.r - I.w - 1 := by
  simp [Inst.linWLen, h]

/-- The length of the next chunk (R233). -/
abbrev chunk (d sc b : Nat) (s : State) : Nat := min (min ((s.inst sc).linRLen (s.inst sc).r (s.inst sc).w) ((s.inst d).linWLen (s.inst d).r (s.inst d).w)) b

/-- A chunk fits the budget and both linear blocks, and is 0 only when the budget is (R207, R235). -/
theorem chunk_le {d sc b : Nat} {s : State} (h : MoveOk d sc b s) :
    chunk d sc b s ≤ b ∧ (s.inst sc).r + chunk d sc b s ≤ (s.inst sc).size ∧ (s.inst d).w + chunk d sc b s ≤ (s.inst d).size ∧
    (b ≠ 0 → chunk d sc b s ≠ 0) ∧ b < (s.inst d).size ∧ b < (s.inst sc).size := by
  obtain ⟨-, -, dr, sr, a1, a2, a3, a4, ho, hf⟩ := h
  rw [dist_eq a3 a4] at ho
  rw [dist_eq a1 a2] at hf
  unfold chunk
  rw [linRLen_eq sr, linWLen_eq dr]
  split_ifs at * <;> omega

/-- A chunk's commits leave what the loop needs for the rest of the budget. -/
theorem chunkCommits_ok {d sc b : Nat} {s : State} (h : MoveOk d sc b s) :
    MoveOk d sc (b - chunk d sc b s) (chunkCommits d sc (chunk d sc b s) s) ∧
    ((chunkCommits d sc (chunk d sc b s) s).inst d).base = (s.inst d).base ∧
    ((chunkCommits d sc (chunk d sc b s) s).inst d).size = (s.inst d).size ∧
    ((chunkCommits d sc (chunk d sc b s) s).inst sc).base = (s.inst sc).base ∧
    ((chunkCommits d sc (chunk d sc b s) s).inst sc).size = (s.inst sc).size ∧
    ((chunkCommits d sc (chunk d sc b s) s).inst d).w = ((s.inst d).w + chunk d sc b s) % (s.inst d).size ∧
    ((chunkCommits d sc (chunk d sc b s) s).inst sc).r = ((s.inst sc).r + chunk d sc b s) % (s.inst sc).size := by
  obtain ⟨h1, h2, h3, h4, h5, h6⟩ := chunk_le h
  generalize chunk d sc b s = c at *
  have hl : (chunkCommits d sc c s).insts.length = s.insts.length := by simp [chunkCommits]
  obtain ⟨dl, sl, dr, sr, a1, a2, a3, a4, ho, hf⟩ := h
  by_cases hne : d = sc
  · subst hne
    have e := chunkCommits_same (c := c) dl
    have hw : wrap (s.inst d).size ((s.inst d).w + c) < (s.inst d).size := wrap_lt (by omega)
    have hr : wrap (s.inst d).size ((s.inst d).r + c) < (s.inst d).size := wrap_lt (by omega)
    have hdd : dist (s.inst d).size (wrap (s.inst d).size ((s.inst d).r + c)) (wrap (s.inst d).size ((s.inst d).w + c)) = dist (s.inst d).size (s.inst d).r (s.inst d).w := by
      rw [dist_eq hr hw, dist_eq a1 a2]
      unfold wrap
      split_ifs <;> omega
    refine ⟨⟨by omega, by omega, ?_, ?_, ?_, ?_, ?_, ?_, ?_, ?_⟩, ?_, ?_, ?_, ?_, ?_, ?_⟩ <;> rw [e] <;> simp only [Inst.commitR_base, Inst.commitR_size, Inst.commitR_r, Inst.commitR_w, Inst.commitR_ready, Inst.commitW_base, Inst.commitW_size, Inst.commitW_r, Inst.commitW_w, Inst.commitW_ready, hdd]
    all_goals first | assumption | omega | (exact wrap_eq_mod (by omega)) | skip
  · have ed := chunkCommits_d (c := c) dl sl hne
    have es := chunkCommits_s (c := c) dl sl hne
    have hw : wrap (s.inst d).size ((s.inst d).w + c) < (s.inst d).size := wrap_lt (by omega)
    have hr : wrap (s.inst sc).size ((s.inst sc).r + c) < (s.inst sc).size := wrap_lt (by omega)
    have hq := dist_lt (a := (s.inst d).r) (b := (s.inst d).w) (S := (s.inst d).size) (by omega)
    have hd1 : dist (s.inst d).size (s.inst d).r (wrap (s.inst d).size ((s.inst d).w + c)) = dist (s.inst d).size (s.inst d).r (s.inst d).w + c :=
      dist_advance a1 a2 (by omega)
    have hd2 : dist (s.inst sc).size (wrap (s.inst sc).size ((s.inst sc).r + c)) (s.inst sc).w = dist (s.inst sc).size (s.inst sc).r (s.inst sc).w - c :=
      dist_catchup a3 a4 (by omega)
    refine ⟨⟨by omega, by omega, ?_, ?_, ?_, ?_, ?_, ?_, ?_, ?_⟩, ?_, ?_, ?_, ?_, ?_, ?_⟩ <;> (first | rw [ed] | rw [es]) <;> simp only [Inst.commitR_base, Inst.commitR_size, Inst.commitR_r, Inst.commitR_w, Inst.commitR_ready, Inst.commitW_base, Inst.commitW_size, Inst.commitW_r, Inst.commitW_w, Inst.commitW_ready, hd1, hd2]
    all_goals first | assumption | omega | (exact wrap_eq_mod (by omega)) | skip

/-- The chunks of the loop, in order. -/
def chunksOf (d sc : Nat) : Nat → Nat → State → List Nat
  | 0, _, _ => []
  | f + 1, b, s => if b = 0 then [] else chunk d sc b s :: chunksOf d sc f (b - chunk d sc b s) (chunkCommits d sc (chunk d sc b s) s)

theorem chunkCommits_setMem (d sc c : Nat) (s : State) (m : Memory) : chunkCommits d sc c { s with mem := m } = { chunkCommits d sc c s with mem := m } := rfl

theorem inst_chunkCommits_mem (d sc c : Nat) (s : State) (m : Memory) (i : Nat) : (State.inst { chunkCommits d sc c s with mem := m } i) = (chunkCommits d sc c s).inst i := rfl

theorem chunksOf_setMem (d sc : Nat) (m : Memory) (f b : Nat) (s : State) : chunksOf d sc f b { s with mem := m } = chunksOf d sc f b s := by
  induction f generalizing b s with
  | zero => rfl
  | succ f ih =>
    simp only [chunksOf]
    split
    · rfl
    · have : chunk d sc b { s with mem := m } = chunk d sc b s := rfl
      rw [this, chunkCommits_setMem, ih]

/-- The commits of a list of chunks. -/
def chunksCommits (d sc : Nat) (cs : List Nat) (s : State) : State := cs.foldl (fun t c => chunkCommits d sc c t) s

theorem chunksCommits_setMem (d sc : Nat) (cs : List Nat) (s : State) (m : Memory) : chunksCommits d sc cs { s with mem := m } = { chunksCommits d sc cs s with mem := m } := by
  induction cs generalizing s with
  | nil => rfl
  | cons c cs ih => simp only [chunksCommits, List.foldl_cons, chunkCommits_setMem]; exact ih _

theorem MoveOk.setMem {d sc b : Nat} {s : State} (h : MoveOk d sc b s) (m : Memory) : MoveOk d sc b { s with mem := m } :=
  ⟨h.dl, h.sl, h.dr, h.sr, h.dcr, h.dcw, h.scr, h.scw, h.occ, h.free⟩

/-- The whole loop: it ends with `DONE`, its commits are those of its chunks, the chunks add up to the budget, and the bytes of the source stand in order in the destination (R233, R235). -/
theorem moveLoop_spec (d sc : Nat) (f b : Nat) (s : State) (h : MoveOk d sc b s) (hf : b ≤ f) (hm : Memory.wf s.mem)
    (hdis : ∀ k < b, ∀ j < b, slotAddr (s.inst sc) (s.inst sc).r k ≠ slotAddr (s.inst d) (s.inst d).w j) :
    ∃ t, moveLoop d sc f b s = (t, .done) ∧ t = { chunksCommits d sc (chunksOf d sc f b s) s with mem := t.mem } ∧
      (chunksOf d sc f b s).sum = b ∧ (∀ n ∈ chunksOf d sc f b s, 0 < n) ∧ Memory.wf t.mem ∧
      (∀ k < b, Memory.read t.mem (slotAddr (s.inst d) (s.inst d).w k) = Memory.read s.mem (slotAddr (s.inst sc) (s.inst sc).r k)) ∧
      (∀ x, (∀ k < b, x ≠ slotAddr (s.inst d) (s.inst d).w k) → Memory.read t.mem x = Memory.read s.mem x) := by
  induction f generalizing b s with
  | zero =>
    have : b = 0 := by omega
    subst this
    exact ⟨s, by simp [moveLoop], rfl, rfl, by simp [chunksOf], hm, by simp, by simp⟩
  | succ f ih =>
    by_cases hb : b = 0
    · subst hb
      exact ⟨s, by simp [moveLoop], by simp [chunksOf, chunksCommits], by simp [chunksOf], by simp [chunksOf], hm, by simp, by simp⟩
    obtain ⟨h1, h2, h3, h4, h5, h6⟩ := chunk_le h
    obtain ⟨hok, e1, e2, e3, e4, e5, e6⟩ := chunkCommits_ok h
    have hc0 := h4 hb
    let m' := s.mem.writeBytes ((s.inst d).base + (s.inst d).w) (s.mem.readBytes ((s.inst sc).base + (s.inst sc).r) (chunk d sc b s))
    have hm' : Memory.wf m' := Memory.wf_writeBytes _ _ hm
    have hread : ∀ x, Memory.read m' x = if (s.inst d).base + (s.inst d).w ≤ x ∧ x < (s.inst d).base + (s.inst d).w + chunk d sc b s
        then Memory.read s.mem ((s.inst sc).base + (s.inst sc).r + (x - ((s.inst d).base + (s.inst d).w))) else Memory.read s.mem x := by
      intro x
      rw [Memory.read_writeBytes hm, Memory.length_readBytes]
      split
      · rw [List.getD_eq_getElem?_getD, List.getElem?_eq_getElem (by rw [Memory.length_readBytes]; omega), Memory.getElem_readBytes]
        rfl
      · rfl
    have hmid : ∀ k < b, Memory.read m' (slotAddr (s.inst sc) (s.inst sc).r k) = Memory.read s.mem (slotAddr (s.inst sc) (s.inst sc).r k) := by
      intro k hk
      rw [hread, if_neg]
      rintro ⟨q1, q2⟩
      refine hdis k hk (slotAddr (s.inst sc) (s.inst sc).r k - ((s.inst d).base + (s.inst d).w)) (by omega) ?_
      rw [slot_lin (I := s.inst d) (by omega)]; omega
    have hok' := hok.setMem m'
    obtain ⟨t, g1, g2, g3, g4, g5, g6, g7⟩ := ih (b - chunk d sc b s) { chunkCommits d sc (chunk d sc b s) s with mem := m' } hok' (by omega) hm' (by
      intro k hk j hj
      simp only [inst_chunkCommits_mem, e5, e6]
      rw [slot_shift e3 e4, slot_shift e1 e2]
      exact hdis _ (by omega) _ (by omega))
    rw [chunksOf_setMem] at g2 g3 g4
    rw [chunksCommits_setMem] at g2
    simp only [inst_chunkCommits_mem, e5, e6] at g6 g7
    refine ⟨t, ?_, ?_, ?_, ?_, g5, ?_, ?_⟩
    · unfold moveLoop
      rw [if_neg hb]
      simp only
      rw [if_neg hc0]
      exact g1
    · simp only [chunksOf, if_neg hb]
      exact g2
    · simp only [chunksOf, if_neg hb, List.sum_cons, g3]; omega
    · simp only [chunksOf, if_neg hb, List.mem_cons]
      rintro n (rfl | hn)
      · omega
      · exact g4 n hn
    · intro k hk
      by_cases hkc : k < chunk d sc b s
      · rw [g7 _ (by
          intro j hj
          rw [slot_shift e1 e2, slot_lin (by omega)]
          unfold slotAddr
          rcases Nat.lt_or_ge ((s.inst d).w + (j + chunk d sc b s)) (s.inst d).size with hh | hh
          · rw [Nat.mod_eq_of_lt hh]; omega
          · rw [Nat.mod_eq_sub_mod hh, Nat.mod_eq_of_lt (by have := h.dcw; omega)]; omega)]
        rw [slot_lin (by omega), slot_lin (by omega), hread, if_pos (by omega)]
        congr 1; omega
      · have := g6 (k - chunk d sc b s) (by omega)
        rw [slot_shift e1 e2, slot_shift e3 e4, show k - chunk d sc b s + chunk d sc b s = k by omega] at this
        rw [this]; exact hmid k hk
    · intro x hx
      rw [g7 x (by
        intro k hk
        rw [slot_shift e1 e2]; exact hx _ (by omega))]
      rw [hread, if_neg]
      rintro ⟨q1, q2⟩
      refine hx (x - ((s.inst d).base + (s.inst d).w)) (by omega) ?_
      rw [slot_lin (by omega)]; omega

theorem chunkCommits_cfg (d sc c : Nat) (s : State) : (chunkCommits d sc c s).cfg = s.cfg := rfl

/-- What the loop has done to its two instances once `p` bytes are moved from `S` to `D` (R233, R236). -/
structure Moved (d sc : Nat) (D S : Inst) (p : Nat) (s : State) : Prop where
  dbase : (s.inst d).base = D.base
  dsize : (s.inst d).size = D.size
  sbase : (s.inst sc).base = S.base
  ssize : (s.inst sc).size = S.size
  dw : (s.inst d).w = (D.w + p) % D.size
  sr : (s.inst sc).r = (S.r + p) % S.size
  dr : (s.inst d).r = if d = sc then (D.r + p) % D.size else D.r
  sw : (s.inst sc).w = if d = sc then (S.w + p) % S.size else S.w

/-- The next chunk is the one that `moveChunks` lists. -/
theorem Moved.chunk_eq {d sc : Nat} {D S : Inst} {p b : Nat} {s : State} (h : Moved d sc D S p s) (hok : MoveOk d sc b s)
    (hD : D.ready = true) (hS : S.ready = true) :
    chunk d sc b s = min (min (S.linRLen ((S.r + p) % S.size) (if d = sc then (S.w + p) % S.size else S.w))
      (D.linWLen (if d = sc then (D.r + p) % D.size else D.r) ((D.w + p) % D.size))) b := by
  unfold chunk Inst.linRLen Inst.linWLen
  rw [hok.sr, hok.dr, hD, hS, h.dw, h.sr, h.dr, h.sw, h.dsize, h.ssize]

/-- One chunk further. -/
theorem Moved.next {d sc : Nat} {D S : Inst} {p b : Nat} {s : State} (h : Moved d sc D S p s) (hok : MoveOk d sc b s) :
    Moved d sc D S (p + chunk d sc b s) (chunkCommits d sc (chunk d sc b s) s) := by
  obtain ⟨-, h2, h3, -, -, -⟩ := chunk_le hok
  obtain ⟨-, e1, e2, e3, e4, e5, e6⟩ := chunkCommits_ok hok
  generalize chunk d sc b s = c at *
  refine ⟨e1.trans h.dbase, e2.trans h.dsize, e3.trans h.sbase, e4.trans h.ssize, ?_, ?_, ?_, ?_⟩
  · rw [e5, h.dw, h.dsize, Nat.mod_add_mod, Nat.add_assoc]
  · rw [e6, h.sr, h.ssize, Nat.mod_add_mod, Nat.add_assoc]
  · by_cases hne : d = sc
    · subst hne
      rw [if_pos rfl, e6, h.dr, if_pos rfl, h.dsize, Nat.mod_add_mod, Nat.add_assoc]
    · have := h.dr
      rw [if_neg hne] at this ⊢
      rw [chunkCommits_d hok.dl hok.sl hne, Inst.commitW_r, this]
  · by_cases hne : d = sc
    · subst hne
      rw [if_pos rfl, e5, h.sw, if_pos rfl, h.ssize, Nat.mod_add_mod, Nat.add_assoc]
    · have := h.sw
      rw [if_neg hne] at this ⊢
      rw [chunkCommits_s hok.dl hok.sl hne, Inst.commitR_w, this]

/-- The loop's chunks and accesses are those that R233 lists. -/
theorem moveChunks_eq {d sc : Nat} {D S : Inst} (hD : D.ready = true) (hS : S.ready = true) (f b p : Nat) (s : State)
    (h : Moved d sc D S p s) (hok : MoveOk d sc b s) :
    moveChunks (decide (d = sc)) D S f p b = chunksOf d sc f b s ∧
    moveAccesses d sc f b s = chunkAccesses D S p (chunksOf d sc f b s) := by
  induction f generalizing b p s with
  | zero => exact ⟨rfl, rfl⟩
  | succ f ih =>
    unfold moveChunks chunksOf moveAccesses
    by_cases hb : b = 0
    · simp [hb, chunkAccesses]
    obtain ⟨-, -, -, c4, -, -⟩ := chunk_le hok
    obtain ⟨hok', -⟩ := chunkCommits_ok hok
    obtain ⟨i1, i2⟩ := ih _ _ _ (h.next hok) hok'
    have hc := h.chunk_eq hok hD hS
    simp only [if_neg hb, if_neg (c4 hb), decide_eq_true_eq, ← hc]
    refine ⟨by rw [i1], ?_⟩
    unfold chunkAccesses
    rw [← h.sbase, ← h.dbase, ← h.sr, ← h.dw]
    exact congrArg _ (congrArg _ i2)

theorem Moved.start {d sc : Nat} {s : State} {b : Nat} (hok : MoveOk d sc b s) : Moved d sc (s.inst d) (s.inst sc) 0 s := by
  refine ⟨rfl, rfl, rfl, rfl, ?_, ?_, ?_, ?_⟩ <;> simp only [Nat.add_zero]
  · exact (Nat.mod_eq_of_lt hok.dcw).symm
  · exact (Nat.mod_eq_of_lt hok.scr).symm
  · rw [Nat.mod_eq_of_lt hok.dcr]; simp
  · rw [Nat.mod_eq_of_lt hok.scw]; simp

/-- The chunks and the accesses of a whole `MOVE` (R233). -/
theorem move_chunks {d sc b : Nat} {s : State} (hok : MoveOk d sc b s) :
    moveChunks (decide (d = sc)) (s.inst d) (s.inst sc) b 0 b = chunksOf d sc b b s ∧
    moveAccesses d sc b b s = chunkAccesses (s.inst d) (s.inst sc) 0 (moveChunks (decide (d = sc)) (s.inst d) (s.inst sc) b 0 b) := by
  obtain ⟨h1, h2⟩ := moveChunks_eq hok.dr hok.sr b b 0 s (Moved.start hok) hok
  exact ⟨h1, by rw [h2, h1]⟩

/-- Two ready instances under the invariant are ready for the loop with their budget. -/
theorem move_ok {s : State} {d sc : Nat} (hI : s.Inv) (hd : d < s.insts.length) (hs : sc < s.insts.length)
    (hdr : (s.inst d).ready = true) (hsr : (s.inst sc).ready = true) : MoveOk d sc (moveBudget (s.inst d) (s.inst sc)) s := by
  have c1 := (hI.insts _ (s.inst_mem _ hd)).cursors hdr
  have c2 := (hI.insts _ (s.inst_mem _ hs)).cursors hsr
  refine ⟨hd, hs, hdr, hsr, c1.r, c1.w, c2.r, c2.w, ?_, ?_⟩
  · unfold moveBudget
    rw [← Inst.occ_eq_dist hsr c2.r c2.w]; omega
  · unfold moveBudget
    rw [← Inst.free_eq_dist hdr c1.r c1.w]; omega

/-- The loop never stops on a zero chunk (R235). -/
theorem moveLoop_code (d sc : Nat) (f b : Nat) (s : State) (h : MoveOk d sc b s) (hf : b ≤ f) : (moveLoop d sc f b s).2 = .done := by
  induction f generalizing b s with
  | zero =>
    have : b = 0 := by omega
    simp [moveLoop, this]
  | succ f ih =>
    unfold moveLoop
    by_cases hb : b = 0
    · simp [hb]
    obtain ⟨c1, c2, c3, c4, c5, c6⟩ := chunk_le h
    obtain ⟨hok, e1, e2, e3, e4, e5, e6⟩ := chunkCommits_ok h
    rw [if_neg hb]
    simp only
    rw [if_neg (c4 hb)]
    have := c4 hb
    exact ih _ { chunkCommits d sc (chunk d sc b s) s with mem := _ } (hok.setMem _) (by unfold chunk at *; omega)

theorem herePort_finish_code (s : State) (i : Instr) (code : Code) (h : s.site.inst < s.insts.length) : (s.finish i code).herePort.code = code := by
  change (((s.finish i code).inst (s.finish i code).site.inst).port (s.finish i code).site.port).code = code
  simp only [State.finish_site]
  rw [State.here_finish s i code h, Inst.port_setPort_same]

/-- The loop changes only its two instances and memory. -/
theorem moveLoop_frame (d sc : Nat) (f b : Nat) (s : State) : Elsewhere s (moveLoop d sc f b s).1 [d, sc] := by
  induction f generalizing b s with
  | zero => exact .refl _ _
  | succ f ih =>
    unfold moveLoop
    split
    · exact .refl _ _
    · simp only
      split
      · exact .refl _ _
      · refine Elsewhere.trans (t := _) ?_ (ih _ _)
        refine ((Elsewhere.setMem s _ _).trans (.modInst _ d _ (by simp))).trans (.modInst _ sc _ (by simp))

/-- `J` has the setup, cursors, counts and history of `K`, and the ports and crossings of `I`. -/
structure Carries (I K J : Inst) : Prop where
  fifo : SameFifo K J
  ports : ∀ p, J.port p = I.port p
  cross : SameCrossings I J

/-- Advancing a count twice. -/
theorem countPlus_add (c : Config) (x n m : Nat) : countPlus c (countPlus c x n) m = countPlus c x (n + m) := by
  unfold countPlus; rw [Nat.mod_add_mod, Nat.add_assoc]

theorem countPlus_zero {c : Config} {x : Nat} (h : x < 2 ^ c.capW) : countPlus c x 0 = x := by
  unfold countPlus; rw [Nat.add_zero, Nat.mod_eq_of_lt h]

/-- The destination after chunks `cs` of `n` bytes in all. -/
def movedIn (c : Config) (D : Inst) (n : Nat) (cs : List Nat) : Inst :=
  { D with w := (D.w + n) % D.size, wcnt := countPlus c D.wcnt n,
           events := if D.evtEn = true then D.events ++ cs.map (fun n => ⟨.x, .write, n⟩) else D.events }

/-- The source after chunks `cs` of `n` bytes in all. -/
def movedOut (c : Config) (S : Inst) (n : Nat) (cs : List Nat) : Inst :=
  { S with r := (S.r + n) % S.size, rcnt := countPlus c S.rcnt n,
           events := if S.evtEn = true then S.events ++ cs.map (fun n => ⟨.x, .read, n⟩) else S.events }

/-- An instance that is both, after chunks `cs` of `n` bytes in all (R236). -/
def rotated (c : Config) (I : Inst) (n : Nat) (cs : List Nat) : Inst :=
  { I with r := (I.r + n) % I.size, rcnt := countPlus c I.rcnt n, w := (I.w + n) % I.size, wcnt := countPlus c I.wcnt n,
           events := if I.evtEn = true then I.events ++ cs.flatMap (fun n => [⟨.x, .write, n⟩, ⟨.x, .read, n⟩]) else I.events }

theorem carries_commitW {c : Config} {I J : Inst} {n m : Nat} {cs : List Nat} (h : Carries I (movedIn c I n cs) J) (hm : 0 < m) (hs : m < I.size) :
    Carries I (movedIn c I (n + m) (cs ++ [m])) (J.commitW c .x J.w m) := by
  have hw : (I.w + n) % I.size < I.size := Nat.mod_lt _ (by omega)
  refine ⟨⟨?_, ?_, ?_, ?_, ?_, ?_, ?_, ?_, ?_⟩, fun p => by rw [Inst.commitW_port, h.ports], ⟨?_, ?_, ?_, ?_⟩⟩
  · rw [Inst.commitW_base]; exact h.fifo.base
  · rw [Inst.commitW_size]; exact h.fifo.size
  · rw [Inst.commitW_r]; exact h.fifo.r
  · simp only [Inst.commitW_w]; rw [h.fifo.w, h.fifo.size]; simp only [movedIn]
    rw [wrap_eq_mod (by omega), Nat.mod_add_mod, Nat.add_assoc]
  · simp only [Inst.commitW_wcnt]; rw [h.fifo.wcnt, bumpCount_eq]; simp only [movedIn, countPlus_add]
  · rw [Inst.commitW_rcnt]; exact h.fifo.rcnt
  · rw [Inst.commitW_evtEn]; exact h.fifo.evtEn
  · rw [Inst.commitW_tag]; exact h.fifo.tag
  · rw [Inst.commitW_events, h.fifo.events, h.fifo.evtEn]; simp only [movedIn]
    by_cases he : I.evtEn = true <;> simp [he]; omega
  · simpa using h.cross.wpub
  · simpa using h.cross.rpub
  · simpa using h.cross.wsync
  · simpa using h.cross.rsync

theorem carries_commitR {c : Config} {I J : Inst} {n m : Nat} {cs : List Nat} (h : Carries I (movedOut c I n cs) J) (hm : 0 < m) (hs : m < I.size) :
    Carries I (movedOut c I (n + m) (cs ++ [m])) (J.commitR c .x J.r m) := by
  have hw : (I.r + n) % I.size < I.size := Nat.mod_lt _ (by omega)
  refine ⟨⟨?_, ?_, ?_, ?_, ?_, ?_, ?_, ?_, ?_⟩, fun p => by rw [Inst.commitR_port, h.ports], ⟨?_, ?_, ?_, ?_⟩⟩
  · rw [Inst.commitR_base]; exact h.fifo.base
  · rw [Inst.commitR_size]; exact h.fifo.size
  · simp only [Inst.commitR_r]; rw [h.fifo.r, h.fifo.size]; simp only [movedOut]
    rw [wrap_eq_mod (by omega), Nat.mod_add_mod, Nat.add_assoc]
  · rw [Inst.commitR_w]; exact h.fifo.w
  · rw [Inst.commitR_wcnt]; exact h.fifo.wcnt
  · simp only [Inst.commitR_rcnt]; rw [h.fifo.rcnt, bumpCount_eq]; simp only [movedOut, countPlus_add]
  · rw [Inst.commitR_evtEn]; exact h.fifo.evtEn
  · rw [Inst.commitR_tag]; exact h.fifo.tag
  · rw [Inst.commitR_events, h.fifo.events, h.fifo.evtEn]; simp only [movedOut]
    by_cases he : I.evtEn = true <;> simp [he]; omega
  · simpa using h.cross.wpub
  · simpa using h.cross.rpub
  · simpa using h.cross.wsync
  · simpa using h.cross.rsync

theorem carries_commitBoth {c : Config} {I J : Inst} {n m : Nat} {cs : List Nat} (h : Carries I (rotated c I n cs) J) (hm : 0 < m) (hs : m < I.size) :
    Carries I (rotated c I (n + m) (cs ++ [m])) ((J.commitW c .x J.w m).commitR c .x J.r m) := by
  have hw : (I.w + n) % I.size < I.size := Nat.mod_lt _ (by omega)
  have hr : (I.r + n) % I.size < I.size := Nat.mod_lt _ (by omega)
  refine ⟨⟨?_, ?_, ?_, ?_, ?_, ?_, ?_, ?_, ?_⟩, fun p => by rw [Inst.commitR_port, Inst.commitW_port, h.ports], ⟨?_, ?_, ?_, ?_⟩⟩
  · rw [Inst.commitR_base, Inst.commitW_base]; exact h.fifo.base
  · rw [Inst.commitR_size, Inst.commitW_size]; exact h.fifo.size
  · simp only [Inst.commitR_r, Inst.commitW_size]; rw [h.fifo.r, h.fifo.size]; simp only [rotated]
    rw [wrap_eq_mod (by omega), Nat.mod_add_mod, Nat.add_assoc]
  · simp only [Inst.commitR_w, Inst.commitW_w]; rw [h.fifo.w, h.fifo.size]; simp only [rotated]
    rw [wrap_eq_mod (by omega), Nat.mod_add_mod, Nat.add_assoc]
  · simp only [Inst.commitR_wcnt, Inst.commitW_wcnt]; rw [h.fifo.wcnt, bumpCount_eq]; simp only [rotated, countPlus_add]
  · simp only [Inst.commitR_rcnt, Inst.commitW_rcnt]; rw [h.fifo.rcnt, bumpCount_eq]; simp only [rotated, countPlus_add]
  · rw [Inst.commitR_evtEn, Inst.commitW_evtEn]; exact h.fifo.evtEn
  · rw [Inst.commitR_tag, Inst.commitW_tag]; exact h.fifo.tag
  · rw [Inst.commitR_events, Inst.commitW_events, Inst.commitW_evtEn, h.fifo.events, h.fifo.evtEn]; simp only [rotated]
    by_cases he : I.evtEn = true
    · have : m ≠ 0 := by omega
      simp [he, this]
    · simp [he]
  · simpa using h.cross.wpub
  · simpa using h.cross.rpub
  · simpa using h.cross.wsync
  · simpa using h.cross.rsync

theorem chunkCommits_length (d sc c : Nat) (s : State) : (chunkCommits d sc c s).insts.length = s.insts.length := by simp [chunkCommits]

theorem elsewhere_chunkCommits (d sc c : Nat) (s : State) {js : List Nat} (h1 : d ∈ js) (h2 : sc ∈ js) : Elsewhere s (chunkCommits d sc c s) js := by
  unfold chunkCommits State.commitR State.commitW
  exact (Elsewhere.modInst s d _ h1).trans (Elsewhere.modInst _ sc _ h2)

theorem elsewhere_setRes0 (t : State) (v : Nat) {js : List Nat} (h : t.site.inst ∈ js) : Elsewhere t (t.setRes0 v) js := by
  unfold State.setRes0 State.modPort
  exact Elsewhere.modInst t _ _ h

theorem fifo_resync_setPort (I : Inst) (p : Port) (q : PortState) : SameFifo I (I.resync.setPort p q) :=
  SameFifo.trans (B := I.resync) ⟨rfl, rfl, rfl, rfl, rfl, rfl, rfl, rfl, rfl⟩ (.setPort _ _ _)

/-- The commits of the chunks on two instances. -/
theorem chunksCommits_ne (d sc : Nat) (hne : d ≠ sc) (c : Config) (D S : Inst) (cs : List Nat) (s : State) (n : Nat) (pre : List Nat)
    (hd : d < s.insts.length) (hs : sc < s.insts.length) (hp : s.site.port = .x) (hcfg : s.cfg = c)
    (hpos : ∀ m ∈ cs, 0 < m ∧ m < D.size ∧ m < S.size) (h1 : Carries D (movedIn c D n pre) (s.inst d)) (h2 : Carries S (movedOut c S n pre) (s.inst sc)) :
    Carries D (movedIn c D (n + cs.sum) (pre ++ cs)) ((chunksCommits d sc cs s).inst d) ∧ Carries S (movedOut c S (n + cs.sum) (pre ++ cs)) ((chunksCommits d sc cs s).inst sc) ∧
    Elsewhere s (chunksCommits d sc cs s) [d, sc] := by
  induction cs generalizing s n pre with
  | nil => simp only [chunksCommits, List.foldl_nil, List.sum_nil, List.append_nil, Nat.add_zero]; exact ⟨h1, h2, .refl _ _⟩
  | cons m cs ih =>
    obtain ⟨p1, p2, p3⟩ := hpos m (by simp)
    have := ih (chunkCommits d sc m s) (n + m) (pre ++ [m]) (by rw [chunkCommits_length]; exact hd) (by rw [chunkCommits_length]; exact hs) hp hcfg
      (fun x hx => hpos x (by simp [hx]))
      (by rw [chunkCommits_d hd hs hne, hcfg, hp]; exact carries_commitW h1 p1 p2) (by rw [chunkCommits_s hd hs hne, hcfg, hp]; exact carries_commitR h2 p1 p3)
    simp only [List.append_assoc, List.singleton_append, Nat.add_assoc] at this
    simp only [List.sum_cons]
    refine ⟨this.1, this.2.1, Elsewhere.trans ?_ this.2.2⟩
    exact elsewhere_chunkCommits d sc m s (by simp) (by simp)

/-- The commits of the chunks on one instance (R236). -/
theorem chunksCommits_eq (d : Nat) (c : Config) (D : Inst) (cs : List Nat) (s : State) (n : Nat) (pre : List Nat)
    (hd : d < s.insts.length) (hp : s.site.port = .x) (hcfg : s.cfg = c)
    (hpos : ∀ m ∈ cs, 0 < m ∧ m < D.size) (h1 : Carries D (rotated c D n pre) (s.inst d)) :
    Carries D (rotated c D (n + cs.sum) (pre ++ cs)) ((chunksCommits d d cs s).inst d) ∧
    Elsewhere s (chunksCommits d d cs s) [d] := by
  induction cs generalizing s n pre with
  | nil => simp only [chunksCommits, List.foldl_nil, List.sum_nil, List.append_nil, Nat.add_zero]; exact ⟨h1, .refl _ _⟩
  | cons m cs ih =>
    obtain ⟨p1, p2⟩ := hpos m (by simp)
    have := ih (chunkCommits d d m s) (n + m) (pre ++ [m]) (by rw [chunkCommits_length]; exact hd) hp hcfg
      (fun x hx => hpos x (by simp [hx]))
      (by rw [chunkCommits_same hd, hcfg, hp]; exact carries_commitBoth h1 p1 p2)
    simp only [List.append_assoc, List.singleton_append, Nat.add_assoc] at this
    simp only [List.sum_cons]
    refine ⟨this.1, Elsewhere.trans ?_ this.2⟩
    exact elsewhere_chunkCommits d d m s (by simp) (by simp)

theorem carries_start_w {c : Config} {I : Inst} (hw : I.w < I.size) (hc : I.wcnt < 2 ^ c.capW) : Carries I (movedIn c I 0 []) I := by
  have : movedIn c I 0 [] = I := by
    unfold movedIn
    simp [countPlus_zero hc, Nat.mod_eq_of_lt hw]
  rw [this]; exact ⟨.refl _, fun _ => rfl, ⟨rfl, rfl, rfl, rfl⟩⟩

theorem carries_start_r {c : Config} {I : Inst} (hw : I.r < I.size) (hc : I.rcnt < 2 ^ c.capW) : Carries I (movedOut c I 0 []) I := by
  have : movedOut c I 0 [] = I := by
    unfold movedOut
    simp [countPlus_zero hc, Nat.mod_eq_of_lt hw]
  rw [this]; exact ⟨.refl _, fun _ => rfl, ⟨rfl, rfl, rfl, rfl⟩⟩

theorem carries_start_both {c : Config} {I : Inst} (hw : I.w < I.size) (hc : I.wcnt < 2 ^ c.capW) (hr : I.r < I.size) (hc' : I.rcnt < 2 ^ c.capW) : Carries I (rotated c I 0 []) I := by
  have : rotated c I 0 [] = I := by
    unfold rotated
    simp [countPlus_zero hc, Nat.mod_eq_of_lt hw, countPlus_zero hc', Nat.mod_eq_of_lt hr]
  rw [this]; exact ⟨.refl _, fun _ => rfl, ⟨rfl, rfl, rfl, rfl⟩⟩

/-- No chunk exceeds the budget. -/
theorem chunks_le (d sc f b : Nat) (s : State) (h : MoveOk d sc b s) : ∀ m ∈ chunksOf d sc f b s, m ≤ b := by
  induction f generalizing b s with
  | zero => simp [chunksOf]
  | succ f ih =>
    obtain ⟨h1, -, -, -, -, -⟩ := chunk_le h
    obtain ⟨hok, -⟩ := chunkCommits_ok h
    unfold chunksOf
    split
    · simp
    · intro m hm
      simp only [List.mem_cons] at hm
      rcases hm with rfl | hm
      · exact h1
      · have := ih _ _ hok m hm; omega

/-- The source side of `chunks_length`: once a chunk ends the linear read block, the rest of the budget fits the next. -/
theorem chunk_ends_read_block {sr sw ssz q b A : Nat} (h1 : sr < ssz) (h2 : sw < ssz) (ha : A = if sr < sw then sw - sr else if sw < sr then ssz - sr else 0)
    (ho : b ≤ if sr ≤ sw then sw - sr else ssz - (sr - sw)) (hq : q ≤ A) (hqb : q < b) (h : ¬ A < b ∨ q = A) :
    ¬ (if (if sr + q = ssz then 0 else sr + q) < sw then sw - (if sr + q = ssz then 0 else sr + q) else if sw < (if sr + q = ssz then 0 else sr + q) then ssz - (if sr + q = ssz then 0 else sr + q) else 0) < b - q := by
  by_cases e : sr + q = ssz
  · simp only [e, if_true]; split_ifs at * <;> omega
  · simp only [e, if_false]; split_ifs at * <;> omega

/-- The destination side of `chunks_length`. -/
theorem chunk_ends_write_block {dr dw dsz q b B : Nat} (h1 : dr < dsz) (h2 : dw < dsz) (ha : B = if dr ≤ dw then (if dr = 0 then dsz - dw - 1 else dsz - dw) else dr - dw - 1)
    (ho : b ≤ dsz - 1 - if dr ≤ dw then dw - dr else dsz - (dr - dw)) (hq : q ≤ B) (hqb : q < b) (h : ¬ B < b ∨ q = B) :
    ¬ (if dr ≤ (if dw + q = dsz then 0 else dw + q) then (if dr = 0 then dsz - (if dw + q = dsz then 0 else dw + q) - 1 else dsz - (if dw + q = dsz then 0 else dw + q)) else dr - (if dw + q = dsz then 0 else dw + q) - 1) < b - q := by
  by_cases e : dw + q = dsz
  · simp only [e, if_true]; split_ifs at * <;> omega
  · simp only [e, if_false]; split_ifs at * <;> omega

/-- Each chunk but the last ends one of the two linear blocks, so there are at most three (R233). -/
theorem chunks_length (d sc f b : Nat) (s : State) (h : MoveOk d sc b s) (hne : d ≠ sc) :
    (chunksOf d sc f b s).length ≤ 1 + (if (s.inst sc).linRLen (s.inst sc).r (s.inst sc).w < b then 1 else 0) +
      (if (s.inst d).linWLen (s.inst d).r (s.inst d).w < b then 1 else 0) := by
  induction f generalizing b s with
  | zero => simp [chunksOf]
  | succ f ih =>
    obtain ⟨h1, h2, h3, h4, h5, h6⟩ := chunk_le h
    obtain ⟨hok, e1, e2, e3, e4, e5, e6⟩ := chunkCommits_ok h
    unfold chunksOf
    split
    · simp
    rename_i hb
    by_cases hlast : b - chunk d sc b s = 0
    · have : chunksOf d sc f (b - chunk d sc b s) (chunkCommits d sc (chunk d sc b s) s) = [] := by
        rw [hlast]; cases f <;> simp [chunksOf]
      rw [this]; simp; omega
    have := ih _ _ hok
    simp only [List.length_cons]
    have ed := chunkCommits_d (c := chunk d sc b s) h.dl h.sl hne
    have es := chunkCommits_s (c := chunk d sc b s) h.dl h.sl hne
    have r1 : ((chunkCommits d sc (chunk d sc b s) s).inst d).r = (s.inst d).r := by rw [ed]; simp
    have r2 : ((chunkCommits d sc (chunk d sc b s) s).inst sc).w = (s.inst sc).w := by rw [es]; simp
    rw [linRLen_eq hok.sr, linWLen_eq hok.dr, e2, e4, e5, e6, r1, r2] at this
    have h0 := h4 hb
    have ha := linRLen_eq h.sr
    have hb' := linWLen_eq h.dr
    have hcd : chunk d sc b s = min (min ((s.inst sc).linRLen (s.inst sc).r (s.inst sc).w) ((s.inst d).linWLen (s.inst d).r (s.inst d).w)) b := rfl
    generalize chunk d sc b s = q at *
    generalize (s.inst sc).linRLen (s.inst sc).r (s.inst sc).w = A at *
    generalize (s.inst d).linWLen (s.inst d).r (s.inst d).w = B at *
    have ho := h.occ
    have hf := h.free
    have i1 := h.dcr; have i2 := h.dcw; have i3 := h.scr; have i4 := h.scw
    rw [dist_eq i3 i4] at ho
    rw [dist_eq i1 i2] at hf
    have hm1 : ((s.inst sc).r + q) % (s.inst sc).size = if (s.inst sc).r + q = (s.inst sc).size then 0 else (s.inst sc).r + q := by
      split
      · rename_i e; rw [e, Nat.mod_self]
      · exact Nat.mod_eq_of_lt (by omega)
    have hm2 : ((s.inst d).w + q) % (s.inst d).size = if (s.inst d).w + q = (s.inst d).size then 0 else (s.inst d).w + q := by
      split
      · rename_i e; rw [e, Nat.mod_self]
      · exact Nat.mod_eq_of_lt (by omega)
    rw [hm1, hm2] at this
    generalize (chunksOf d sc f (b - q) (chunkCommits d sc q s)).length = L at *
    generalize (s.inst sc).r = sr at *
    generalize (s.inst sc).w = sw at *
    generalize (s.inst d).r = dr at *
    generalize (s.inst d).w = dw at *
    generalize (s.inst d).size = dsz at *
    generalize (s.inst sc).size = ssz at *
    clear ih ed es r1 r2 e1 e2 e3 e4 e5 e6 hok h
    have hqb : q < b := by omega
    have key1 := fun h => chunk_ends_read_block (q := q) i3 i4 ha ho (by omega) hqb h
    have key2 := fun h => chunk_ends_write_block (q := q) i1 i2 hb' hf (by omega) hqb h
    generalize (if (if sr + q = ssz then 0 else sr + q) < sw then sw - (if sr + q = ssz then 0 else sr + q) else if sw < (if sr + q = ssz then 0 else sr + q) then ssz - (if sr + q = ssz then 0 else sr + q) else 0) = A' at *
    generalize (if dr ≤ (if dw + q = dsz then 0 else dw + q) then (if dr = 0 then dsz - (if dw + q = dsz then 0 else dw + q) - 1 else dsz - (if dw + q = dsz then 0 else dw + q)) else dr - (if dw + q = dsz then 0 else dw + q) - 1) = B' at *
    clear hm1 hm2 h2 h3 h5 h6 i1 i2 i3 i4
    have hq : q = A ∨ q = B := by omega
    have k1 : A < b ∨ ¬ A' < b - q := by by_cases h : A < b; exact .inl h; exact .inr (key1 (.inl h))
    have k2 : B < b ∨ ¬ B' < b - q := by by_cases h : B < b; exact .inl h; exact .inr (key2 (.inl h))
    have k3 : (A < b ∧ ¬ A' < b - q) ∨ (B < b ∧ ¬ B' < b - q) := by
      rcases hq with h | h
      · exact .inl ⟨by omega, key1 (.inr h)⟩
      · exact .inr ⟨by omega, key2 (.inr h)⟩
    clear key1 key2
    split_ifs at this ⊢ <;> omega

/-- The end of the COMPLETE step of a `MOVE` on the destination (R73). -/
theorem leaves_move {s u : State} {src : Nat} {K : Inst} {a b : Nat} (hx : s.site.port = .x) (hd : s.site.inst < s.insts.length) (hs : src < s.insts.length)
    (he : Elsewhere s u [s.site.inst, src]) (h1 : SameFifo K u.here) (hc : SameCrossings s.here u.here)
    (hp : u.herePort = { s.herePort with res0 := a, res1 := b }) (hps : ∀ p, p ≠ s.site.port → u.here.port p = s.here.port p) (code : Code) :
    Leaves s (u.finish (.move src) code) [s.site.inst, src] K a b code := by
  have hus := he.site
  have hl : u.site.inst < u.insts.length := by rw [hus, he.count]; exact hd
  have hh := State.here_finish u (.move src) code hl
  have hh' : (u.finish (.move src) code).here = u.here.resync.setPort s.site.port { u.herePort with code := code, busy := none } := by
    change (u.finish (.move src) code).inst (u.finish (.move src) code).site.inst = _
    rw [State.finish_site, hh, hus, if_pos hx]
  refine ⟨⟨?_, ?_, ?_, ?_, ?_, ?_, ?_, ?_⟩, ?_, ?_, ?_, ?_⟩
  · simp [he.cfg]
  · simp [he.faults]
  · simp [he.site]
  · simp [he.sched]
  · simp [he.rdata]
  · simp [he.draws]
  · simp [he.count]
  · intro j hj
    simp only [List.mem_cons, List.not_mem_nil, or_false, not_or] at hj
    rw [State.inst_finish_ne _ _ _ _ (by rw [hus]; exact hj.1), if_neg, he.others j (by simp [hj])]
    simp [involved, hus, hj]
  · rw [hh']
    exact h1.trans (fifo_resync_setPort _ _ _)
  · rw [hh']
    unfold ViewsAfter
    rw [if_pos hx]
    constructor <;> simp [hc.wsync, hc.rsync]
  · change (u.finish (.move src) code).here.port (u.finish (.move src) code).site.port = _
    rw [hh', State.finish_site, hus, Inst.port_setPort_same, hp]
  · intro p hpp
    rw [hh', Inst.port_setPort_ne _ _ _ _ hpp, Inst.resync_port, hps p hpp]

/-- The end of the COMPLETE step of a `MOVE` on the source (R73). -/
theorem src_move {u : State} {src : Nat} (hx : u.site.port = .x) (hs : src < u.insts.length) (hne : src ≠ u.site.inst) (code : Code) :
    (u.finish (.move src) code).inst src = (u.inst src).resync := by
  rw [State.inst_finish_ne _ _ _ _ hne, if_pos ⟨hx, by simp [involved], hs⟩]

theorem resynced_of {I J : Inst} (h : SameCrossings I J) : Resynced I J.resync := by
  constructor <;> simp [h.wsync, h.rsync]

end Sys2Proof.Machine
end

