-- ==== Sys2Proof/Laws/Keeps.lean ====
section
/-! SUPPORT. Every command keeps the machine invariant, command by command. -/

namespace Sys2Proof.Machine

/-- What a command's rule keeps up to the end of its COMPLETE step: the invariant of every instance not involved, the core of the involved ones on X, and the invariant once tracked on W and R. -/
structure Keeps (s u : State) (i : Instr) : Prop where
  cfg : u.cfg = s.cfg
  site : u.site = s.site
  count : u.insts.length = s.insts.length
  mem : u.MemoryOk
  others : ∀ j < s.insts.length, j ≠ s.site.inst → (s.site.port = .x → j ∉ involved i s.site.inst) → (u.inst j).Inv s.cfg
  xcore : s.site.port = .x → ∀ j ∈ involved i s.site.inst, j < s.insts.length → (u.inst j).Core s.cfg
  tracked : s.site.port ≠ .x → (u.here.track s.cfg).Inv s.cfg

theorem Keeps.refl {s : State} {i : Instr} (hI : s.Inv) (hl : s.site.inst < s.insts.length) : Keeps s s i :=
  ⟨rfl, rfl, rfl, hI.memory, fun j hj _ _ => hI.insts _ (s.inst_mem j hj), fun _ j _ hj => (hI.insts _ (s.inst_mem j hj)).core,
    fun _ => (hI.insts _ (s.inst_mem _ hl)).track⟩

theorem Keeps.setMem {s u : State} {i : Instr} (h : Keeps s u i) {m : Memory} (hm : Memory.wf m) (ha : ∀ x ∈ m, x ∈ u.mem ∨ x.1 < 2 ^ s.cfg.regW) :
    Keeps s { u with mem := m } i := by
  refine ⟨h.cfg, h.site, h.count, ⟨hm, fun x hx => ?_⟩, h.others, h.xcore, h.tracked⟩
  rcases ha x hx with h1 | h1
  · exact h.mem.addresses x h1
  · change x.1 < 2 ^ u.cfg.regW; rw [h.cfg]; exact h1

theorem Keeps.modInst {s u : State} {i : Instr} (h : Keeps s u i) {j : Nat} (hl : j < s.insts.length) (hj : j ∈ involved i s.site.inst) (f : Inst → Inst)
    (hx : s.site.port = .x → (u.inst j).Core s.cfg → (f (u.inst j)).Core s.cfg)
    (ht : s.site.port ≠ .x → j = s.site.inst ∧ ((f (u.inst j)).track s.cfg).Inv s.cfg) : Keeps s (u.modInst j f) i := by
  have hl' : j < u.insts.length := by rw [h.count]; exact hl
  refine ⟨h.cfg, h.site, by simpa using h.count, ⟨h.mem.wf, h.mem.addresses⟩, fun k hk h1 h2 => ?_, fun hp k hk hkl => ?_, fun hp => ?_⟩
  · have hne : k ≠ j := by
      rintro rfl
      by_cases hp : s.site.port = .x
      · exact h2 hp hj
      · exact h1 (ht hp).1
    rw [u.inst_modInst_ne _ _ _ hne]; exact h.others k hk h1 h2
  · by_cases hkj : k = j
    · subst hkj; rw [u.inst_modInst_same _ _ hl']; exact hx hp (h.xcore hp k hk hkl)
    · rw [u.inst_modInst_ne _ _ _ hkj]; exact h.xcore hp k hk hkl
  · obtain ⟨rfl, h3⟩ := ht hp
    change (((u.modInst s.site.inst f).inst u.site.inst).track s.cfg).Inv s.cfg
    rw [h.site, u.inst_modInst_same _ _ hl']; exact h3

theorem track_setPort (c : Config) (I : Inst) (p : Port) (q : PortState) : (I.setPort p q).track c = (I.track c).setPort p q := by
  unfold Inst.track; cases c.cdc <;> cases p <;> rfl

theorem Keeps.modPort {s u : State} {i : Instr} (h : Keeps s u i) (hl : s.site.inst < s.insts.length) (f : PortState → PortState)
    (hf : ∀ q, q.Fits s.cfg s.site.port → (f q).Fits s.cfg s.site.port) : Keeps s (u.modPort f) i := by
  have e : u.modPort f = u.modInst s.site.inst fun I => I.setPort s.site.port (f (I.port s.site.port)) := by
    unfold State.modPort; rw [h.site]
  rw [e]
  refine h.modInst hl (mem_involved_self _ _) _ (fun _ hc => ?_) (fun hp => ⟨rfl, ?_⟩)
  · exact hc.setPort (hf _ (hc.fits.ports _))
  · have := h.tracked hp
    have e2 : u.here = u.inst s.site.inst := by unfold State.here; rw [h.site]
    rw [e2] at this
    rw [track_setPort]
    refine this.setPort ?_
    have e3 : ((u.inst s.site.inst).track s.cfg).port s.site.port = (u.inst s.site.inst).port s.site.port := by
      unfold Inst.track; cases s.cfg.cdc <;> cases s.site.port <;> rfl
    have := this.fits.ports s.site.port
    rw [e3] at this; exact hf _ this

theorem Keeps.setRes0 {s u : State} {i : Instr} (h : Keeps s u i) (hl : s.site.inst < s.insts.length) {v : Nat} (hv : v < 2 ^ s.cfg.regW) : Keeps s (u.setRes0 v) i :=
  h.modPort hl _ fun _ hq => hq.withRes0 hv

theorem Keeps.setRes1 {s u : State} {i : Instr} (h : Keeps s u i) (hl : s.site.inst < s.insts.length) {v : Nat} (hv : v < 2 ^ s.cfg.regW) : Keeps s (u.setRes1 v) i :=
  h.modPort hl _ fun _ hq => hq.withRes1 hv

/-- The machine invariant from its parts. -/
theorem inv_of {t : State} (h1 : t.cfg.wf) (h2 : t.insts.length = t.cfg.numInst) (h3 : t.MemoryOk) (h4 : ∀ j < t.insts.length, (t.inst j).Inv t.cfg) : t.Inv :=
  ⟨h1, h2, h3, fun I hI => by
    obtain ⟨j, hj, rfl⟩ := List.getElem_of_mem hI
    rw [← t.inst_of_lt j hj]; exact h4 j hj⟩

theorem finish_cfg (u : State) (i : Instr) (code : Code) : (u.finish i code).cfg = u.cfg := by simp

/-- The end of the COMPLETE step restores the machine invariant. -/
theorem Keeps.finish {s u : State} {i : Instr} (hI : s.Inv) (hl : s.site.inst < s.insts.length) (h : Keeps s u i) (code : Code) :
    (u.finish i code).Inv := by
  have hlu : u.site.inst < u.insts.length := by rw [h.site, h.count]; exact hl
  refine inv_of (by rw [finish_cfg, h.cfg]; exact hI.cfg) (by rw [finish_cfg, h.cfg]; simpa [h.count] using hI.count) ?_ ?_
  · exact ⟨by simpa using h.mem.wf, by rw [finish_cfg]; simpa using h.mem.addresses⟩
  · intro j hj
    rw [finish_cfg, h.cfg]
    have hj' : j < s.insts.length := by simpa [h.count] using hj
    by_cases hjs : j = s.site.inst
    · subst hjs
      have := u.here_finish i code hlu
      rw [h.site] at this
      rw [this, h.cfg]
      have e2 : u.here = u.inst s.site.inst := by unfold State.here; rw [h.site]
      have e4 : u.herePort = (u.inst s.site.inst).port s.site.port := by unfold State.herePort; rw [h.site, e2]
      by_cases hp : s.site.port = .x
      · rw [if_pos hp]
        have hc := h.xcore hp _ (mem_involved_self _ _) hl
        rw [e2]
        refine (hc.resync hI.cfg).setPort ?_
        rw [e4]; exact (hc.fits.ports _).done _
      · rw [if_neg hp]
        have ht := h.tracked hp
        refine ht.setPort ?_
        have e3 : (u.here.track s.cfg).port s.site.port = u.here.port s.site.port := by
          unfold Inst.track; cases s.cfg.cdc <;> cases s.site.port <;> rfl
        have := ht.fits.ports s.site.port
        rw [e3, e2] at this
        rw [e4]; exact this.done _
    · rw [u.inst_finish_ne i code j (by rw [h.site]; exact hjs), h.site, h.count]
      split
      · rename_i hh
        exact (h.xcore hh.1 j hh.2.1 hj').resync hI.cfg
      · rename_i hh
        refine h.others j hj' hjs fun hp hin => hh ⟨hp, hin, hj'⟩

/-- A command keeps the machine invariant if its rule keeps what the end of the step needs. -/
theorem keeps_of {i : Instr} {s t : State} {rule : Pending → Except Fault (State × Code)} (hI : s.Inv) (h : complete i s rule = .next t)
    (hk : ∀ c u code, Armed s i c → c.a < 2 ^ s.cfg.regW → c.n < 2 ^ s.cfg.regW → c.k < 2 ^ s.cfg.regW → rule c = .ok (u, code) → Keeps s u i) : t.Inv := by
  obtain ⟨c, u, code, h1, h2, h3, h4, rfl⟩ := complete_next h
  have hl := h3 _ (mem_involved_self _ _)
  have hb := ((hI.insts _ (s.inst_mem _ hl)).fits.ports s.site.port).busy c h1
  exact (hk c u code ⟨h1, h2, h3⟩ hb.2.1 hb.2.2.1 hb.2.2.2 h4).finish hI hl code

theorem one_lt {s : State} (hI : s.Inv) : 1 < 2 ^ s.cfg.regW := by
  have := hI.cfg.1
  rcases this with h | h <;> rw [h] <;> decide

theorem capW_lt {s : State} (hI : s.Inv) : 2 ^ s.cfg.capW < 2 ^ s.cfg.regW := by
  have := two_pow_capW_le hI.cfg
  have := Nat.two_pow_pos s.cfg.capW
  omega

theorem execInit_keeps {s t : State} (hI : s.Inv) (h : execInit s = .next t) : t.Inv := by
  refine keeps_of hI h fun c u code ha hca hcn hck hr => ?_
  have hl := ha.lt
  have hx := armed_x ha rfl
  split at hr
  · cases hr; exact (Keeps.refl hI hl).setRes0 hl (Nat.two_pow_pos _)
  · rename_i hf
    cases hr
    simp only [initFails, decide_eq_true_eq, not_or, not_le, not_lt] at hf
    refine Keeps.setRes0 ?_ hl (one_lt hI)
    refine (Keeps.refl hI hl).modInst hl (mem_involved_self _ _) _ (fun _ hc => ?_) (fun hp => absurd hx hp)
    have hz := hc.fits.zeroCursors
    have h0 : 0 < 2 ^ s.cfg.capW := Nat.two_pow_pos _
    refine ⟨?_, fun _ => ⟨by change 0 < c.n; omega, by change 0 < c.n; omega⟩, fun _ _ => ?_⟩
    · constructor
      case size => exact hf.2.2.1
      case storage => exact hf.2.2.2
      case base => exact hca
      case ports => intro p'; have := hz.ports p'; cases p' <;> exact this
      all_goals first
        | exact hz.r | exact hz.w | exact hz.rv | exact hz.wv | exact hz.wcnt
        | exact hz.wpub | exact hz.rcnt | exact hz.rpub | exact hz.wsync | exact hz.rsync | exact hz.tag | exact hz.events
    · change behind _ 0 0 = Machine.dist c.n 0 0
      rw [Machine.dist_self (by omega)]
      simp [behind]

theorem execDeinit_keeps {s t : State} (hI : s.Inv) (h : execDeinit s = .next t) : t.Inv := by
  refine keeps_of hI h fun c u code ha hca hcn hck hr => ?_
  have hl := ha.lt
  have hx := armed_x ha rfl
  split at hr
  · cases hr; exact (Keeps.refl hI hl).setRes0 hl (Nat.two_pow_pos _)
  · cases hr
    refine Keeps.setRes0 ?_ hl (one_lt hI)
    refine (Keeps.refl hI hl).modInst hl (mem_involved_self _ _) _ (fun _ hc => ?_) (fun hp => absurd hx hp)
    have hz := hc.fits
    have := hz.storage
    refine ⟨?_, fun h => by simp [Inst.ready] at h, fun h => by simp [Inst.ready] at h⟩
    constructor
    case storage => change 0 + (s.inst s.site.inst).size ≤ _; omega
    case base => exact Nat.two_pow_pos _
    case ports => intro p'; have := hz.ports p'; cases p' <;> exact this
    all_goals first
      | exact hz.size | exact hz.r | exact hz.w | exact hz.rv | exact hz.wv | exact hz.wcnt
      | exact hz.wpub | exact hz.rcnt | exact hz.rpub | exact hz.wsync | exact hz.rsync | exact hz.tag | exact hz.events

theorem execSetEvt_keeps {s t : State} (hI : s.Inv) (h : execSetEvt s = .next t) : t.Inv := by
  refine keeps_of hI h fun c u code ha hca hcn hck hr => ?_
  have hl := ha.lt
  have hx := armed_x ha rfl
  split at hr
  · cases hr; exact (Keeps.refl hI hl).setRes0 hl (Nat.two_pow_pos _)
  · cases hr
    refine Keeps.setRes0 ?_ hl (one_lt hI)
    refine (Keeps.refl hI hl).modInst hl (mem_involved_self _ _) _ (fun _ hc => ?_) (fun hp => absurd hx hp)
    have hz := hc.fits
    refine ⟨?_, hc.cursors, hc.counts⟩
    constructor
    case ports => intro p'; have := hz.ports p'; cases p' <;> exact this
    all_goals first
      | exact hz.size | exact hz.storage | exact hz.base | exact hz.r | exact hz.w | exact hz.rv | exact hz.wv | exact hz.wcnt
      | exact hz.wpub | exact hz.rcnt | exact hz.rpub | exact hz.wsync | exact hz.rsync | exact hz.tag | exact hz.events

theorem execSetTag_keeps {s t : State} (hI : s.Inv) (h : execSetTag s = .next t) : t.Inv := by
  refine keeps_of hI h fun c u code ha hca hcn hck hr => ?_
  have hl := ha.lt
  have hx := armed_x ha rfl
  cases hr
  refine Keeps.setRes0 ?_ hl (one_lt hI)
  refine (Keeps.refl hI hl).modInst hl (mem_involved_self _ _) _ (fun _ hc => ?_) (fun hp => absurd hx hp)
  have hz := hc.fits
  refine ⟨?_, hc.cursors, hc.counts⟩
  constructor
  case ports => intro p'; have := hz.ports p'; cases p' <;> exact this
  case tag => exact hca
  all_goals first
    | exact hz.size | exact hz.storage | exact hz.base | exact hz.r | exact hz.w | exact hz.rv | exact hz.wv | exact hz.wcnt
    | exact hz.wpub | exact hz.rcnt | exact hz.rpub | exact hz.wsync | exact hz.rsync | exact hz.events

theorem execReset_keeps {s t : State} (hI : s.Inv) (h : execReset s = .next t) : t.Inv := by
  refine keeps_of hI h fun c u code ha hca hcn hck hr => ?_
  have hl := ha.lt
  have hx := armed_x ha rfl
  split at hr
  · cases hr; exact (Keeps.refl hI hl).setRes0 hl (Nat.two_pow_pos _)
  · cases hr
    refine Keeps.setRes0 ?_ hl (one_lt hI)
    refine (Keeps.refl hI hl).modInst hl (mem_involved_self _ _) _ (fun _ hc => ?_) (fun hp => absurd hx hp)
    have hz := hc.fits
    refine ⟨hz.zeroCursors.emit _ _ (Nat.two_pow_pos _), fun hr => ?_, fun hr _ => ?_⟩
    · have : 0 < ((s.inst s.site.inst).resetCursors s.site.port).size := Inst.size_pos hr
      unfold Inst.resetCursors Inst.emit at *
      split at this <;> simp_all [Inst.zeroCursors]
    · have : 0 < ((s.inst s.site.inst).resetCursors s.site.port).size := Inst.size_pos hr
      have e : ((s.inst s.site.inst).resetCursors s.site.port).r = 0 ∧ ((s.inst s.site.inst).resetCursors s.site.port).w = 0 ∧
        ((s.inst s.site.inst).resetCursors s.site.port).wcnt = 0 ∧ ((s.inst s.site.inst).resetCursors s.site.port).rcnt = 0 := by
        unfold Inst.resetCursors Inst.emit Inst.zeroCursors; split <;> simp
      rw [e.1, e.2.1, e.2.2.1, e.2.2.2, Machine.dist_self this]
      simp [behind]

theorem answer_keeps {i : Instr} {v : State → Nat} {s t : State} (hI : s.Inv) (h : complete i s (fun _ => .ok (s.setRes0 (v s), .done)) = .next t)
    (hv : ∀ c, Armed s i c → v s < 2 ^ s.cfg.regW) : t.Inv := by
  refine keeps_of hI h fun c u code ha hca hcn hck hr => ?_
  cases hr
  exact (Keeps.refl hI ha.lt).setRes0 ha.lt (hv c ha)

theorem occ_lt_reg {s : State} {c : Pending} {i : Instr} (hI : s.Inv) (ha : Armed s i c) :
    s.here.occ s.view.1 s.view.2 < 2 ^ s.cfg.regW ∧ s.here.free s.view.1 s.view.2 < 2 ^ s.cfg.regW := by
  have hc := capW_lt hI
  have h0 := Nat.two_pow_pos s.cfg.regW
  cases hr : s.here.ready with
  | false => simp [Inst.occ, Inst.free, hr]
  | true =>
    obtain ⟨h1, h2⟩ := view_lt hI ha.lt hr
    have := view_facts s.here s.view.1 s.view.2 hr h1 h2
    have := (State.Inv.here hI ha.lt).fits.size
    omega

theorem queries_keep {s t : State} (hI : s.Inv) :
    (execIsReady s = .next t → t.Inv) ∧ (execGetTag s = .next t → t.Inv) ∧ (execFree s = .next t → t.Inv) ∧ (execOcc s = .next t → t.Inv) ∧
    (execLinRAddr s = .next t → t.Inv) ∧ (execLinRLen s = .next t → t.Inv) ∧ (execLinWAddr s = .next t → t.Inv) ∧ (execLinWLen s = .next t → t.Inv) := by
  refine ⟨fun h => answer_keeps (v := fun s => s.here.ready.toNat) hI h fun c ha => ?_, fun h => answer_keeps (v := fun s => s.here.tag) hI h fun c ha => ?_,
    fun h => answer_keeps (v := fun s => s.here.free s.view.1 s.view.2) hI h fun c ha => ?_, fun h => answer_keeps (v := fun s => s.here.occ s.view.1 s.view.2) hI h fun c ha => ?_,
    fun h => answer_keeps (v := fun s => s.here.linRAddr s.view.1) hI h fun c ha => ?_, fun h => answer_keeps (v := fun s => s.here.linRLen s.view.1 s.view.2) hI h fun c ha => ?_,
    fun h => answer_keeps (v := fun s => s.here.linWAddr s.view.2) hI h fun c ha => ?_, fun h => answer_keeps (v := fun s => s.here.linWLen s.view.1 s.view.2) hI h fun c ha => ?_⟩
  · have := one_lt hI; change s.here.ready.toNat < _; cases s.here.ready; exacts [Nat.two_pow_pos _, this]
  · exact (State.Inv.here hI ha.lt).fits.tag
  · exact (occ_lt_reg hI ha).2
  · exact (occ_lt_reg hI ha).1
  all_goals
    cases hr : s.here.ready with
    | false => simp [Inst.linRAddr, Inst.linRLen, Inst.linWAddr, Inst.linWLen, hr]
    | true =>
      have hst := (State.Inv.here hI ha.lt).fits.storage
      obtain ⟨h1, h2⟩ := view_lt hI ha.lt hr
      have hW := window_facts s.here s.view.1 s.view.2 hr h1 h2
      have ho := occ_lt_reg hI ha
      first
        | (simp only [Inst.linRAddr, Inst.linWAddr, hr]; simp; omega)
        | omega

theorem here_eq {s u : State} (hs : u.site = s.site) : u.here = u.inst s.site.inst := by unfold State.here; rw [hs]

theorem Keeps.commitW {s u : State} {i : Instr} (hI : s.Inv) (h : Keeps s u i) (hl : s.site.inst < s.insts.length) (hr : s.here.ready = true)
    (hin : u.here = s.here) (hp : s.site.port = .w ∨ s.site.port = .x) {m : Nat} (hm : m ≤ s.here.free s.view.1 s.view.2) :
    Keeps s (u.commitW s.site.inst s.here.w m) i := by
  have hInv := State.Inv.here hI hl
  have hc := hInv.cursors hr
  have e := here_eq h.site
  refine h.modInst hl (mem_involved_self _ _) _ (fun hx hcore => ?_) (fun hx => ⟨rfl, ?_⟩)
  · rw [← e, hin] at *
    rw [h.cfg]
    refine hcore.commitW hr _ ?_
    have : s.view = (s.here.r, s.here.w) := by simp [State.view, Inst.view, hx]
    rw [this] at hm
    rw [Inst.free_eq_dist hr hc.r hc.w] at hm
    have := dist_lt (a := s.here.r) (b := s.here.w) (Inst.size_pos hr)
    omega
  · have hw : s.site.port = .w := by tauto
    rw [← e, hin, h.cfg]
    refine hInv.commitW hI.cfg hr _ ?_
    have : s.view = (s.here.rv, s.here.w) := by simp [State.view, Inst.view, hw]
    rw [this] at hm
    rw [Inst.free_eq_dist hr hc.rv hc.w] at hm
    have := dist_lt (a := s.here.rv) (b := s.here.w) (Inst.size_pos hr)
    omega

theorem Keeps.commitR {s u : State} {i : Instr} (hI : s.Inv) (h : Keeps s u i) (hl : s.site.inst < s.insts.length) (hr : s.here.ready = true)
    (hin : u.here = s.here) (hp : s.site.port = .r ∨ s.site.port = .x) {m : Nat} (hm : m ≤ s.here.occ s.view.1 s.view.2) :
    Keeps s (u.commitR s.site.inst s.here.r m) i := by
  have hInv := State.Inv.here hI hl
  have hc := hInv.cursors hr
  have e := here_eq h.site
  refine h.modInst hl (mem_involved_self _ _) _ (fun hx hcore => ?_) (fun hx => ⟨rfl, ?_⟩)
  · rw [← e, hin] at *
    rw [h.cfg]
    refine hcore.commitR hr _ ?_
    have : s.view = (s.here.r, s.here.w) := by simp [State.view, Inst.view, hx]
    rw [this] at hm
    rwa [Inst.occ_eq_dist hr hc.r hc.w] at hm
  · have hw : s.site.port = .r := by tauto
    rw [← e, hin, h.cfg]
    refine hInv.commitR hI.cfg hr _ ?_
    have : s.view = (s.here.r, s.here.wv) := by simp [State.view, Inst.view, hw]
    rw [this] at hm
    rwa [Inst.occ_eq_dist hr hc.r hc.wv] at hm

theorem execSkip_keeps {s t : State} (hI : s.Inv) (h : execSkip s = .next t) : t.Inv := by
  refine keeps_of hI h fun c u code ha hca hcn hck hr => ?_
  have hl := ha.lt
  have hp := rx ha rfl
  split at hr
  · cases hr; exact (Keeps.refl hI hl).setRes0 hl (Nat.two_pow_pos _)
  · rename_i hs; simp only [not_or, Bool.not_eq_false] at hs
    cases hr
    rw [rview hp]
    exact ((Keeps.refl hI hl).commitR hI hl hs.1 rfl hp (by rw [rview hp]; omega)).setRes0 hl (by omega)

theorem execAdvance_keeps {s t : State} (hI : s.Inv) (h : execAdvance s = .next t) : t.Inv := by
  refine keeps_of hI h fun c u code ha hca hcn hck hr => ?_
  have hl := ha.lt
  have hp := wx ha rfl
  split at hr
  · cases hr; exact (Keeps.refl hI hl).setRes0 hl (Nat.two_pow_pos _)
  · rename_i hs; simp only [not_or, Bool.not_eq_false] at hs
    cases hr
    rw [wview hp]
    exact ((Keeps.refl hI hl).commitW hI hl hs.1 rfl hp (by rw [wview hp]; omega)).setRes0 hl (by omega)

theorem copyIn_keeps {s : State} {i : Instr} {c : Pending} (hI : s.Inv) (ha : Armed s i c) (hp : s.site.port = .w ∨ s.site.port = .x)
    (hr : s.here.ready = true) {a m res : Nat} (hm : m ≤ s.here.free s.view.1 s.view.2) (hres : res < 2 ^ s.cfg.regW) {u : State} {code : Code}
    (h : s.copyIn a m res = .ok (u, code)) : Keeps s u i := by
  have hl := ha.lt
  have hInv := State.Inv.here hI hl
  have hc := hInv.cursors hr
  have hms : m < s.here.size := by
    obtain ⟨h1, h2⟩ := view_lt hI hl hr
    have := view_facts s.here s.view.1 s.view.2 hr h1 h2
    have := Inst.size_pos hr
    omega
  unfold State.copyIn at h
  rw [wview hp] at h hm
  simp only at h
  split at h
  · cases h
  · cases h
    refine Keeps.setRes0 ?_ hl hres
    have hm' : m ≤ s.here.free s.view.1 s.view.2 := by rw [wview hp]; exact hm
    refine Keeps.commitW hI (m := m) (u := { s with mem := s.here.storageWrite s.mem s.here.w (s.mem.readBytes a m) }) ?_ hl hr rfl hp hm'
    refine (Keeps.refl hI hl).setMem (wf_storageWrite _ hI.memory.wf _ _) fun x hx => ?_
    rcases mem_storageWrite _ hc.w (by rw [Memory.length_readBytes]; omega) hx with h | h
    · exact .inl h
    · right; have := hInv.fits.storage; omega

theorem copyOut_keeps {s : State} {i : Instr} (hI : s.Inv) (hl : s.site.inst < s.insts.length) {slot a m res : Nat} (hres : res < 2 ^ s.cfg.regW) {u : State} {code : Code}
    (h : s.copyOut slot a m res = .ok (u, code)) : ∃ mem, Keeps s { s with mem := mem } i ∧ u = State.setRes0 { s with mem := mem } res ∧ code = .done := by
  unfold State.copyOut at h
  simp only at h
  split at h
  · cases h
  · rename_i hf
    cases h
    refine ⟨_, (Keeps.refl hI hl).setMem (Memory.wf_writeBytes _ _ hI.memory.wf) fun x hx => ?_, rfl, rfl⟩
    rw [copyFault_eq_none] at hf
    have h1 := hf.1 (a, m) List.mem_cons_self
    rw [rejects_eq_false] at h1
    rcases Memory.mem_writeBytes hx with h | h
    · exact .inl h
    · rw [length_storageRead] at h; right; omega

theorem consume_keeps {s : State} {i : Instr} {c : Pending} (hI : s.Inv) (ha : Armed s i c) (hp : s.site.port = .r ∨ s.site.port = .x)
    (hr : s.here.ready = true) {a m res : Nat} (hm : m ≤ s.here.occ s.view.1 s.view.2) (hres : res < 2 ^ s.cfg.regW) {u : State} {code : Code}
    (h : s.consume a m res = .ok (u, code)) : Keeps s u i := by
  have hl := ha.lt
  unfold State.consume at h
  split at h
  · cases h
  · rename_i t code' ht
    cases h
    obtain ⟨mem, h1, rfl, -⟩ := copyOut_keeps (i := i) hI hl hres ht
    rw [rview hp]
    -- commit and result commute: commit on the port-updated state
    have h2 := h1.setRes0 hl hres
    have hInv := State.Inv.here hI hl
    have hc := hInv.cursors hr
    have e : (State.setRes0 { s with mem := mem } res).inst s.site.inst = s.here.setPort s.site.port { s.herePort with res0 := res } :=
      State.here_modPort { s with mem := mem } (fun q => { q with res0 := res }) hl
    have hq : ({ s.herePort with res0 := res } : PortState).Fits s.cfg s.site.port := ((hInv.fits.ports _).withRes0 hres)
    refine h2.modInst hl (mem_involved_self _ _) _ (fun hx hcore => ?_) (fun hx => ⟨rfl, ?_⟩)
    · have : s.view = (s.here.r, s.here.w) := by simp [State.view, Inst.view, hx]
      rw [this, Inst.occ_eq_dist hr hc.r hc.w] at hm
      rw [e] at hcore ⊢
      have := hcore.commitR (by simpa using hr) s.site.port (m := m) (by simpa using hm)
      rw [Inst.setPort_r] at this
      exact this
    · have hw : s.site.port = .r := by tauto
      have : s.view = (s.here.r, s.here.wv) := by simp [State.view, Inst.view, hw]
      rw [this, Inst.occ_eq_dist hr hc.r hc.wv] at hm
      rw [e]
      have := (hInv.setPort hq).commitR hI.cfg (by simpa using hr) s.site.port (m := m) (by simpa using hm)
      rw [Inst.setPort_r] at this
      exact this

theorem execWrite_keeps {s t : State} (hI : s.Inv) (h : execWrite s = .next t) : t.Inv := by
  refine keeps_of hI h fun c u code ha hca hcn hck hr => ?_
  have hl := ha.lt
  have hp := wx ha rfl
  split at hr
  · cases hr; exact (Keeps.refl hI hl).setRes0 hl (Nat.two_pow_pos _)
  · rename_i hs
    simp only at hr
    split at hr
    · cases hr; exact (Keeps.refl hI hl).setRes0 hl (Nat.two_pow_pos _)
    · exact copyIn_keeps hI ha hp (sentinel_no hs).1 (by omega) (by omega) hr

theorem execWriteExact_keeps {s t : State} (hI : s.Inv) (h : execWriteExact s = .next t) : t.Inv := by
  refine keeps_of hI h fun c u code ha hca hcn hck hr => ?_
  have hl := ha.lt
  have hp := wx ha rfl
  split at hr
  · cases hr; exact (Keeps.refl hI hl).setRes0 hl (Nat.two_pow_pos _)
  · rename_i hs
    split at hr
    · cases hr; exact (Keeps.refl hI hl).setRes0 hl (Nat.two_pow_pos _)
    · exact copyIn_keeps hI ha hp (sentinel_no hs).1 (by omega) (one_lt hI) hr

theorem execRead_keeps {s t : State} (hI : s.Inv) (h : execRead s = .next t) : t.Inv := by
  refine keeps_of hI h fun c u code ha hca hcn hck hr => ?_
  have hl := ha.lt
  have hp := rx ha rfl
  split at hr
  · cases hr; exact (Keeps.refl hI hl).setRes0 hl (Nat.two_pow_pos _)
  · rename_i hs
    simp only at hr
    split at hr
    · cases hr; exact (Keeps.refl hI hl).setRes0 hl (Nat.two_pow_pos _)
    · exact consume_keeps hI ha hp (sentinel_no hs).1 (by omega) (by omega) hr

theorem execReadExact_keeps {s t : State} (hI : s.Inv) (h : execReadExact s = .next t) : t.Inv := by
  refine keeps_of hI h fun c u code ha hca hcn hck hr => ?_
  have hl := ha.lt
  have hp := rx ha rfl
  split at hr
  · cases hr; exact (Keeps.refl hI hl).setRes0 hl (Nat.two_pow_pos _)
  · rename_i hs
    split at hr
    · cases hr; exact (Keeps.refl hI hl).setRes0 hl (Nat.two_pow_pos _)
    · exact consume_keeps hI ha hp (sentinel_no hs).1 (by omega) (one_lt hI) hr

theorem execPeek_keeps {s t : State} (hI : s.Inv) (h : execPeek s = .next t) : t.Inv := by
  refine keeps_of hI h fun c u code ha hca hcn hck hr => ?_
  have hl := ha.lt
  split at hr
  · cases hr; exact (Keeps.refl hI hl).setRes0 hl (Nat.two_pow_pos _)
  · simp only at hr
    split at hr
    · cases hr; exact (Keeps.refl hI hl).setRes0 hl (Nat.two_pow_pos _)
    · obtain ⟨mem, h1, rfl, -⟩ := copyOut_keeps (i := .peek) hI hl (by omega) hr
      exact h1.setRes0 hl (by omega)

theorem execFind_keeps {s t : State} (hI : s.Inv) (h : execFind s = .next t) : t.Inv := by
  refine keeps_of hI h fun c u code ha hca hcn hck hr => ?_
  have hl := ha.lt
  have h0 := Nat.two_pow_pos s.cfg.regW
  have hx := armed_x ha rfl
  simp only at hr
  split at hr
  · cases hr; exact ((Keeps.refl hI hl).setRes0 hl h0).setRes1 hl h0
  · split at hr
    · cases hr; exact ((Keeps.refl hI hl).setRes0 hl h0).setRes1 hl h0
    · rename_i hs hle
      split at hr
      · cases hr
      · split at hr
        · rename_i x hxx
          cases hr
          refine ((Keeps.refl hI hl).setRes0 hl (one_lt hI)).setRes1 hl ?_
          have := findFrom_range _ _ _ _ _ _ hxx
          have ho := (occ_lt_reg hI ha).1
          have : s.view = (s.here.r, s.here.w) := by simp [State.view, Inst.view, hx]
          rw [this] at ho
          have := (sentinel_no hs).2.2
          simp only at ho
          omega
        · cases hr; exact ((Keeps.refl hI hl).setRes0 hl h0).setRes1 hl h0

theorem Keeps.modX {s u : State} {i : Instr} (h : Keeps s u i) {j : Nat} (hl : j < s.insts.length) (hj : j ∈ involved i s.site.inst) (hx : s.site.port = .x)
    (f : Inst → Inst) (hf : (f (u.inst j)).Core s.cfg) : Keeps s (u.modInst j f) i :=
  h.modInst hl hj f (fun _ _ => hf) (fun hp => absurd hx hp)

theorem Inst.Core.resetCursors {c : Config} {I : Inst} (h : I.Core c) (hr : I.ready = true) (p : Port) : (I.resetCursors p).Core c := by
  have hz := h.fits
  have hpos := Inst.size_pos hr
  have e : (I.resetCursors p).r = 0 ∧ (I.resetCursors p).w = 0 ∧ (I.resetCursors p).wcnt = 0 ∧ (I.resetCursors p).rcnt = 0 ∧ (I.resetCursors p).size = I.size := by
        unfold Inst.resetCursors Inst.emit Inst.zeroCursors; split <;> simp
  refine ⟨hz.zeroCursors.emit _ _ (Nat.two_pow_pos _), fun hr => ?_, fun hr _ => ?_⟩
  · rw [e.1, e.2.1, e.2.2.2.2]; exact ⟨hpos, hpos⟩
  · rw [e.1, e.2.1, e.2.2.1, e.2.2.2.1, e.2.2.2.2, Machine.dist_self hpos]
    simp [behind]

theorem ready_resetCursors (I : Inst) (p : Port) : (I.resetCursors p).ready = I.ready := by
  unfold Inst.resetCursors Inst.emit Inst.zeroCursors; split <;> rfl

theorem execOverwrite_keeps {s t : State} (hI : s.Inv) (h : execOverwrite s = .next t) : t.Inv := by
  refine keeps_of hI h fun c u code ha hca hcn hck hr => ?_
  have hl := ha.lt
  have h0 := Nat.two_pow_pos s.cfg.regW
  have hx := armed_x ha rfl
  split at hr
  · cases hr; exact (Keeps.refl hI hl).setRes0 hl h0
  · rename_i hs
    have hrd := (sentinel_no hs).1
    have hInv := State.Inv.here hI hl
    have hc := hInv.cursors hrd
    have hpos := Inst.size_pos hrd
    simp only at hr
    split at hr
    · rename_i hcap
      unfold State.overwriteAll at hr
      simp only at hr
      split at hr
      · cases hr
      · cases hr
        refine Keeps.setRes0 ?_ hl hcn
        have hM : Keeps s { s with mem := s.here.storageWrite s.mem 0 (s.mem.readBytes (c.a + (c.n - (s.here.size - 1))) (s.here.size - 1)) } .overwrite := by
          refine (Keeps.refl hI hl).setMem (wf_storageWrite _ hI.memory.wf _ _) fun x hx => ?_
          rcases mem_storageWrite _ hpos (by rw [Memory.length_readBytes]; omega) hx with h | h
          · exact .inl h
          · right; have := hInv.fits.storage; omega
        have hcore := hInv.core.resetCursors hrd s.site.port
        refine Keeps.modX (hM.modX hl (mem_involved_self _ _) hx _ hcore) hl (mem_involved_self _ _) hx _ ?_
        have e1 := State.inst_modInst_same { s with mem := s.here.storageWrite s.mem 0 (s.mem.readBytes (c.a + (c.n - (s.here.size - 1))) (s.here.size - 1)) } s.site.inst (fun J => J.resetCursors s.site.port) hl
        rw [e1]
        have e : (s.here.resetCursors s.site.port).w = 0 ∧ (s.here.resetCursors s.site.port).r = 0 ∧ (s.here.resetCursors s.site.port).size = s.here.size := by
          unfold Inst.resetCursors Inst.emit Inst.zeroCursors; split <;> simp
        have := hcore.commitW (by rw [ready_resetCursors]; exact hrd) s.site.port (m := s.here.size - 1) (by rw [e.1, e.2.1, e.2.2, Machine.dist_self hpos]; omega)
        rw [e.1] at this
        exact this
    · rename_i hcap
      unfold State.overwriteSome at hr
      simp only at hr
      split at hr
      · cases hr
      · cases hr
        refine Keeps.setRes0 ?_ hl hcn
        have hd := dist_lt (a := s.here.r) (b := s.here.w) hpos
        have hfree := Inst.free_eq_dist hrd hc.r hc.w
        have hw : ∀ {v : State}, Keeps s v .overwrite → v.mem = s.mem → Keeps s { v with mem := s.here.storageWrite s.mem s.here.w (s.mem.readBytes c.a c.n) } .overwrite := by
          intro v hv hvm
          refine hv.setMem (wf_storageWrite _ hI.memory.wf _ _) fun x hx => ?_
          rw [hvm]
          rcases mem_storageWrite _ hc.w (by rw [Memory.length_readBytes]; omega) hx with h | h
          · exact .inl h
          · right; have := hInv.fits.storage; omega
        by_cases hf : s.here.free s.here.r s.here.w < c.n
        · simp only [hf, if_true]
          have hcore := hInv.core.commitR hrd s.site.port (m := c.n - s.here.free s.here.r s.here.w) (by omega)
          have k1 := (Keeps.refl (i := .overwrite) hI hl).modX hl (mem_involved_self _ _) hx (fun I => I.commitR s.cfg s.site.port s.here.r (c.n - s.here.free s.here.r s.here.w)) hcore
          refine Keeps.modX (hw k1 rfl) hl (mem_involved_self _ _) hx _ ?_
          have e : State.inst { s.modInst s.site.inst (fun I => I.commitR s.cfg s.site.port s.here.r (c.n - s.here.free s.here.r s.here.w)) with
             mem := s.here.storageWrite s.mem s.here.w (s.mem.readBytes c.a c.n) } s.site.inst = s.here.commitR s.cfg s.site.port s.here.r (c.n - s.here.free s.here.r s.here.w) := by
            rw [State.inst_setMem, State.inst_modInst_same _ _ _ hl]; rfl
          rw [e]
          have := hcore.commitW (by simpa using hrd) s.site.port (m := c.n) (by
            simp only [Inst.commitR_r, Inst.commitR_w, Inst.commitR_size]
            rw [dist_catchup hc.r hc.w (by omega)]; omega)
          simpa using this
        · simp only [hf, if_false]
          refine Keeps.modX (hw (Keeps.refl hI hl) rfl) hl (mem_involved_self _ _) hx _ ?_
          exact hInv.core.commitW hrd s.site.port (m := c.n) (by omega)

theorem Keeps.writeBytes {s u : State} {i : Instr} (h : Keeps s u i) {a n : Nat} {v : List Byte} (hv : v.length = n) (ha : a + n ≤ 2 ^ s.cfg.regW) :
    Keeps s { u with mem := u.mem.writeBytes a v } i := by
  refine h.setMem (Memory.wf_writeBytes _ _ h.mem.wf) fun x hx => ?_
  rcases Memory.mem_writeBytes hx with h1 | h1
  · exact .inl h1
  · right; omega

/-- The chunk loop of `MOVE`. -/
theorem loop_keeps {s : State} {src : Nat} (hx : s.site.port = .x) (hd : s.site.inst < s.insts.length) (hs : src < s.insts.length) (fuel : Nat) :
    ∀ (b : Nat) (u : State), Keeps s u (.move src) → (u.inst s.site.inst).ready = true → (u.inst src).ready = true →
      Keeps s (moveLoop s.site.inst src fuel b u).1 (.move src) := by
  induction fuel with
  | zero => intro b u h _ _; exact h
  | succ f ih =>
    intro b u h hrd hrs
    unfold moveLoop
    split
    · exact h
    · simp only
      split
      · exact h
      · rename_i hb hc
        have kd : s.site.inst ∈ involved (.move src) s.site.inst := by simp [involved]
        have ks : src ∈ involved (.move src) s.site.inst := by simp [involved]
        have cd := h.xcore hx _ kd hd
        have cs := h.xcore hx _ ks hs
        obtain ⟨d1, d2⟩ := cd.cursors hrd
        obtain ⟨s1, s2⟩ := cs.cursors hrs
        have Wd := window_facts _ _ _ hrd d1 d2
        have Ws := window_facts _ _ _ hrs s1 s2
        have fd := Inst.free_eq_dist hrd d1 d2
        have os := Inst.occ_eq_dist hrs s1 s2
        have ld := dist_lt (a := (u.inst s.site.inst).r) (b := (u.inst s.site.inst).w) (Inst.size_pos hrd)
        generalize hcc : min (min ((u.inst src).linRLen (u.inst src).r (u.inst src).w) ((u.inst s.site.inst).linWLen (u.inst s.site.inst).r (u.inst s.site.inst).w)) b = c at *
        have hw1 : c ≤ (u.inst s.site.inst).linWLen (u.inst s.site.inst).r (u.inst s.site.inst).w := by omega
        have hr1 : c ≤ (u.inst src).linRLen (u.inst src).r (u.inst src).w := by omega
        have cd' := cd.commitW hrd s.site.port (m := c) (by omega)
        have m1 := Keeps.writeBytes h (a := (u.inst s.site.inst).base + (u.inst s.site.inst).w) (v := u.mem.readBytes ((u.inst src).base + (u.inst src).r) c) (Memory.length_readBytes _ _ _)
          (by have := cd.fits.storage; omega)
        have k1 := m1.modX hd kd hx (fun I => I.commitW s.cfg s.site.port (u.inst s.site.inst).w c) cd'
        have hlu : u.insts.length = s.insts.length := h.count
        set u1 := State.modInst { u with mem := u.mem.writeBytes ((u.inst s.site.inst).base + (u.inst s.site.inst).w) (u.mem.readBytes ((u.inst src).base + (u.inst src).r) c) } s.site.inst
          (fun I => I.commitW s.cfg s.site.port (u.inst s.site.inst).w c) with hu1
        have e1 : u1.inst s.site.inst = (u.inst s.site.inst).commitW s.cfg s.site.port (u.inst s.site.inst).w c := by
          rw [hu1, State.inst_modInst_same _ _ _ (by rw [hlu]; exact hd)]; rfl
        have e2 : ∀ j, j ≠ s.site.inst → u1.inst j = u.inst j := fun j hj => by rw [hu1, State.inst_modInst_ne _ _ _ _ hj]; rfl
        have r1 : (u1.inst s.site.inst).ready = true := by rw [e1]; simpa using hrd
        have core_s : (u1.inst src).Core s.cfg ∧ (u1.inst src).ready = true ∧ (u1.inst src).r = (u.inst src).r ∧ c ≤ Machine.dist (u1.inst src).size (u1.inst src).r (u1.inst src).w := by
          by_cases hsd : src = s.site.inst
          · rw [hsd] at *
            rw [e1]
            refine ⟨cd', by simpa using hrd, by simp, ?_⟩
            simp only [Inst.commitW_r, Inst.commitW_w, Inst.commitW_size]
            rw [dist_advance d1 d2 (by omega)]; omega
          · rw [e2 _ hsd]; exact ⟨cs, hrs, rfl, by omega⟩
        have cs' := core_s.1.commitR core_s.2.1 s.site.port (m := c) core_s.2.2.2
        rw [core_s.2.2.1] at cs'
        have k2 := k1.modX hs ks hx (fun I => I.commitR s.cfg s.site.port (u.inst src).r c) cs'
        have eq : (State.commitR (State.commitW { u with mem := u.mem.writeBytes ((u.inst s.site.inst).base + (u.inst s.site.inst).w) (u.mem.readBytes ((u.inst src).base + (u.inst src).r) c) }
            s.site.inst (u.inst s.site.inst).w c) src (u.inst src).r c) = u1.modInst src (fun I => I.commitR s.cfg s.site.port (u.inst src).r c) := by
          rw [hu1]
          unfold State.commitR State.commitW
          simp only [h.cfg, h.site]
          rfl
        rw [eq]
        have hlu1 : u1.insts.length = s.insts.length := k1.count
        refine ih _ _ k2 ?_ ?_
        · by_cases hsd : s.site.inst = src
          · rw [hsd, State.inst_modInst_same _ _ _ (by rw [hlu1]; exact hs)]
            have := core_s.2.1
            simpa using this
          · rw [State.inst_modInst_ne _ _ _ _ hsd]; exact r1
        · rw [State.inst_modInst_same _ _ _ (by rw [hlu1]; exact hs)]
          simpa using core_s.2.1

theorem execMove_keeps {s t : State} {src : Nat} (hI : s.Inv) (h : execMove src s = .next t) : t.Inv := by
  refine keeps_of hI h fun c u code ha hca hcn hck hr => ?_
  have hl := ha.lt
  have hs : src < s.insts.length := ha.exist _ (by simp [involved])
  have h0 := Nat.two_pow_pos s.cfg.regW
  have hx := armed_x ha rfl
  simp only at hr
  split at hr
  · cases hr; exact (Keeps.refl hI hl).setRes0 hl h0
  · rename_i hrd
    simp only [not_or, Bool.not_eq_false] at hrd
    split at hr
    · cases hr
    · split at hr
      · cases hr
      · have hk := loop_keeps hx hl hs (moveBudget s.here (s.inst src)) (moveBudget s.here (s.inst src)) s (Keeps.refl hI hl) hrd.1 hrd.2
        have hb : moveBudget s.here (s.inst src) < 2 ^ s.cfg.regW := by
          have := (occ_lt_reg hI ha).2
          have e : s.view = (s.here.r, s.here.w) := by simp [State.view, Inst.view, hx]
          rw [e] at this
          unfold moveBudget; simp only at this; omega
        split at hr
        · rename_i t' heq
          cases hr; rw [heq] at hk; exact hk.setRes0 hl hb
        · rename_i t' code' _ heq
          cases hr; rw [heq] at hk; exact hk.setRes0 hl h0

/-- Every command keeps the machine invariant. -/
theorem exec_keeps {s t : State} {i : Instr} (hI : s.Inv) (h : exec i s = .next t) : t.Inv := by
  obtain ⟨a1, a2, a3, a4, a5, a6, a7, a8⟩ := queries_keep (s := s) (t := t) hI
  cases i with
  | init => exact execInit_keeps hI h
  | deinit => exact execDeinit_keeps hI h
  | reset => exact execReset_keeps hI h
  | setEvt => exact execSetEvt_keeps hI h
  | setTag => exact execSetTag_keeps hI h
  | getTag => exact a2 h
  | isReady => exact a1 h
  | free => exact a3 h
  | occ => exact a4 h
  | write => exact execWrite_keeps hI h
  | writeExact => exact execWriteExact_keeps hI h
  | linWAddr => exact a7 h
  | linWLen => exact a8 h
  | advance => exact execAdvance_keeps hI h
  | read => exact execRead_keeps hI h
  | readExact => exact execReadExact_keeps hI h
  | peek => exact execPeek_keeps hI h
  | linRAddr => exact a5 h
  | linRLen => exact a6 h
  | skip => exact execSkip_keeps hI h
  | overwrite => exact execOverwrite_keeps hI h
  | move src => exact execMove_keeps hI h
  | find => exact execFind_keeps hI h

theorem inv_sched {s : State} (h : s.Inv) (l : List Action) : State.Inv { s with sched := l } :=
  ⟨h.cfg, h.count, ⟨h.memory.wf, h.memory.addresses⟩, h.insts⟩

theorem inv_site {s : State} (h : s.Inv) (l : Site) : State.Inv { s with site := l } :=
  ⟨h.cfg, h.count, ⟨h.memory.wf, h.memory.addresses⟩, h.insts⟩

theorem inv_rdata {s : State} (h : s.Inv) (l : Option Nat) : State.Inv { s with rdata := l } :=
  ⟨h.cfg, h.count, ⟨h.memory.wf, h.memory.addresses⟩, h.insts⟩

theorem inv_faults {s : State} (h : s.Inv) (l : List Fault) : State.Inv { s with faults := l } :=
  ⟨h.cfg, h.count, ⟨h.memory.wf, h.memory.addresses⟩, h.insts⟩

theorem inv_modInst {s : State} (h : s.Inv) (j : Nat) (f : Inst → Inst) (hf : j < s.insts.length → (f (s.inst j)).Inv s.cfg) : (s.modInst j f).Inv :=
  ⟨h.cfg, by simpa using h.count, ⟨h.memory.wf, h.memory.addresses⟩, fun I hI => by
    rcases s.mem_modInst j f I hI with h1 | ⟨h1, rfl⟩
    · exact h.insts I h1
    · exact hf h1⟩

theorem inv_updPort {s : State} (h : s.Inv) (j : Nat) (p : Port) (f : PortState → PortState) (hf : ∀ q, q.Fits s.cfg p → (f q).Fits s.cfg p) :
    (s.updPort j p f).Inv :=
  inv_modInst h j _ fun hj => (h.insts _ (s.inst_mem j hj)).setPort (hf _ ((h.insts _ (s.inst_mem j hj)).fits.ports p))

end Sys2Proof.Machine
end

