-- ==== Sys2Proof/Laws/PerInstr.lean ====
section
/-! SUPPORT. Statements about commands as syntax, one lemma per constructor: the word of a command (R100, R102, R105, R106). -/

namespace Sys2Proof.Laws.Encoding

/-- The command's row of the opcode map, and the fields of its word when its source number fits: `OP` and `SRC` in their places
and every reserved bit 0 (R100, R105). -/
def Statement (i : Instr) : Prop :=
  (i.opcode, i.legalPorts) ∈ Machine.opcodeMap ∧
    (i.srcFits = true → bitField (encode i) 5 0 = i.opcode ∧ bitField (encode i) 7 6 = 0 ∧
      bitField (encode i) 15 8 = i.srcField ∧ encode i / 2 ^ 16 = 0)

theorem init : Statement .init := by unfold Statement; decide
theorem deinit : Statement .deinit := by unfold Statement; decide
theorem reset : Statement .reset := by unfold Statement; decide
theorem setEvt : Statement .setEvt := by unfold Statement; decide
theorem setTag : Statement .setTag := by unfold Statement; decide
theorem getTag : Statement .getTag := by unfold Statement; decide
theorem isReady : Statement .isReady := by unfold Statement; decide
theorem free : Statement .free := by unfold Statement; decide
theorem occ : Statement .occ := by unfold Statement; decide
theorem write : Statement .write := by unfold Statement; decide
theorem writeExact : Statement .writeExact := by unfold Statement; decide
theorem linWAddr : Statement .linWAddr := by unfold Statement; decide
theorem linWLen : Statement .linWLen := by unfold Statement; decide
theorem advance : Statement .advance := by unfold Statement; decide
theorem read : Statement .read := by unfold Statement; decide
theorem readExact : Statement .readExact := by unfold Statement; decide
theorem peek : Statement .peek := by unfold Statement; decide
theorem linRAddr : Statement .linRAddr := by unfold Statement; decide
theorem linRLen : Statement .linRLen := by unfold Statement; decide
theorem skip : Statement .skip := by unfold Statement; decide
theorem overwrite : Statement .overwrite := by unfold Statement; decide
theorem find : Statement .find := by unfold Statement; decide

theorem move (src : Nat) : Statement (.move src) := by
  refine ⟨(by decide : (0x21, [Port.x]) ∈ Machine.opcodeMap), fun h => ?_⟩
  have h' : src < 256 := of_decide_eq_true h
  simp only [bitField, encode, Instr.opcode, Instr.srcField]
  norm_num
  omega

end Sys2Proof.Laws.Encoding
end

