-- ==== Sys2Proof/Laws/Quiescence.lean ====
section
/-! SUPPORT. The measure that every step of the controller's own agents lowers (R93, R315). -/

namespace Sys2Proof.Machine

/-- The number of busy ports. -/
def busyPorts (I : Inst) : Nat := (if I.wport.busy.isSome then 1 else 0) + (if I.rport.busy.isSome then 1 else 0) + (if I.xport.busy.isSome then 1 else 0)

/-- The number of views that trail. -/
def trailingViews (c : Config) (I : Inst) : Nat := (if I.canW2R c (Machine.dist I.size I.wv I.w) then 1 else 0) + (if I.canR2W c (Machine.dist I.size I.rv I.r) then 1 else 0)

/-- The busy ports of the controller. -/
def totalBusy (s : State) : Nat := ∑ j ∈ Finset.range s.insts.length, busyPorts (s.inst j)

/-- The trailing views of the controller. -/
def totalTrailing (s : State) : Nat := ∑ j ∈ Finset.range s.insts.length, trailingViews s.cfg (s.inst j)

/-- What every step of the controller's own agents lowers. -/
def work (s : State) : Nat := totalBusy s * (2 * s.insts.length + 1) + totalTrailing s

theorem busyPorts_le (I : Inst) : busyPorts I ≤ 3 := by unfold busyPorts; split_ifs <;> omega

theorem trailingViews_le (c : Config) (I : Inst) : trailingViews c I ≤ 2 := by unfold trailingViews; split_ifs <;> omega

theorem totalBusy_le (s : State) : totalBusy s ≤ 3 * s.insts.length := by
  unfold totalBusy
  have := Finset.sum_le_card_nsmul (Finset.range s.insts.length) (fun j => busyPorts (s.inst j)) 3 fun j _ => busyPorts_le _
  simpa [mul_comm] using this

theorem totalTrailing_le (s : State) : totalTrailing s ≤ 2 * s.insts.length := by
  unfold totalTrailing
  have := Finset.sum_le_card_nsmul (Finset.range s.insts.length) (fun j => trailingViews s.cfg (s.inst j)) 2 fun j _ => trailingViews_le _ _
  simpa [mul_comm] using this

/-- A COMPLETE step lowers the measure. -/
theorem work_complete {i : Instr} {s t : State} {c : Pending} (hE : StepEffect i s t) (hl : s.site.inst < s.insts.length) (hb : s.herePort.busy = some c) : work t < work s := by
  have h1 : totalBusy t < totalBusy s := by
    unfold totalBusy; rw [hE.count]
    have key : ∀ j p, ((t.inst j).port p).busy.isSome = true → ((s.inst j).port p).busy.isSome = true := by
      intro j p h; rw [hE.busy] at h; split at h; exacts [by simp at h, h]
    refine Finset.sum_lt_sum (fun j _ => ?_) ⟨s.site.inst, by simpa using hl, ?_⟩
    · have a := key j .w; have b := key j .r; have c := key j .x
      simp only [Inst.port] at a b c
      unfold busyPorts; split_ifs <;> simp_all
    · have a := key s.site.inst .w; have b := key s.site.inst .r; have c' := key s.site.inst .x
      simp only [Inst.port] at a b c'
      have hn := hE.busy s.site.inst s.site.port
      rw [if_pos rfl] at hn
      have hb' : ((s.inst s.site.inst).port s.site.port).busy = some c := hb
      unfold busyPorts
      cases hp : s.site.port <;> rw [hp] at hn hb' <;> simp only [Inst.port] at hn hb' <;> simp only [hn, hb'] <;> split_ifs <;> simp_all
  unfold work
  have := totalTrailing_le t
  rw [hE.count] at *
  have : (totalBusy t + 1) * (2 * s.insts.length + 1) ≤ totalBusy s * (2 * s.insts.length + 1) := Nat.mul_le_mul_right _ h1
  rw [Nat.add_mul] at this
  omega

/-- A step on one instance that synchronises a view lowers the measure. -/
theorem work_sync {s : State} {i : Nat} {f : Inst → Inst} (hl : i < s.insts.length) (hb : busyPorts (f (s.inst i)) = busyPorts (s.inst i)) (hu : trailingViews s.cfg (f (s.inst i)) < trailingViews s.cfg (s.inst i)) : work (s.modInst i f) < work s := by
  have e : (s.modInst i f).insts.length = s.insts.length := by simp
  have hB : totalBusy (s.modInst i f) = totalBusy s := by
    unfold totalBusy; rw [e]
    refine Finset.sum_congr rfl fun j _ => ?_
    rw [State.inst_modInst]; split
    · rename_i h; rw [h.1]; exact hb
    · rfl
  have hU : totalTrailing (s.modInst i f) < totalTrailing s := by
    unfold totalTrailing; rw [e]
    refine Finset.sum_lt_sum (fun j _ => ?_) ⟨i, by simpa using hl, ?_⟩
    · change trailingViews s.cfg _ ≤ _
      rw [State.inst_modInst]; split
      · rename_i h; rw [h.1]; exact hu.le
      · exact le_rfl
    · change trailingViews s.cfg _ < _
      rw [State.inst_modInst_same _ _ _ hl]; exact hu
  unfold work; rw [hB, e]; omega

theorem trailingViews_syncW2R {c : Config} {I : Inst} (h : I.Inv c) (hk : I.canW2R c (Machine.dist I.size I.wv I.w) = true) : trailingViews c (I.syncW2R c (Machine.dist I.size I.wv I.w)) < trailingViews c I := by
  have hk' := hk
  simp only [Inst.canW2R, decide_eq_true_eq] at hk'
  have hc := h.cursors hk'.2.1
  have hw : (I.syncW2R c (Machine.dist I.size I.wv I.w)).wv = I.w := by
    change (I.wv + Machine.dist I.size I.wv I.w) % I.size = I.w
    have := dist_lt (a := I.wv) (b := I.w) (Inst.size_pos hk'.2.1)
    rw [add_mod_ring hc.wv this, dist_eq hc.wv hc.w]
    split_ifs <;> (have := hc.w; have := hc.wv; omega)
  have h0 : ∀ k, (I.syncW2R c (Machine.dist I.size I.wv I.w)).canW2R c k = false := by
    intro k; simp only [Inst.canW2R, decide_eq_false_iff_not]; rw [hw]; simp [Inst.syncW2R]
  have h1 : ∀ k, (I.syncW2R c (Machine.dist I.size I.wv I.w)).canR2W c k = I.canR2W c k := by intro k; rfl
  unfold trailingViews
  rw [h0, hk, h1]
  simp only [Bool.false_eq_true, if_false, if_true]
  change 0 + (if I.canR2W c (Machine.dist I.size I.rv I.r) = true then 1 else 0) < _
  omega

theorem trailingViews_syncR2W {c : Config} {I : Inst} (h : I.Inv c) (hk : I.canR2W c (Machine.dist I.size I.rv I.r) = true) : trailingViews c (I.syncR2W c (Machine.dist I.size I.rv I.r)) < trailingViews c I := by
  have hk' := hk
  simp only [Inst.canR2W, decide_eq_true_eq] at hk'
  have hc := h.cursors hk'.2.1
  have hw : (I.syncR2W c (Machine.dist I.size I.rv I.r)).rv = I.r := by
    change (I.rv + Machine.dist I.size I.rv I.r) % I.size = I.r
    have := dist_lt (a := I.rv) (b := I.r) (Inst.size_pos hk'.2.1)
    rw [add_mod_ring hc.rv this, dist_eq hc.rv hc.r]
    split_ifs <;> (have := hc.r; have := hc.rv; omega)
  have h0 : ∀ k, (I.syncR2W c (Machine.dist I.size I.rv I.r)).canR2W c k = false := by
    intro k; simp only [Inst.canR2W, decide_eq_false_iff_not]; rw [hw]; simp [Inst.syncR2W]
  have h1 : ∀ k, (I.syncR2W c (Machine.dist I.size I.rv I.r)).canW2R c k = I.canW2R c k := by intro k; rfl
  unfold trailingViews
  rw [h0, hk, h1]
  simp only [Bool.false_eq_true, if_false, if_true]
  change (if I.canW2R c (Machine.dist I.size I.wv I.w) = true then 1 else 0) + 0 < _
  omega

/-- With no step of its own to take, the controller is quiescent (R315). -/
theorem quiescent_of_no_own_action {s : State} (hI : s.Inv) (h : s.ownAction = none) : s.Quiescent := by
  simp only [State.ownAction, List.findSome?_eq_none_iff, List.mem_range] at h
  have hs : ∀ j < s.insts.length, (s.inst j).synced = true := by
    intro j hj
    have := h j hj
    simp only [State.ownActionOf] at this
    split_ifs at this with a b c d e
    simp only [Inst.synced, decide_eq_true_eq]
    by_cases hr : (s.inst j).ready = true
    · right
      have hInv := hI.insts _ (s.inst_mem j hj)
      have hc := hInv.cursors hr
      cases hm : s.cfg.cdc with
      | sync => have := hInv.views hr; simpa [Inst.ViewsAgree, hm] using this
      | async =>
        simp only [Inst.canW2R, Inst.canR2W, hm, hr, decide_eq_true_eq, true_and] at d e
        constructor
        · by_contra hne
          refine e ⟨hne, ?_, le_rfl⟩
          have := (dist_eq_zero hc.rv hc.r).not.mpr hne; omega
        · by_contra hne
          refine d ⟨hne, ?_, le_rfl⟩
          have := (dist_eq_zero hc.wv hc.w).not.mpr hne; omega
    · left; simpa using hr
  intro j hj
  refine ⟨fun p => ?_, hs j hj⟩
  by_contra hb
  obtain ⟨c, hc⟩ := Option.ne_none_iff_exists'.mp hb
  have hu : s.completable j p = some c.instr := by
    unfold State.completable
    rw [hc]; simp only
    rw [if_pos]
    unfold State.unheld
    cases p with
    | x =>
      refine List.all_eq_true.mpr fun k hk => ?_
      by_cases hkl : k < s.insts.length
      · exact hs k hkl
      · rw [s.inst_ge k (by omega)]; simp [Inst.synced, Inst.ready, Inst.reset]
    | _ => rfl
  have := h j hj
  simp only [State.ownActionOf] at this
  split_ifs at this with a b c d e
  cases p <;> simp [hu] at a b c

/-- A step of the controller's own agents lowers the measure. -/
theorem own_step_lowers_work {s : State} {act : Action} (hI : s.Inv) (h : s.ownAction = some act) {t : State} (hp : s.perform act = .next t) :
    t.faults = s.faults ∧ t.sched = s.sched ∧ work t < work s ∧ t.insts.length = s.insts.length := by
  simp only [State.ownAction] at h
  obtain ⟨i, hi, h⟩ := List.exists_of_findSome?_eq_some h
  have hl : i < s.insts.length := by simpa using hi
  have comp : ∀ p, (s.completable i p).isSome = true → s.perform (.complete i p) = .next t → t.faults = s.faults ∧ t.sched = s.sched ∧ work t < work s ∧ t.insts.length = s.insts.length := by
    intro p hc hp
    simp only [State.perform, State.completeStep] at hp
    obtain ⟨c, hcc⟩ := Option.isSome_iff_exists.mp hc
    rw [hcc] at hp
    simp only at hp
    have hE := exec_stepEffect hp
    unfold State.completable at hcc
    split at hcc
    · cases hcc
    · rename_i b hb
      exact ⟨hE.faults, hE.sched, work_complete (s := { s with site := ⟨i, p⟩ }) hE hl hb, hE.count⟩
  have hInv := hI.insts _ (s.inst_mem i hl)
  simp only [State.ownActionOf] at h
  split_ifs at h with a b c d e
  · cases h; exact comp _ a hp
  · cases h; exact comp _ b hp
  · cases h; exact comp _ c hp
  · cases h
    simp only [State.perform, State.stepInst, d, if_true] at hp
    cases hp
    exact ⟨rfl, rfl, work_sync hl rfl (trailingViews_syncW2R hInv d), by simp⟩
  · cases h
    simp only [State.perform, State.stepInst, e, if_true] at hp
    cases hp
    exact ⟨rfl, rfl, work_sync hl rfl (trailingViews_syncR2W hInv e), by simp⟩

end Sys2Proof.Machine
end

