-- ==== Sys2Proof/Laws/Words.lean ====
section
/-! SUPPORT. The opcode map (R105) and the commands. -/

namespace Sys2Proof.Machine

theorem opcode_row (i : Instr) : (i.opcode, i.legalPorts) ∈ opcodeMap := by cases i <;> simp [opcodeMap, Instr.opcode, Instr.legalPorts]

/-- The ports of a listed `OP` are those of its command (R106). -/
theorem row_ports (i : Instr) : ∀ row ∈ opcodeMap, row.1 = i.opcode → row.2 = i.legalPorts := by
  cases i
  case move src => exact fun row h => (by decide : ∀ row ∈ opcodeMap, row.1 = 0x21 → row.2 = [Port.x]) row h
  all_goals decide

theorem instrOfOp_opcode (i : Instr) : instrOfOp i.opcode i.srcField = some i := by cases i <;> rfl

/-- What the opcode map gives for a listed `OP` (R105, R106). -/
theorem instrOfOp_some {op src : Nat} {i : Instr} (h : instrOfOp op src = some i) :
    i.opcode = op ∧ i.srcField = (if op = 0x21 then src else 0) := by
  unfold instrOfOp at h
  split at h <;> first | cases h; exact ⟨rfl, rfl⟩ | cases h

/-- A reserved `OP` is one the opcode map does not list (R105). -/
theorem instrOfOp_none {op src : Nat} : instrOfOp op src = none ↔ ∀ row ∈ opcodeMap, row.1 ≠ op := by
  constructor
  · rintro h row hrow rfl
    revert h row
    simp [opcodeMap, instrOfOp]
  · intro h
    cases hi : instrOfOp op src with
    | none => rfl
    | some i => exact absurd (instrOfOp_some hi).1 (h _ (opcode_row i))

theorem legalOn_iff (i : Instr) (p : Port) : i.legalOn p = true ↔ p ∈ i.legalPorts := by
  unfold Instr.legalOn; simp

theorem opcode_lt (i : Instr) : i.opcode < 64 := by cases i <;> simp [Instr.opcode]

end Sys2Proof.Machine
end

