-- ==== Sys2Proof/Tests/Slice0.lean ====
section
/-! SUPPORT. The model's own tests. Expected results are the words, tables and worked examples of 95_test_vectors.md (cited as
X1, 2.4 and so on) or hand calculation from the rule cited; then one witness for the hypotheses of each obligation. -/

namespace Sys2Proof.Machine.Tests

/-! ### Words (R100, R105), written out bit by bit -/

theorem test_words_init_status :
    decode 2 .x 0b000001 = .ok .init ∧ decode 2 .x 0b000010 = .ok .deinit ∧ decode 2 .x 0b000100 = .ok .setEvt ∧
    decode 2 .x 0b000101 = .ok .setTag ∧ decode 2 .w 0b000110 = .ok .getTag ∧ decode 2 .r 0b000111 = .ok .isReady := by decide

theorem test_words_occupancy : decode 2 .w 0b001000 = .ok .free ∧ decode 2 .r 0b001001 = .ok .occ := by decide

theorem test_words_write_read :
    decode 2 .w 0b010000 = .ok .write ∧ decode 2 .w 0b010001 = .ok .writeExact ∧ decode 2 .r 0b011000 = .ok .read ∧
    decode 2 .r 0b011001 = .ok .readExact ∧ decode 2 .r 0b011010 = .ok .peek := by decide

theorem test_words_linear_block :
    decode 2 .w 0b010010 = .ok .linWAddr ∧ decode 2 .w 0b010011 = .ok .linWLen ∧ decode 2 .w 0b010100 = .ok .advance ∧
    decode 2 .r 0b011011 = .ok .linRAddr ∧ decode 2 .r 0b011100 = .ok .linRLen ∧ decode 2 .r 0b011101 = .ok .skip := by decide

theorem test_words_reset_extended :
    decode 2 .x 0b000011 = .ok .reset ∧ decode 2 .x 0b100000 = .ok .overwrite ∧
    decode 2 .x 0b00000001_00_100001 = .ok (.move 1) ∧ decode 2 .x 0b00000000_00_100001 = .ok (.move 0) ∧
    decode 2 .x 0b100010 = .ok .find := by decide

/-- The ILLEGAL rows of 2.1. -/
theorem test_words_illegal :
    decode 2 .w 0x0 = .error .reservedOp ∧ decode 2 .r 0x10 = .error .wrongPort ∧ decode 2 .w 0x18 = .error .wrongPort ∧
    decode 2 .w 0x3 = .error .wrongPort ∧ decode 2 .x 0x221 = .error .srcRange ∧ decode 2 .w 0x110 = .error .srcNotZero ∧
    decode 2 .w 0x50 = .error .rsv0 ∧ decode 2 .w 0x10010 = .error .rsv1 ∧ decode 2 .x 0xA = .error .reservedOp ∧
    decode 2 .x 0x3F = .error .reservedOp ∧ decode 2 .r 0x22 = .error .wrongPort := by decide

theorem test_table_words : decodeTableWord 16 0x0121 = some (.move 1) ∧ decodeTableWord 32 0x22 = some .find ∧
    decodeTableWord 32 0x10010 = none := by decide

/-! ### Well-formedness: one ill-formed command for each check -/

theorem test_wellFormed_ok : Instr.wellFormed 256 .x (.move 255) = true := by decide
/-- `SRC` wider than its field (R100). -/
theorem test_wellFormed_src_width : Instr.wellFormed 1000 .x (.move 256) = false := by decide
/-- `SRC` names no instance (R102). -/
theorem test_wellFormed_src_exists : Instr.wellFormed 2 .x (.move 2) = false := by decide
/-- A command on a port where it is not legal (R106). -/
theorem test_wellFormed_port : Instr.wellFormed 2 .r .write = false := by decide

/-! ### Small states -/

/-- A ready instance whose views equal its cursors, with counts that fit them and `EVT_EN = 1`. -/
def live (base size r w : Nat) : Inst :=
  { Inst.reset 2 with
    base := base, size := size, r := r, w := w, rv := r, wv := w, evtEn := true
    wcnt := dist size r w, wpub := dist size r w, wsync := [gray (dist size r w), gray (dist size r w)] }

/-- `cmd` busy on port `p` of instance 0, with instance 1 as `J` and memory `m`. -/
def busyOn (p : Port) (I J : Inst) (m : Memory) (c : Pending) : State :=
  { State.reset with
    insts := [I.setPort p { PortState.reset with busy := some c }, J], mem := m, site := ⟨0, p⟩ }

/-- Bytes laid out from `a` on. -/
def bytesAt (a : Nat) (v : List Nat) : Memory := (List.range v.length).zipWith (fun i x => (a + i, BitVec.ofNat 8 x)) v

/-- `RES0`, `RES1`, the cursors, the unread bytes and the events of instance 0 after a command. -/
structure Seen where
  res0 : Nat
  res1 : Nat
  r : Nat
  w : Nat
  content : List Nat
  events : List Event
  deriving DecidableEq, Repr

def seen (s : State) (i : Instr) : Option Seen :=
  match exec i s with
  | .next t =>
    let I := t.here
    some ⟨t.herePort.res0, t.herePort.res1, I.r, I.w,
      (I.storageRead t.mem I.r (I.occ I.r I.w)).map BitVec.toNat, I.events⟩
  | _ => none

def faultOf (s : State) (i : Instr) : Option Fault :=
  match exec i s with
  | .fault f => some f
  | _ => none

/-- A command on the X port of instance 0. -/
def onX (i : Instr) (I : Inst) (m : Memory) (a n k : Nat) : Option Seen :=
  seen (busyOn .x I (.reset 2) m ⟨i, a, n, k⟩) i

/-! ### Initialisation and status (2.2) -/

theorem test_init_top : onX .init (.reset 2) [] 0xFFFFFFF0 0x10 0 = some ⟨1, 0, 0, 0, [], []⟩ := by decide
theorem test_init_refused : onX .init (.reset 2) [] 0xFFFFFFF0 0x20 0 = some ⟨0, 0, 0, 0, [], []⟩ ∧
    onX .init (.reset 2) [] 0x1000 0x10000 0 = some ⟨0, 0, 0, 0, [], []⟩ := by decide
theorem test_deinit : onX .deinit (live 0x1000 9 0 3) [] 0 0 0 = some ⟨1, 0, 0, 3, [], []⟩ ∧
    onX .deinit (.reset 2) [] 0 0 0 = some ⟨0, 0, 0, 0, [], []⟩ := by decide
theorem test_setEvt_bit0 : (match exec .setEvt (busyOn .x (live 0x1000 9 0 3) (.reset 2) [] ⟨.setEvt, 0, 2, 0⟩) with
    | .next t => t.here.evtEn | _ => true) = false := by decide
theorem test_setTag : (match exec .setTag (busyOn .x (.reset 2) (.reset 2) [] ⟨.setTag, 0xCAFE, 0, 0⟩) with
    | .next t => t.here.tag | _ => 0) = 0xCAFE := by decide
theorem test_getTag : onX .getTag { Inst.reset 2 with tag := 0xCAFE } [] 0 0 0 = some ⟨0xCAFE, 0, 0, 0, [], []⟩ := by decide
theorem test_isReady : onX .isReady (.reset 2) [] 0 0 0 = some ⟨0, 0, 0, 0, [], []⟩ ∧
    onX .isReady (live 0x1000 1 0 0) [] 0 0 0 = some ⟨1, 0, 0, 0, [], []⟩ := by decide

/-! ### Occupancy, flags and linear blocks (2.3, 2.5, X5) -/

/-- `OCC`, `FREE`, `STATUS` on X, and the linear blocks, of the rows of 2.3 and 2.5. -/
def row (I : Inst) : List Nat :=
  [I.occ I.r I.w, I.free I.r I.w, I.status .x, I.linRAddr I.r, I.linRLen I.r I.w, I.linWAddr I.w, I.linWLen I.r I.w]

theorem test_rows :
    row (live 0x1000 8 0 0) = [0, 7, 0x28, 0x1000, 0, 0x1000, 7] ∧ row (live 0x1000 8 0 7) = [7, 0, 0x30, 0x1000, 7, 0x1007, 0] ∧
    row (live 0x1000 8 3 5) = [2, 5, 0x20, 0x1003, 2, 0x1005, 3] ∧ row (live 0x1000 8 5 3) = [6, 1, 0x20, 0x1005, 3, 0x1003, 1] ∧
    row (live 0x1000 8 4 3) = [7, 0, 0x30, 0x1004, 4, 0x1003, 0] ∧ row (live 0x1000 8 7 7) = [0, 7, 0x28, 0x1007, 0, 0x1007, 1] ∧
    row (live 0x1000 8 1 0) = [7, 0, 0x30, 0x1001, 7, 0x1000, 0] ∧ row (live 0x1000 1 0 0) = [0, 0, 0x38, 0x1000, 0, 0x1000, 0] ∧
    row (.reset 2) = [0, 0, 0x18, 0, 0, 0, 0] := by decide

theorem test_occ : (onX .occ (live 0x1000 8 5 3) [] 0 0 0).map Seen.res0 = some 6 := by decide
theorem test_free : (onX .free (live 0x1000 8 5 3) [] 0 0 0).map Seen.res0 = some 1 := by decide
theorem test_linRAddr : (onX .linRAddr (live 0x1000 8 5 3) [] 0 0 0).map Seen.res0 = some 0x1005 := by decide
theorem test_linRLen : (onX .linRLen (live 0x1000 8 5 3) [] 0 0 0).map Seen.res0 = some 3 := by decide
theorem test_linWAddr : (onX .linWAddr (live 0x1000 8 3 5) [] 0 0 0).map Seen.res0 = some 0x1005 := by decide
theorem test_linWLen : (onX .linWLen (live 0x1000 8 0 0) [] 0 0 0).map Seen.res0 = some 7 := by decide
theorem test_skip : (onX .skip (live 0x1000 9 1 6) [] 0 9 0).map (fun x => (x.res0, x.r, x.w)) = some (5, 6, 6) := by decide
/-- The slots committed are 6, 7, 8, 0 to 4 (R170, R205). -/
theorem test_advance : (onX .advance (live 0x1000 9 6 6) (bytesAt 0x1000 [97, 98, 99, 100, 101, 102, 103, 104]) 0 20 0).map
    (fun x => (x.res0, x.r, x.w, x.content)) = some (8, 6, 5, [103, 104, 0, 97, 98, 99, 100, 101]) := by decide

/-! ### Write, read and peek (2.4, X3) -/

/-- "abcdefghij" at 0x2000. -/
def letters : Memory := bytesAt 0x2000 [97, 98, 99, 100, 101, 102, 103, 104, 105, 106]

theorem test_write_partial : onX .write (live 0x1000 9 0 0) letters 0x2000 10 0 =
    some ⟨8, 0, 0, 8, [97, 98, 99, 100, 101, 102, 103, 104], [⟨.x, .write, 8⟩]⟩ := by decide
/-- A full FIFO answers 0 before `F_BUS` (R278). -/
theorem test_write_full : (onX .write (live 0x1000 9 0 8) letters 0x7FFE 4 0).map (fun x => (x.res0, x.r, x.w)) = some (0, 0, 8) := by
  decide
theorem test_writeExact_wraps : onX .writeExact (live 0x1000 9 7 7) letters 0x2000 8 0 =
    some ⟨1, 0, 7, 6, [97, 98, 99, 100, 101, 102, 103, 104], [⟨.x, .write, 8⟩]⟩ := by decide
theorem test_writeExact_full : (onX .writeExact (live 0x1000 9 0 8) letters 0x2000 1 0).map (fun x => (x.res0, x.w)) = some (0, 8) := by
  decide

/-- 2.4: "abcdefgh" from slot 7 on: slots 7, 8 and 0 are read. -/
theorem test_read_wraps : onX .read (live 0x1000 9 7 6) (bytesAt 0x1000 [99, 100, 101, 102, 103, 104, 1, 97, 98]) 0x3000 3 0 =
    some ⟨3, 0, 1, 6, [100, 101, 102, 103, 104], [⟨.x, .read, 3⟩]⟩ := by decide
theorem test_read_bytes : (match exec .read (busyOn .x (live 0x1000 9 7 6) (.reset 2)
    (bytesAt 0x1000 [99, 100, 101, 102, 103, 104, 1, 97, 98]) ⟨.read, 0x3000, 3, 0⟩) with
    | .next t => t.mem.readBytes 0x3000 4 | _ => []) = [97, 98, 99, 0] := by decide
theorem test_readExact_short : (onX .readExact (live 0x1000 9 0 8) [] 0x3000 9 0).map (fun x => (x.res0, x.r)) = some (0, 0) := by
  decide
theorem test_readExact_all : (onX .readExact (live 0x1000 9 0 8) [] 0x3000 8 0).map (fun x => (x.res0, x.r)) = some (1, 8) := by
  decide
theorem test_peek_tail : onX .peek (live 0x1000 9 0 6) [] 0x3000 9 4 = some ⟨2, 0, 0, 6, [0, 0, 0, 0, 0, 0], []⟩ := by decide
theorem test_peek_no_wrap_of_k : (onX .peek (live 0x1000 9 0 6) [] 0x3000 3 0xFFFFFFFF).map Seen.res0 = some 0 := by decide

/-- The W and R ports read their own views (R15): P5 after `c1`, and after `c2`. -/
def lagging : Inst := { live 0x1000 9 3 5 with rv := 0, wv := 3 }
theorem test_views : lagging.view .w = (0, 5) ∧ lagging.view .r = (3, 3) ∧ lagging.view .x = (3, 5) ∧
    (seen (busyOn .w lagging (.reset 2) [] ⟨.free, 0, 0, 0⟩) .free).map Seen.res0 = some 3 ∧
    (seen (busyOn .r lagging (.reset 2) [] ⟨.occ, 0, 0, 0⟩) .occ).map Seen.res0 = some 0 := by decide

/-! ### Reset and the extended operations (2.6 to 2.8, X8, X9) -/

theorem test_reset : onX .reset (live 0x1000 9 2 5) [] 0 0 0 = some ⟨1, 0, 0, 0, [], [⟨.x, .reset, 0⟩]⟩ := by decide
/-- The deciding vector of C1: a payload of exactly the usable capacity. -/
theorem test_overwrite_threshold :
    onX .overwrite (live 0x1000 9 0 6) (bytesAt 0x2000 [48, 49, 50, 51, 52, 53, 54, 55]) 0x2000 8 0 =
    some ⟨8, 0, 6, 5, [48, 49, 50, 51, 52, 53, 54, 55], [⟨.x, .read, 6⟩, ⟨.x, .write, 8⟩]⟩ := by decide
theorem test_overwrite_one_slot : onX .overwrite (live 0x1000 1 0 0) [] 0x2000 5 0 = some ⟨5, 0, 0, 0, [], [⟨.x, .reset, 0⟩]⟩ := by
  decide
/-- Log 25 by hand: ten bytes from 0xFFFFFFFA with `SIZE = 9` read the eight at 0xFFFFFFFC, which pass the top; with `SIZE = 1` none
is read. -/
theorem test_overwrite_past_top :
    faultOf { busyOn .x (live 0x1000 9 0 0) (.reset 2) [] ⟨.overwrite, 0xFFFFFFFA, 10, 0⟩ with
      cfg := { Config.default with admits := [.within 0 (2 ^ 33)] } } .overwrite = some (.bus 0 .x 0xFFFFFFFC 8) ∧
    onX .overwrite (live 0x1000 1 0 0) [] 0xFFFFFFFA 10 0 = some ⟨10, 0, 0, 0, [], [⟨.x, .reset, 0⟩]⟩ := by decide

/-- "5678?1234" from slot 5 (X9, wrapped). -/
def digits : Memory := bytesAt 0x1000 [53, 54, 55, 56, 0, 49, 50, 51, 52]
theorem test_find_wrapped : (onX .find (live 0x1000 9 5 4) (digits.writeBytes 0x2000 [54, 55, 56]) 0x2000 3 0).map
    (fun x => (x.res0, x.res1)) = some (1, 5) := by decide
theorem test_find_miss : (onX .find (live 0x1000 9 5 4) (digits.writeBytes 0x2000 [49, 50, 51]) 0x2000 3 1).map
    (fun x => (x.res0, x.res1)) = some (0, 0) := by decide

/-- The scan for "56" reads slots 0 to 5, so the bytes after it need not be admitted (R64, R232). -/
theorem test_find_reads_to_match :
    (seen (busyOn .x (live 0x7FFA 9 0 8) (.reset 2) ((bytesAt 0x7FFA [49, 50, 51, 52, 53, 54]).writeBytes 0x2000 [53, 54])
      ⟨.find, 0x2000, 2, 0⟩) .find).map (fun x => (x.res0, x.res1)) = some (1, 4) ∧
    faultOf (busyOn .x (live 0x7FFA 9 0 8) (.reset 2) ((bytesAt 0x7FFA [49, 50, 51, 52, 53, 54]).writeBytes 0x2000 [54, 53])
      ⟨.find, 0x2000, 2, 0⟩) .find = some (.bus 0 .x 0x8000 1) := by decide

/-- 2.8, first row: instance 1 is the source, and the chunks are 2, 1 and 3. -/
theorem test_move_chunks :
    seen (busyOn .x (live 0x1200 8 6 6) (live 0x1100 8 5 3) (bytesAt 0x1100 [68, 69, 70, 1, 1, 65, 66, 67]) ⟨.move 1, 0, 0, 0⟩) (.move 1) =
    some ⟨6, 0, 6, 4, [65, 66, 67, 68, 69, 70], [⟨.x, .write, 2⟩, ⟨.x, .write, 1⟩, ⟨.x, .write, 3⟩]⟩ := by decide
/-- R236: "abcde" of one instance becomes "cdeab". -/
theorem test_move_rotates :
    onX (.move 0) (live 0x1000 8 0 5) (bytesAt 0x1000 [97, 98, 99, 100, 101]) 0 0 0 =
    some ⟨2, 0, 2, 7, [99, 100, 101, 97, 98], [⟨.x, .write, 2⟩, ⟨.x, .read, 2⟩]⟩ := by decide

/-! ### Faults, registers, Gray codes (2.4, 2.9, 2.10) -/

theorem test_overlap : faultOf (busyOn .x (live 0x1000 9 0 3) (.reset 2) letters ⟨.write, 0x1001, 2, 0⟩) .write = some (.overlap 0 .x) := by
  decide
theorem test_bus : faultOf (busyOn .w (live 0x1000 9 0 3) (.reset 2) letters ⟨.write, 0x7FFE, 4, 0⟩) .write =
    some (.bus 0 .w 0x7FFE 4) := by decide

/-- Two steps in one: a `WRITE` busy on port W of instance 0. -/
def writing : State := busyOn .w (live 0x1000 9 0 3) (.reset 2) letters ⟨.write, 0x2000, 4, 0⟩

def outcome (s : State) (act : Action) : Option Fault :=
  match s.perform act with
  | .fault f => some f
  | _ => none

theorem test_issue_faults : outcome writing (.regWrite 0x40000000 32 0x10) = some (.issueBusy 0 .w 0x10) ∧
    outcome writing (.regWrite 0x40000040 32 0x03) = some (.excl 0 .x 0x03) ∧
    outcome writing (.regWrite 0x40000020 32 0x18) = none := by decide
theorem test_host_race : outcome writing (.memWrite 0x1001 7) = some (.hostRace 0x1001 .write) ∧
    outcome writing (.memWrite 0x2003 7) = some (.hostRace 0x2003 .write) ∧ outcome writing (.memWrite 0x2004 7) = none ∧
    outcome writing (.memRead 0x2000) = none := by decide
theorem test_reg_access : outcome writing (.regRead 0x40000000 16) = some (.regAccess 0x40000000 16) ∧
    outcome writing (.regRead 0x40000100 32) = some (.regAccess 0x40000100 32) ∧ outcome writing (.regRead 0x4000001C 32) = none := by
  decide
/-- A platform that admits one four-byte access and none of its parts: `MemAdmits` need not admit a part of a run (R8). -/
theorem test_memAdmits_exact : memAdmits { Config.default with admits := [.exactly 0x2000 4] } 0x2000 4 = true ∧
    memAdmits { Config.default with admits := [.exactly 0x2000 4] } 0x2000 3 = false ∧
    memAdmits { Config.default with admits := [.exactly 0x2000 4] } 0x2001 3 = false := by decide
theorem test_fault_codes : [Fault.issueBusy 0 .w 0, .excl 0 .x 0, .hostRace 0 .read, .overlap 0 .w, .bus 0 .w 0 0, .regAccess 0 0].map
    Fault.code = [1, 2, 3, 4, 5, 6].map some := by decide
/-- A commit counts in one clock domain too (R77, R170). -/
theorem test_sync_counts : (match exec .advance { busyOn .w (live 0x1000 9 0 0) (.reset 2) [] ⟨.advance, 0, 3, 0⟩ with
    cfg := { Config.default with cdc := .sync } } with | .next t => (t.here.wcnt, t.here.rv, t.here.w) | _ => (0, 0, 0)) = (3, 0, 3) := by
  decide
theorem test_param_register : paramReg Config.default = 0x20010110 := by decide
theorem test_gray_codes : (List.range 16).map gray = [0, 1, 3, 2, 6, 7, 5, 4, 12, 13, 15, 14, 10, 11, 9, 8] ∧
    (List.range 16).map (fun b => ungray 4 (gray b)) = List.range 16 := by decide

/-- P1, first command: the host's three register writes, then a COMPLETE step. -/
theorem test_first_command :
    (match Host.Core.run Sys2Proof.core 4 { State.reset with sched :=
      [.regWrite 0x40000044 32 0x1000, .regWrite 0x40000048 32 9, .regWrite 0x40000040 32 1] } with
    | .next t => [(t.inst 0).status .x, ((t.inst 0).port .x).res0, (t.inst 0).size]
    | _ => []) = [0x28, 1, 9] := by decide

/-- A fetched word runs as the very next step after reset. -/
theorem test_fetch : (match step (State.reset.withFetchWord 16 0x05) with
    | .next t => ((t.inst 0).port .x).res0 | _ => 0) = 1 := by decide

/-! ### Witnesses: the hypotheses of each obligation are met together -/

theorem resetPort_fits (p : Port) : PortState.reset.Fits Config.default p := PortState.reset_fits _ p

/-- `live` meets the invariant: its views and crossings are as a resync leaves them. -/
theorem live_inv (base size r w : Nat) (hs : size < 2 ^ 16) (hb : base + size ≤ 2 ^ 32) (hbase : base < 2 ^ 32) (hr : r < size)
    (hw : w < size) : (live base size r w).Inv Config.default := by
  have hd : dist size r w < 2 ^ 16 := Nat.lt_trans (dist_lt (by omega)) hs
  have h0 : 0 < 2 ^ 16 := by decide
  have e : (live base size r w).resync = live base size r w := by simp [live, Inst.resync, Inst.reset, gray]
  rw [← e]
  refine Inst.Core.resync ⟨?_, fun _ => ⟨hr, hw⟩, fun _ _ => ?_⟩ (by decide)
  · constructor
    case ports => intro p; cases p <;> exact resetPort_fits _
    case size => exact hs
    case storage => exact hb
    case base => exact hbase
    case r => exact Nat.lt_trans hr hs
    case w => exact Nat.lt_trans hw hs
    case rv => exact Nat.lt_trans hr hs
    case wv => exact Nat.lt_trans hw hs
    case wcnt => exact hd
    case wpub => exact hd
    case rcnt => exact h0
    case rpub => exact h0
    case wsync => exact ⟨by simpa [live, Config.default] using gray_lt hd, rfl⟩
    case rsync => exact ⟨by simp [live, Inst.reset, Config.default], rfl⟩
    case tag => exact (by decide : 0 < 2 ^ 32)
    case events => simp [live, Inst.reset]
  · change behind 16 (dist size r w) 0 = dist size r w
    unfold behind
    rw [Nat.sub_zero, Nat.add_mod_right, Nat.mod_eq_of_lt hd]

/-- Views that trail: the write count is 5 and the R domain has seen 3; the read count is 3 and the W domain has seen 0. -/
def trailing : Inst :=
  { live 0x1000 9 3 5 with
    rv := 0, wv := 3, wcnt := 5, wpub := 4, wsync := [gray 4, gray 3], rcnt := 3, rpub := 2, rsync := [gray 1, gray 0] }

theorem trailing_inv : trailing.Inv Config.default := by
  refine ⟨?_, fun _ => ⟨by decide, by decide, by decide, by decide⟩, fun _ => ⟨by decide, by decide⟩,
    fun _ => ⟨by decide, ⟨by decide, by decide, by decide, by decide, by decide, by decide⟩,
      ⟨by decide, by decide, by decide, by decide, by decide, by decide⟩⟩⟩
  constructor
  case ports => intro p; cases p <;> exact resetPort_fits _
  all_goals decide

theorem reset_inst_inv : (Inst.reset 2).Inv Config.default := Inst.reset_inv Config.default [] (by simp)

/-- A state with one busy port meets the invariant when its instances do. -/
theorem busyOn_inv {I J : Inst} (hI : I.Inv Config.default) (hJ : J.Inv Config.default) (p : Port) (c : Pending) (m : Memory)
    (hc : c.instr.wellFormed 2 p = true) (ha : c.a < 2 ^ 32) (hn : c.n < 2 ^ 32) (hk : c.k < 2 ^ 32)
    (hm : Memory.wf m ∧ ∀ x ∈ m, x.1 < 2 ^ 32) : (busyOn p I J m c).Inv := by
  refine ⟨(by decide : Config.default.wf), rfl, ⟨hm.1, hm.2⟩, ?_⟩
  intro K hK
  have hK' : K = I.setPort p { PortState.reset with busy := some c } ∨ K = J := by simpa [busyOn] using hK
  rcases hK' with rfl | rfl
  · have h0 := resetPort_fits p
    refine hI.setPort ⟨h0.a, h0.n, h0.k, h0.cmd, h0.res0, h0.res1, fun b hb => ?_⟩
    cases hb
    exact ⟨hc, ha, hn, hk⟩
  · exact hJ

/-- Every command can be armed on every port where it is legal. -/
theorem busyOn_armed (i : Instr) (p : Port) (I J : Inst) (m : Memory) (a n k : Nat) (h : i.wellFormed 2 p = true) :
    Armed (busyOn p I J m ⟨i, a, n, k⟩) i ⟨i, a, n, k⟩ := by
  simp only [Instr.wellFormed, Bool.and_eq_true] at h
  refine ⟨?_, h.2, fun j hj => ?_⟩
  · change ((I.setPort p { PortState.reset with busy := some ⟨i, a, n, k⟩ }).port p).busy = _
    rw [Inst.port_setPort_same]
  · change j < 2
    have hj' : j ∈ involved i 0 := hj
    cases i with
    | move src =>
      have hs : src < 2 := by simpa [Instr.srcExists] using h.1.2
      simp only [involved, List.mem_cons, List.not_mem_nil, or_false] at hj'
      omega
    | _ => simp [involved] at hj'; omega

/-! #### Command words and registers -/

theorem witness_words : Instr.wellFormed 256 .x (.move 255) = true ∧ decode 2 .x 0x121 = .ok (.move 1) ∧
    (∃ e, decode 2 .x 0x221 = .error e) := ⟨by decide, by decide, .srcRange, by decide⟩

/-- RegisterAccessOutcomes: the addresses just outside the span, a bad access of each kind, and the last register. -/
theorem witness_RegisterAccessOutcomes : State.reset.cfg.wf ∧ 0x3FFFFFFF < State.reset.cfg.regBase ∧
    State.reset.cfg.regBase + 256 * 32 * (State.reset.cfg.regW / 8) ≤ 0x40008000 ∧
    0x40007FFF < State.reset.cfg.regBase + 256 * 32 * (State.reset.cfg.regW / 8) ∧ 16 ≠ State.reset.cfg.regW ∧
    (¬ ∃ i < State.reset.cfg.numInst, ∃ j < 32, 0x40000100 = State.reset.cfg.regBase + (32 * i + j) * (State.reset.cfg.regW / 8)) ∧
    1 < State.reset.cfg.numInst := by decide

/-- OperandRegistersTakeWrites, RegisterReads, ReadOnlyRegistersIgnoreWrites (each range of `j` at its ends), IllegalWordEffect and
ParamFields, at the reset state. -/
theorem witness_registers : State.reset.cfg.wf ∧ State.reset.insts.length = State.reset.cfg.numInst ∧ 1 < State.reset.cfg.numInst ∧
    2 ^ 32 - 1 < 2 ^ State.reset.cfg.regW ∧ (∀ j ∈ [4, 7, 20, 24, 31], j < 32 ∧ (24 ≤ j ∨ 4 ≤ j % 8)) ∧
    ((State.reset.inst 1).port .x).busy = none := by decide

theorem witness_ParamFields : Config.wf ⟨64, 63, 256, .sync, 2, 0, []⟩ ∧ Config.wf ⟨32, 1, 1, .async, 2, 0, []⟩ := by decide

/-- IssueRule, its four clauses, in `writing`: a busy port, an illegal word, a conflicting command, any other. -/
theorem witness_IssueRule : writing.cfg.wf ∧ writing.insts.length = writing.cfg.numInst ∧
    ((writing.inst 0).port .w).busy ≠ none ∧
    (((writing.inst 0).port .r).busy = none ∧ ∃ e, decode writing.cfg.numInst .r 0x10 = .error e) ∧
    (((writing.inst 0).port .x).busy = none ∧ decode writing.cfg.numInst .x 3 = .ok .reset ∧
      ∃ b ∈ writing.busyCmds, conflict (footprint 0 .x .reset) (footprint b.1 b.2.1 b.2.2.instr) = true) ∧
    (decode writing.cfg.numInst .r 0x18 = .ok .read ∧
      ∀ b ∈ writing.busyCmds, conflict (footprint 0 .r .read) (footprint b.1 b.2.1 b.2.2.instr) = false) :=
  ⟨by decide, by decide, by decide, ⟨by decide, .wrongPort, by decide⟩, by decide, by decide⟩

/-! #### Commands that need no copy -/

/-- The rings of the witnesses: "???" in slots 0 to 2 of instance 0, instance 1 empty at slot 6. -/
def ring : Inst := live 0x1000 9 0 3
def other : Inst := live 0x1200 8 6 6
theorem ring_inv : ring.Inv Config.default := live_inv _ _ _ _ (by decide) (by decide) (by decide) (by decide) (by decide)
theorem other_inv : other.Inv Config.default := live_inv _ _ _ _ (by decide) (by decide) (by decide) (by decide) (by decide)
theorem full_inv : (live 0x1000 9 0 8).Inv Config.default :=
  live_inv _ _ _ _ (by decide) (by decide) (by decide) (by decide) (by decide)
theorem letters_ok : Memory.wf letters ∧ ∀ x ∈ letters, x.1 < 2 ^ 32 := by decide

/-- Answers (of every query), on every legal port. -/
theorem witness_Answers : ∀ i ∈ [Instr.getTag, .isReady, .occ, .free], ∀ p,
    Armed (busyOn p ring other letters ⟨i, 0, 0, 0⟩) i ⟨i, 0, 0, 0⟩ := by
  intro i hi p
  simp only [List.mem_cons, List.not_mem_nil, or_false] at hi
  rcases hi with rfl | rfl | rfl | rfl <;> cases p <;> exact busyOn_armed _ _ _ _ _ _ _ _ (by decide)
theorem witness_linear : (∀ i ∈ [Instr.linRAddr, .linRLen], ∀ p ∈ [Port.r, .x],
      Armed (busyOn p ring other letters ⟨i, 0, 0, 0⟩) i ⟨i, 0, 0, 0⟩) ∧
    ∀ i ∈ [Instr.linWAddr, .linWLen], ∀ p ∈ [Port.w, .x], Armed (busyOn p ring other letters ⟨i, 0, 0, 0⟩) i ⟨i, 0, 0, 0⟩ := by
  constructor <;>
  · intro i hi p hp
    simp only [List.mem_cons, List.not_mem_nil, or_false] at hi hp
    rcases hi with rfl | rfl <;> rcases hp with rfl | rfl <;> exact busyOn_armed _ _ _ _ _ _ _ _ (by decide)

/-- InitEffect: a range one past the address space, and one that ends at its top. -/
theorem witness_InitEffect :
    (∃ s c, Armed s .init c ∧ 2 ^ s.cfg.regW < c.a + c.n) ∧ (∃ s c, Armed s .init c ∧ 2 ^ s.cfg.capW ≤ c.n) ∧
    (∃ s c, Armed s .init c ∧ c.a = 0) ∧ (∃ s c, Armed s .init c ∧ c.n = 0) ∧
    ∃ s c, Armed s .init c ∧ c.a ≠ 0 ∧ c.n ≠ 0 ∧ c.n < 2 ^ s.cfg.capW ∧ c.a + c.n ≤ 2 ^ s.cfg.regW :=
  ⟨⟨_, _, busyOn_armed .init .x ring other [] 0xFFFFFFF0 0x11 0 (by decide), by decide⟩,
    ⟨_, _, busyOn_armed .init .x ring other [] 0x1000 0x10000 0 (by decide), by decide⟩,
    ⟨_, _, busyOn_armed .init .x ring other [] 0 9 0 (by decide), by decide⟩,
    ⟨_, _, busyOn_armed .init .x ring other [] 9 0 0 (by decide), by decide⟩,
    _, _, busyOn_armed .init .x ring other [] 0xFFFF0001 0xFFFF 0 (by decide), by decide⟩

/-- DeinitEffect, SetEvtEffect, ResetEffect: both clauses; SET_TAG in TagCommands; CopySentinels. -/
theorem witness_ready_and_not : ∀ i ∈ [Instr.deinit, .setEvt, .reset, .setTag, .write, .writeExact, .read, .readExact, .peek, .overwrite, .find],
    (∃ s c, Armed s i c ∧ s.here.ready = false) ∧ (∃ s c, Armed s i c ∧ s.here.ready = true ∧ c.a = 0) ∧
    ∃ s c, Armed s i c ∧ s.here.ready = true ∧ c.a ≠ 0 ∧ c.n = 0 := by
  intro i hi
  have h : i.wellFormed 2 .x = true := by revert i; decide
  exact ⟨⟨_, _, busyOn_armed i .x (.reset 2) other [] 1 1 0 h, rfl⟩, ⟨_, _, busyOn_armed i .x ring other [] 0 1 0 h, rfl, rfl⟩,
    _, _, busyOn_armed i .x ring other [] 1 0 0 h, rfl, Nat.one_ne_zero, rfl⟩

/-- CapacityLaw, EmptyAndFullFlags, WindowLaws: the smallest storage, a full one, and (the flags) one that is not ready. -/
theorem witness_positions : (live 0x1000 1 0 0).ready = true ∧ 0 < (live 0x1000 1 0 0).size ∧ (live 0x1000 8 4 3).ready = true ∧
    4 < (live 0x1000 8 4 3).size ∧ ((live 0x1000 8 4 3).view .w).1 < (live 0x1000 8 4 3).size ∧
    ((live 0x1000 8 4 3).view .w).2 < (live 0x1000 8 4 3).size ∧ (Inst.reset 2).ready = false := by decide

theorem witness_ViewsAreConservative : trailing.Inv Config.default ∧ trailing.ready = true ∧ trailing.rv ≠ trailing.r ∧
    trailing.wv ≠ trailing.w := ⟨trailing_inv, by decide, by decide, by decide⟩

/-- SkipEffect and AdvanceEffect: both clauses, under the invariant, the view of the port trailing. -/
theorem witness_Skip_Advance : ∀ x ∈ [(Instr.skip, Port.r), (.advance, .w)],
    (∃ s c, State.Inv s ∧ Armed s x.1 c ∧ s.here.ready = true ∧ c.n ≠ 0) ∧ ∃ s c, State.Inv s ∧ Armed s x.1 c ∧ c.n = 0 := by
  intro x hx
  have h : x.1.wellFormed 2 x.2 = true := by revert x; decide
  exact ⟨⟨_, _, busyOn_inv trailing_inv other_inv x.2 ⟨x.1, 0, 9, 0⟩ letters h (Nat.two_pow_pos 32) (by change 9 < 2 ^ 32; decide) (Nat.two_pow_pos 32)
        letters_ok, busyOn_armed x.1 x.2 _ _ _ _ _ _ h, by revert x; decide, by change 9 ≠ 0; decide⟩,
    _, _, busyOn_inv trailing_inv other_inv x.2 ⟨x.1, 0, 0, 0⟩ letters h (Nat.two_pow_pos 32) (Nat.two_pow_pos 32) (Nat.two_pow_pos 32)
      letters_ok, busyOn_armed x.1 x.2 _ _ _ _ _ _ h, rfl⟩

/-! #### Copying commands -/

/-- A copying command on the X port of a ready instance `I`. -/
def copyOn (i : Instr) (I : Inst) (a n k : Nat) : State := busyOn .x I other letters ⟨i, a, n, k⟩

theorem copyOn_copying (i : Instr) (I : Inst) (a n k : Nat)
    (hi : i ∈ [Instr.write, .writeExact, .read, .readExact, .peek, .overwrite, .find]) (hr : I.ready = true) (ha : a ≠ 0)
    (hn : n ≠ 0) : Copying (copyOn i I a n k) i ⟨i, a, n, k⟩ :=
  ⟨hi, busyOn_armed i .x I other letters a n k (by revert i; decide), by change (I.setPort .x _).ready = true; simpa using hr, ha, hn⟩

theorem copyOn_inv (i : Instr) {I : Inst} (hI : I.Inv Config.default) (a n k : Nat)
    (hi : i ∈ [Instr.write, .writeExact, .read, .readExact, .peek, .overwrite, .find]) (ha : a < 2 ^ 32) (hn : n < 2 ^ 32)
    (hk : k < 2 ^ 32) : (copyOn i I a n k).Inv :=
  busyOn_inv hI other_inv .x ⟨i, a, n, k⟩ letters (by change i.wellFormed 2 .x = true; revert i; decide) ha hn hk letters_ok

/-- What the effect statements of the copying commands assume, with the plan's checks passed or not asked for. -/
def Assumed (i : Instr) (I : Inst) (a n k : Nat) : Prop :=
  (copyOn i I a n k).Inv ∧ Copying (copyOn i I a n k) i ⟨i, a, n, k⟩

theorem assumed {i : Instr} {I : Inst} (hI : I.Inv Config.default) (hr : I.ready = true) {a n k : Nat}
    (hi : i ∈ [Instr.write, .writeExact, .read, .readExact, .peek, .overwrite, .find]) (ha : a ≠ 0 ∧ a < 2 ^ 32) (hn : n ≠ 0 ∧ n < 2 ^ 32)
    (hk : k < 2 ^ 32) : Assumed i I a n k :=
  ⟨copyOn_inv i hI a n k hi ha.2 hn.2 hk, copyOn_copying i I a n k hi hr ha.1 hn.1⟩

/-- WriteEffect, WriteExactEffect: no room; and a copy that wraps nowhere but fills the FIFO (5 free slots). -/
theorem witness_Write : (Assumed .write (live 0x1000 9 0 8) 0x2000 4 0 ∧
      min ((copyOn .write (live 0x1000 9 0 8) 0x2000 4 0).here.free 0 8) 4 = 0) ∧
    Assumed .write ring 0x2000 9 0 ∧ PlanOk (copyOn .write ring 0x2000 9 0) .write ⟨.write, 0x2000, 9, 0⟩ :=
  ⟨⟨assumed full_inv (by decide) (by decide) (by decide) (by decide) (by decide), by decide⟩,
    assumed ring_inv (by decide) (by decide) (by decide) (by decide) (by decide),
    ⟨by unfold AllAdmitted Admitted; decide, by unfold ClearOfStorage; decide⟩⟩
theorem witness_WriteExact : (Assumed .writeExact ring 0x2000 6 0 ∧ (copyOn .writeExact ring 0x2000 6 0).here.free 0 3 < 6) ∧
    Assumed .writeExact ring 0x2000 5 0 ∧
    PlanOk (copyOn .writeExact ring 0x2000 5 0) .writeExact ⟨.writeExact, 0x2000, 5, 0⟩ :=
  ⟨⟨assumed ring_inv (by decide) (by decide) (by decide) (by decide) (by decide), by decide⟩,
    assumed ring_inv (by decide) (by decide) (by decide) (by decide) (by decide),
    ⟨by unfold AllAdmitted Admitted; decide, by unfold ClearOfStorage; decide⟩⟩

/-- ReadEffect, ReadExactEffect, PeekEffect: nothing to give; and a copy of the last byte there is. -/
theorem witness_Read : (Assumed .read other 0x3000 4 0 ∧ (copyOn .read other 0x3000 4 0).here.occ 6 6 = 0) ∧
    Assumed .read ring 0x3000 9 0 ∧ PlanOk (copyOn .read ring 0x3000 9 0) .read ⟨.read, 0x3000, 9, 0⟩ :=
  ⟨⟨assumed other_inv (by decide) (by decide) (by decide) (by decide) (by decide), by decide⟩,
    assumed ring_inv (by decide) (by decide) (by decide) (by decide) (by decide),
    ⟨by unfold AllAdmitted Admitted; decide, by unfold ClearOfStorage; decide⟩⟩
theorem witness_ReadExact : (Assumed .readExact ring 0x3000 4 0 ∧ (copyOn .readExact ring 0x3000 4 0).here.occ 0 3 < 4) ∧
    Assumed .readExact ring 0x3000 3 0 ∧
    PlanOk (copyOn .readExact ring 0x3000 3 0) .readExact ⟨.readExact, 0x3000, 3, 0⟩ :=
  ⟨⟨assumed ring_inv (by decide) (by decide) (by decide) (by decide) (by decide), by decide⟩,
    assumed ring_inv (by decide) (by decide) (by decide) (by decide) (by decide),
    ⟨by unfold AllAdmitted Admitted; decide, by unfold ClearOfStorage; decide⟩⟩
theorem witness_Peek : (Assumed .peek ring 0x3000 1 3 ∧ (copyOn .peek ring 0x3000 1 3).here.occ 0 3 ≤ 3) ∧
    Assumed .peek ring 0x3000 4 2 ∧ PlanOk (copyOn .peek ring 0x3000 4 2) .peek ⟨.peek, 0x3000, 4, 2⟩ :=
  ⟨⟨assumed ring_inv (by decide) (by decide) (by decide) (by decide) (by decide), by decide⟩,
    assumed ring_inv (by decide) (by decide) (by decide) (by decide) (by decide),
    ⟨by unfold AllAdmitted Admitted; decide, by unfold ClearOfStorage; decide⟩⟩

/-- OverwriteWithinCapacity at `N = SIZE - 1`, OverwriteBeyondCapacity at `N = SIZE`. -/
theorem witness_Overwrite : (Assumed .overwrite ring 0x2000 8 0 ∧ 8 ≤ (copyOn .overwrite ring 0x2000 8 0).here.size - 1 ∧
      PlanOk (copyOn .overwrite ring 0x2000 8 0) .overwrite ⟨.overwrite, 0x2000, 8, 0⟩) ∧
    Assumed .overwrite ring 0x2000 9 0 ∧ (copyOn .overwrite ring 0x2000 9 0).here.size - 1 < 9 ∧
    PlanOk (copyOn .overwrite ring 0x2000 9 0) .overwrite ⟨.overwrite, 0x2000, 9, 0⟩ :=
  ⟨⟨assumed ring_inv (by decide) (by decide) (by decide) (by decide) (by decide), by decide,
      ⟨by unfold AllAdmitted Admitted; decide, by unfold ClearOfStorage; decide⟩⟩,
    assumed ring_inv (by decide) (by decide) (by decide) (by decide) (by decide), by decide,
    ⟨by unfold AllAdmitted Admitted; decide, by unfold ClearOfStorage; decide⟩⟩

/-- FindFirstMatch: the needle does not fit after `K`; it fits and is found (the storage and 0x3000 hold zeros); it is not found. -/
theorem witness_Find : (Assumed .find ring 0x3000 2 2 ∧ (copyOn .find ring 0x3000 2 2).here.occ 0 3 < 2 + 2) ∧
    (Assumed .find ring 0x3000 2 1 ∧ 2 + 1 ≤ (copyOn .find ring 0x3000 2 1).here.occ 0 3 ∧ Admitted Config.default 0x3000 2 ∧
      ClearOfStorage (copyOn .find ring 0x3000 2 1) 0x3000 2 ∧
      (∀ j < 1 + 2 - 1, Admitted Config.default (slotAddr ring ring.r (1 + j)) 1) ∧
      ∀ j < 2, Memory.read letters (slotAddr ring ring.r (1 + j)) = Memory.read letters (0x3000 + j)) ∧
    (Assumed .find ring 0x2000 2 1 ∧ Admitted Config.default 0x2000 2 ∧ ClearOfStorage (copyOn .find ring 0x2000 2 1) 0x2000 2 ∧
      (∀ j < 3 - 1, Admitted Config.default (slotAddr ring ring.r (1 + j)) 1) ∧
      ∀ x, 1 ≤ x → x + 2 ≤ 3 → ¬ ∀ j < 2, Memory.read letters (slotAddr ring ring.r (x + j)) = Memory.read letters (0x2000 + j)) :=
  ⟨⟨assumed ring_inv (by decide) (by decide) (by decide) (by decide) (by decide), by decide⟩,
    ⟨assumed ring_inv (by decide) (by decide) (by decide) (by decide) (by decide), by decide, by unfold Admitted; decide,
      by unfold ClearOfStorage; decide, by unfold Admitted; decide, by decide⟩,
    assumed ring_inv (by decide) (by decide) (by decide) (by decide) (by decide), by unfold Admitted; decide,
    by unfold ClearOfStorage; decide, by unfold Admitted; decide, fun x h1 h2 => by
      obtain rfl : x = 1 := by omega
      decide⟩

/-- CopyFaultOrder: an operand one byte past the platform's memory, and an operand that meets the storage in its last byte. -/
theorem witness_CopyFaultOrder :
    (Copying (copyOn .read ring 0x7FFE 3 0) .read ⟨.read, 0x7FFE, 3, 0⟩ ∧
      (copyPlan (copyOn .read ring 0x7FFE 3 0) .read ⟨.read, 0x7FFE, 3, 0⟩).len ≠ 0 ∧
      ¬ AllAdmitted Config.default (copyAccesses (copyOn .read ring 0x7FFE 3 0) .read ⟨.read, 0x7FFE, 3, 0⟩)) ∧
    Copying (copyOn .read ring 0x11FE 3 0) .read ⟨.read, 0x11FE, 3, 0⟩ ∧
    AllAdmitted Config.default (copyAccesses (copyOn .read ring 0x11FE 3 0) .read ⟨.read, 0x11FE, 3, 0⟩) ∧
    ¬ ClearOfStorage (copyOn .read ring 0x11FE 3 0) 0x11FE 3 :=
  ⟨⟨copyOn_copying _ _ _ _ _ (by decide) (by decide) (by decide) (by decide), by decide, by unfold AllAdmitted Admitted; decide⟩,
    copyOn_copying _ _ _ _ _ (by decide) (by decide) (by decide) (by decide), by unfold AllAdmitted Admitted; decide,
    by unfold ClearOfStorage; decide⟩

/-- WriteThenReadRoundTrip: 4 letters into an empty ring at slot 7, then read back. -/
def w0 : State := copyOn .write (live 0x1000 9 7 7) 0x2000 4 0
def w1 : State := match exec .write w0 with | .next t => t | _ => w0
def w2 : State := w1.modPort fun q => { q with busy := some ⟨.read, 0x3000, 4, 0⟩ }
def w3 : State := match exec .read w2 with | .next t => t | _ => w2

theorem witness_WriteThenReadRoundTrip : w0.Inv ∧ Copying w0 .write ⟨.write, 0x2000, 4, 0⟩ ∧ w0.here.r = w0.here.w ∧
    4 ≤ w0.here.free w0.view.1 w0.view.2 ∧ exec .write w0 = .next w1 ∧ w2.Inv ∧ w2.site.inst = w0.site.inst ∧ w2.mem = w1.mem ∧
    SameFifo w1.here w2.here ∧ w2.here.wv = w1.here.w ∧ Copying w2 .read ⟨.read, 0x3000, 4, 0⟩ ∧ exec .read w2 = .next w3 := by
  have hI : (live 0x1000 9 7 7).Inv Config.default := live_inv _ _ _ _ (by decide) (by decide) (by decide) (by decide) (by decide)
  have h0 : Assumed .write (live 0x1000 9 7 7) 0x2000 4 0 :=
    assumed hI (by decide) (by decide) (by decide) (by decide) (by decide)
  have he : exec .write w0 = .next w1 := rfl
  have h1 : w1.Inv := exec_keeps h0.1 he
  refine ⟨h0.1, h0.2, by decide, by decide, he, ?_, rfl, rfl, ⟨rfl, rfl, rfl, rfl, rfl, rfl, rfl, rfl, rfl⟩, by decide,
    ⟨by decide, ⟨by decide, by decide, by decide⟩, by decide, by decide, by decide⟩, rfl⟩
  unfold w2 State.modPort
  refine inv_modInst h1 _ _ fun hj => ?_
  have hI1 := h1.insts _ (w1.inst_mem _ hj)
  have hp := hI1.fits.ports w1.site.port
  refine hI1.setPort ⟨hp.a, hp.n, hp.k, hp.cmd, hp.res0, hp.res1, fun b hb => ?_⟩
  cases hb
  exact ⟨by decide, by decide, by decide, by decide⟩

/-! #### MOVE -/

/-- `MOVE SRC=1` on instance 0, with the rings of 2.8's first row. -/
def moving (D S : Inst) : State := busyOn .x D S letters ⟨.move 1, 0, 0, 0⟩
def source : Inst := live 0x1100 8 5 3
theorem source_inv : source.Inv Config.default := live_inv _ _ _ _ (by decide) (by decide) (by decide) (by decide) (by decide)
def moved : State := match exec (.move 1) (moving other source) with | .next t => t | _ => State.reset

theorem moving_ok {D S : Inst} (hD : D.Inv Config.default) (hS : S.Inv Config.default) :
    (moving D S).Inv ∧ Armed (moving D S) (.move 1) ⟨.move 1, 0, 0, 0⟩ :=
  ⟨busyOn_inv hD hS .x ⟨.move 1, 0, 0, 0⟩ letters (by decide) (by decide) (by decide) (by decide) letters_ok,
    busyOn_armed (.move 1) .x D S letters 0 0 0 (by decide)⟩

/-- MoveSentinel (a source that is not ready), MoveTransfers, MoveNeverAborts. -/
theorem witness_Move : ((moving other (.reset 2)).Inv ∧ Armed (moving other (.reset 2)) (.move 1) ⟨.move 1, 0, 0, 0⟩ ∧
      ((moving other (.reset 2)).inst 1).ready = false) ∧
    ((moving other source).Inv ∧ Armed (moving other source) (.move 1) ⟨.move 1, 0, 0, 0⟩ ∧ 1 ≠ (moving other source).site.inst ∧
      (moving other source).here.ready = true ∧ ((moving other source).inst 1).ready = true ∧
      AllAdmitted Config.default (chunkAccesses other source 0 (moveChunks false other source 6 0 6)) ∧
      source.base + source.size ≤ other.base) ∧
    exec (.move 1) (moving other source) = .next moved :=
  ⟨⟨(moving_ok other_inv reset_inst_inv).1, (moving_ok other_inv reset_inst_inv).2, by decide⟩,
    ⟨(moving_ok other_inv source_inv).1, (moving_ok other_inv source_inv).2, by decide, by decide, by decide,
      by unfold AllAdmitted Admitted; decide, by decide⟩, rfl⟩

theorem witness_MoveToItselfRotates : (busyOn .x ring other letters ⟨.move 0, 0, 0, 0⟩).Inv ∧
    Armed (busyOn .x ring other letters ⟨.move 0, 0, 0, 0⟩) (.move 0) ⟨.move 0, 0, 0, 0⟩ ∧ ring.ready = true ∧
    AllAdmitted Config.default (chunkAccesses ring ring 0 (moveChunks true ring ring 3 0 3)) :=
  ⟨busyOn_inv ring_inv other_inv .x _ letters (by decide) (by decide) (by decide) (by decide) letters_ok,
    busyOn_armed (.move 0) .x _ _ _ _ _ _ (by decide), by decide, by unfold AllAdmitted Admitted; decide⟩

/-- MoveFaults: a source below the platform's memory, a destination whose second run alone lies below it, and storages that share
one byte. -/
def low : Inst := live 0xFF8 8 5 3
def touching : Inst := live 0x11F9 8 5 3
def lowEnd : Inst := live 0xFFC 8 6 6
theorem witness_MoveFaults :
    ((moving other low).Inv ∧ Armed (moving other low) (.move 1) ⟨.move 1, 0, 0, 0⟩ ∧
      (moving other low).here.ready = true ∧ ((moving other low).inst 1).ready = true ∧
      ¬ AllAdmitted Config.default (chunkAccesses other low 0 (moveChunks false other low 6 0 6))) ∧
    ((moving lowEnd source).Inv ∧ Admitted Config.default (source.base + 5) 2 ∧ Admitted Config.default (lowEnd.base + 6) 2 ∧
      ¬ AllAdmitted Config.default (chunkAccesses lowEnd source 0 (moveChunks false lowEnd source 6 0 6))) ∧
    (moving other touching).Inv ∧ Armed (moving other touching) (.move 1) ⟨.move 1, 0, 0, 0⟩ ∧
    AllAdmitted Config.default (chunkAccesses other touching 0 (moveChunks false other touching 6 0 6)) ∧
    touching.base < other.base + other.size ∧ other.base < touching.base + touching.size := by
  have hl : low.Inv Config.default := live_inv _ _ _ _ (by decide) (by decide) (by decide) (by decide) (by decide)
  have ht : touching.Inv Config.default := live_inv _ _ _ _ (by decide) (by decide) (by decide) (by decide) (by decide)
  have he : lowEnd.Inv Config.default := live_inv _ _ _ _ (by decide) (by decide) (by decide) (by decide) (by decide)
  exact ⟨⟨(moving_ok other_inv hl).1, (moving_ok other_inv hl).2, by decide, by decide, by unfold AllAdmitted Admitted; decide⟩,
    ⟨(moving_ok he source_inv).1, by unfold Admitted; decide, by unfold Admitted; decide, by unfold AllAdmitted Admitted; decide⟩,
    (moving_ok other_inv ht).1, (moving_ok other_inv ht).2, by unfold AllAdmitted Admitted; decide, by decide, by decide⟩

/-- The second chunk's write to slot 0 of `lowEnd`, one byte at 0xFFC, is the access reported (R64, R233). -/
theorem test_move_bus : faultOf (moving lowEnd source) (.move 1) = some (.bus 0 .x 0xFFC 1) := by decide

/-! #### Crossings, hosts and the machine -/

/-- A state with trailing views and a `WRITE` busy on its W port. -/
def lagged : State := busyOn .w trailing other letters ⟨.write, 0x2000, 4, 0⟩
theorem lagged_inv : lagged.Inv :=
  busyOn_inv trailing_inv other_inv .w ⟨.write, 0x2000, 4, 0⟩ letters (by decide) (by decide) (by decide) (by decide) letters_ok

/-- R78 and R79 by hand: the R edge publishes a read count of 0 as it is, takes in `gray(wpub)` and decodes the last stage. -/
theorem test_clock_edges :
    (match State.perform { lagged with insts := [{ live 0x1000 9 0 3 with wcnt := 3, wpub := 1, wv := 0, wsync := [1, 0] }, other] } (.rClock 0) with
      | .next t => ((t.inst 0).wsync, (t.inst 0).wv, (t.inst 0).wpub) | _ => ([], 0, 0)) = ([1, 1], 1, 1) ∧
    (match State.perform { lagged with insts := [{ live 0x1000 9 0 3 with wcnt := 3, wpub := 1, wv := 0, wsync := [1, 0] }, other] } (.wClock 0) with
      | .next t => ((t.inst 0).wpub, (t.inst 0).wsync, (t.inst 0).wv) | _ => (0, [], 0)) = (2, [1, 0], 0) := by decide

/-- Log 10 by hand on `trailing`: a jump of 1 leaves the R domain 1 behind the write count 5, a jump of 2 the W domain 1 behind the
read count 3, so the chains hold the codes of 4 and of 2; the other crossing stays. -/
theorem test_sync_crossings :
    (match State.perform lagged (.syncW2R 0 1) with
      | .next t => ((t.inst 0).wv, (t.inst 0).wpub, (t.inst 0).wsync, (t.inst 0).rpub, (t.inst 0).rsync) | _ => (0, 0, [], 0, [])) =
      (4, 4, [6, 6], 2, [1, 0]) ∧
    (match State.perform lagged (.syncR2W 0 2) with
      | .next t => ((t.inst 0).rv, (t.inst 0).rpub, (t.inst 0).rsync, (t.inst 0).wpub, (t.inst 0).wsync) | _ => (0, 0, [], 0, [])) =
      (2, 2, [3, 3], 4, [6, 2]) := by decide

/-- GrayCode at the least width; SynchroniserSteps with the least and the largest jump, and one too large; ClockEdges. -/
theorem witness_crossings : (1 ≤ 1 ∧ 1 < 2 ^ 1) ∧ lagged.Inv ∧ 0 < lagged.insts.length ∧ lagged.cfg.cdc = .async ∧
    (∀ k ∈ [1, 2], (lagged.inst 0).ready = true ∧ (lagged.inst 0).wv ≠ (lagged.inst 0).w ∧ 1 ≤ k ∧
      k ≤ dist (lagged.inst 0).size (lagged.inst 0).wv (lagged.inst 0).w) ∧
    (∀ k ∈ [1, 3], (lagged.inst 0).rv ≠ (lagged.inst 0).r ∧ k ≤ dist (lagged.inst 0).size (lagged.inst 0).rv (lagged.inst 0).r) ∧
    ¬ 3 ≤ dist (lagged.inst 0).size (lagged.inst 0).wv (lagged.inst 0).w ∧
    ¬ 4 ≤ dist (lagged.inst 0).size (lagged.inst 0).rv (lagged.inst 0).r := ⟨by decide, lagged_inv, by decide⟩

/-- HostWriteContract and HostReadContract: in `lagged` byte 0x2003 is the last of a busy buffer and 0x2004 the first after it;
0x1005 is free but the W port is busy. Of instance 1, idle and empty at slot 6, slot 5 is the reserved slot and slot 4 the last free
one. -/
theorem witness_HostContracts : lagged.Inv ∧ lagged.inBusyBuffer buffersWritten 0x2003 = true ∧ lagged.writeRace 0x2003 = true ∧
    lagged.writeRace 0x2004 = false ∧ lagged.writeRace 0x1005 = true ∧ lagged.writeRace 0x1205 = true ∧ lagged.writeRace 0x1204 = false ∧
    lagged.readRace 0x1002 = true ∧ lagged.readRace 0x1003 = false ∧ lagged.readRace 0x2003 = false := ⟨lagged_inv, by decide⟩

/-- ZeroCopyWindowsAreSafe: instance 1 of `lagged`, the last byte of its write window; instance 0 for the read window. -/
theorem witness_ZeroCopy : lagged.Inv ∧ (lagged.inst 1).ready = true ∧ lagged.xBusy 1 = false ∧ lagged.xBusy 0 = false ∧
    (∀ i < lagged.insts.length, i ≠ 1 → (lagged.inst i).ready = true → (lagged.inst i).base + (lagged.inst i).size ≤ (lagged.inst 1).base) ∧
    (lagged.inst 1).wport.busy = none ∧ 1 < (lagged.inst 1).linWLen (lagged.inst 1).rv (lagged.inst 1).w ∧
    lagged.inBusyBuffer buffersWritten ((lagged.inst 1).base + (lagged.inst 1).w + 1) = false ∧ 0 < lagged.insts.length := by
  refine ⟨lagged_inv, by decide, by decide, by decide, by decide, by decide, by decide, by decide, by decide⟩

/-- HardwareReset with a command in flight; FaultsAreRecordedAndSticky; StepKeeps..., with steps that exist. -/
def faulted : State := { lagged with faults := [.regAccess 0 8] }
theorem witness_HardwareReset : Memory.wf lagged.mem ∧ (0, Port.w, ⟨Instr.write, 0x2000, 4, 0⟩) ∈ lagged.busyCmds ∧
    havocRange lagged.cfg (lagged.inst 0) ⟨.write, 0x2000, 4, 0⟩ = (0x1000, 9) := by decide

/-- An own step that faults: `WRITE` from an address outside the platform's memory. -/
def ownFault : State := busyOn .w ring other letters ⟨.write, 0x7FFE, 4, 0⟩
theorem witness_Faults : lagged.faults = [] ∧
    State.nextAction { lagged with sched := [.regRead 0x40000000 16] } = some (.regRead 0x40000000 16) ∧
    State.perform { lagged with sched := [] } (.regRead 0x40000000 16) = .fault (.regAccess 0x40000000 16) ∧
    ownFault.faults = [] ∧ ownFault.nextAction = some (.complete 0 .w) ∧
    State.perform { ownFault with sched := ownFault.sched.tail } (.complete 0 .w) = .fault (.bus 0 .w 0x7FFE 4) ∧
    Fault.regAccess 0 8 ∈ faulted.faults ∧ (∀ rest, faulted.sched ≠ .hwReset :: rest) ∧
    ∃ t, step { faulted with sched := [.hwReset] } = .next t :=
  ⟨rfl, rfl, rfl, rfl, by decide, rfl, by decide, (fun rest (h : [] = Action.hwReset :: rest) => nomatch h), _, rfl⟩

/-- A `RESET` busy on the X port of an instance whose views trail: its COMPLETE step is held (R73). -/
def held : State := busyOn .x trailing other letters ⟨.reset, 0, 0, 0⟩
theorem test_hold : step { held with sched := [.complete 0 .x] } = .next held ∧
    held.nextAction = some (.syncW2R 0 2) := ⟨rfl, by decide⟩

/-- StepRunsTheDecodedCommand: the W port, the X port synchronised, an X port held, an idle port, and a fetch of `MOVE SRC=1`. -/
theorem witness_StepRuns : lagged.faults = [] ∧ ((lagged.inst 0).port .w).busy = some ⟨.write, 0x2000, 4, 0⟩ ∧
    (∀ j ∈ involved (.move 1) 0, ((moving other source).inst j).rv = ((moving other source).inst j).r ∧
      ((moving other source).inst j).wv = ((moving other source).inst j).w) ∧
    (held.faults = [] ∧ ((held.inst 0).port .x).busy = some ⟨.reset, 0, 0, 0⟩ ∧ 0 ∈ involved .reset 0 ∧
      (held.inst 0).ready = true ∧ (held.inst 0).rv ≠ (held.inst 0).r) ∧
    ((lagged.inst 0).port .r).busy = none ∧ State.reset.faults = [] ∧ State.reset.insts ≠ [] ∧
    decode State.reset.cfg.numInst .x (0x121 % 2 ^ 16) = .ok (.move 1) := by decide

/-- StepKeepsTheMachineInvariant, StepKeepsExclusivity, StepsNeverGetStuck, HostsStoppedMeansQuiescent, SetupChangesOnlyByItsCommands
and CursorsMoveOnlyInTheirDomain: a step that runs the busy `WRITE` and moves its cursor, and one that runs an `INIT`. -/
def initing : State := busyOn .x (.reset 2) other letters ⟨.init, 0x1000, 9, 0⟩
theorem witness_steps : lagged.Inv ∧ lagged.Exclusive ∧ lagged.faults = [] ∧ lagged.sched = [] ∧
    (∃ t, step lagged = .next t ∧ (t.inst 0).w ≠ (lagged.inst 0).w) ∧ initing.Inv ∧
    ∃ t, step initing = .next t ∧ (t.inst 0).size ≠ (initing.inst 0).size ∧ (t.inst 0).base ≠ (initing.inst 0).base :=
  ⟨lagged_inv, by unfold State.Exclusive; decide, rfl, rfl, ⟨_, rfl, by decide⟩,
    busyOn_inv reset_inst_inv other_inv .x ⟨.init, 0x1000, 9, 0⟩ letters (by decide) (by decide) (by decide) (by decide) letters_ok,
    _, rfl, by decide, by decide⟩

end Sys2Proof.Machine.Tests
end

section
/-! PROOFS. The occupancy queries (R15, R150 to R153), and what a step of the machine does with faults (R14, R276, R277). -/

namespace Sys2Proof.Machine

/-! ### Occupancy and free space by the registers -/

/-- `occ` with readiness read off `BASE` and `SIZE` (R27, R150). -/
theorem Inst.occ_eq_ite (I : Inst) (rd wr : Nat) :
    I.occ rd wr = if I.base = 0 ∨ I.size = 0 then 0 else if rd ≤ wr then wr - rd else I.size - (rd - wr) := by
  simp only [Inst.occ, ready_false]

/-- `free` with readiness read off `BASE` and `SIZE` (R27, R151). -/
theorem Inst.free_eq_ite (I : Inst) (rd wr : Nat) :
    I.free rd wr = if I.base = 0 ∨ I.size = 0 then 0 else I.size - I.occ rd wr - 1 := by
  simp only [Inst.free, ready_false]

/-- Settles O19: both commands only answer a value, and `occ` and `free` are the formulas of R150 and R151 on the port's view. -/
theorem occupancyAnswers : Obligations.OccupancyAnswers := by
  unfold Obligations.OccupancyAnswers
  intro occ
  have hocc (s : State) : s.here.occ s.view.1 s.view.2 = occ s := s.here.occ_eq_ite _ _
  refine ⟨fun I => ⟨rfl, rfl, rfl⟩, fun s => rfl, ?_, ?_⟩
  · exact answers_of (fun _ => rfl) (fun _ => rfl) hocc
  · refine answers_of (v' := fun s => s.here.free s.view.1 s.view.2) (fun _ => rfl) (fun _ => rfl) fun s => ?_
    rw [Inst.free_eq_ite, hocc]

/-! ### Faults and the step of the machine -/

/-- The first fault of a run is the whole record (R14). -/
theorem State.raise_of_faults_nil {s : State} (h : s.faults = []) (f : Fault) : s.raise f = { s with faults := [f] } := by
  simp [State.raise, h]

/-- A fault of an agent's step is recorded in the state before that step (R14). -/
theorem State.record_of_perform_fault {s : State} {act : Action} {f : Fault} (h : s.perform act = .fault f) :
    s.record act = .next (s.raise f) := by
  simp only [State.record, h]

/-- Hardware reset keeps the fault record (R300). -/
@[simp] theorem State.hwReset_faults (s : State) : s.hwReset.faults = s.faults := rfl

/-- A run without a fault takes the step of the next agent, scheduled or its own, with the schedule moved on (R68, R93). -/
theorem step_eq_record {s : State} {act : Action} (hf : s.faults = []) (ha : s.nextAction = some act) :
    step s = State.record { s with sched := s.sched.tail } act := by
  obtain ⟨cfg, insts, mem, faults, site, sched, rdata, draws⟩ := s
  obtain rfl : faults = [] := hf
  cases sched with
  | cons a rest => cases ha; rfl
  | nil =>
    have ha : State.ownAction _ = some act := ha
    simp only [step, ha, List.tail_nil]

/-- A faulted run still takes a hardware reset (R277, R300). -/
theorem step_faulted_hwReset {s : State} {rest : List Action} (hf : s.faults ≠ []) (hs : s.sched = .hwReset :: rest) :
    step s = .next (State.hwReset { s with sched := rest }) := by
  obtain ⟨g, gs, hg⟩ := List.exists_cons_of_ne_nil hf
  simp only [step, hg, hs]

/-- A faulted run takes no other step: it answers the first fault recorded (R277). -/
theorem step_faulted_stops {s : State} {g : Fault} {gs : List Fault} (hf : s.faults = g :: gs)
    (hs : ∀ rest, s.sched ≠ .hwReset :: rest) : step s = .fault g := by
  unfold step
  split
  next rest _ hsched => exact absurd hsched (hs rest)
  next hfaults _ => cases hf.symm.trans hfaults; rfl
  next hfaults _ => cases hf.symm.trans hfaults
  next hfaults _ => cases hf.symm.trans hfaults

/-- A faulted run that has a next state took a hardware reset, which kept every fault (R277, R300). -/
theorem step_faulted_next {s t : State} (hf : s.faults ≠ []) (h : step s = .next t) :
    t.faults = s.faults ∧ ∃ rest, s.sched = .hwReset :: rest := by
  by_cases hs : ∃ rest, s.sched = .hwReset :: rest
  · obtain ⟨rest, hrest⟩ := hs
    rw [step_faulted_hwReset hf hrest] at h
    cases h
    exact ⟨State.hwReset_faults _, rest, hrest⟩
  · obtain ⟨g, gs, hg⟩ := List.exists_cons_of_ne_nil hf
    rw [step_faulted_stops hg (not_exists.mp hs)] at h
    cases h

/-- Settles O52: a fault is recorded by `record`, and of a faulted run only a hardware reset steps, which keeps the record. -/
theorem faultsAreRecordedAndSticky : Obligations.FaultsAreRecordedAndSticky := by
  refine ⟨fun s act f hf ha hp => ?_, fun s f hmem => ⟨fun t ht => ?_, fun hs => ?_⟩, fun i p word a n width x => ?_⟩
  · have hf' : State.faults { s with sched := s.sched.tail } = [] := hf
    rw [step_eq_record hf ha, State.record_of_perform_fault hp, State.raise_of_faults_nil hf']
  · obtain ⟨hkept, hreset⟩ := step_faulted_next (List.ne_nil_of_mem hmem) ht
    exact ⟨hkept ▸ hmem, hreset⟩
  · obtain ⟨g, gs, hg⟩ := List.exists_cons_of_ne_nil (List.ne_nil_of_mem hmem)
    exact ⟨g, by simp [hg], step_faulted_stops hg hs⟩
  · exact ⟨rfl, rfl, rfl, rfl, rfl, rfl⟩

end Sys2Proof.Machine
end

section
/-! PROOFS. Once and for all what a step of the machine can do (R68, R69, R277), and the machine invariant (R26, R60, R81, R84). -/

namespace Sys2Proof.Machine

/-! ### What a step can do -/

/-- What an agent's step `act` that answers a next state can have done to `s` (R68): every way, with its guard. The action is
named where a claim about steps turns on it. -/
inductive AgentStep (s : State) : Action → State → Prop where
  /-- The step is not enabled (R14), or its register access changes nothing (R38, R63). -/
  | nothing (act : Action) : AgentStep s act s
  /-- A host read: only the value returned changes (R63, R86). -/
  | hostRead (act : Action) (v : Nat) : AgentStep s act { s with rdata := some v }
  /-- A register write other than ISSUE (R32, R38). -/
  | regWrite (act : Action) {i k v : Nat} {p : Port} (hv : v < 2 ^ s.cfg.regW) :
      AgentStep s act (s.updPort i p fun q => q.writeReg k v)
  /-- ISSUE of a word that does not decode (R69, R108). -/
  | illegalWord (act : Action) {i word : Nat} {p : Port} {e : Illegal} (hw : word < 2 ^ s.cfg.regW)
      (hidle : ((s.inst i).port p).busy = none) (hd : decode s.cfg.numInst p word = .error e) :
      AgentStep s act (s.updPort i p fun q => { q with cmd := word, code := .illegal })
  /-- ISSUE of a command that conflicts with no busy one (R69, R71). -/
  | issue (act : Action) {i word : Nat} {p : Port} {c : Instr} (hw : word < 2 ^ s.cfg.regW)
      (hidle : ((s.inst i).port p).busy = none) (hd : decode s.cfg.numInst p word = .ok c)
      (hfree : s.conflicts i p c = false) :
      AgentStep s act (s.updPort i p fun q => { q with cmd := word, busy := some ⟨c, q.a, q.n, q.k⟩ })
  /-- A host write of a byte (R86, R87). -/
  | memWrite {a : Nat} {b : Byte} (ha : a < 2 ^ s.cfg.regW) (hrace : s.writeRace a = false) :
      AgentStep s (.memWrite a b) { s with mem := s.mem.write a b }
  /-- The COMPLETE step of the busy command of a port, which is not held (R72, R73). -/
  | complete {i : Nat} {p : Port} {c : Pending} {t : State} (hbusy : ((s.inst i).port p).busy = some c)
      (hunheld : s.unheld i p c.instr = true) (hexec : exec c.instr { s with site := ⟨i, p⟩ } = .next t) :
      AgentStep s (.complete i p) t
  /-- `SYNC_W2R` (R80). -/
  | syncW2R {i k : Nat} (hk : (s.inst i).canW2R s.cfg k = true) :
      AgentStep s (.syncW2R i k) (s.modInst i fun I => I.syncW2R s.cfg k)
  /-- `SYNC_R2W` (R80). -/
  | syncR2W {i k : Nat} (hk : (s.inst i).canR2W s.cfg k = true) :
      AgentStep s (.syncR2W i k) (s.modInst i fun I => I.syncR2W s.cfg k)
  /-- A W-domain clock edge (R78, R79). -/
  | wClock {i : Nat} (hasync : s.cfg.cdc = .async) : AgentStep s (.wClock i) (s.modInst i fun I => I.wClock s.cfg)
  /-- An R-domain clock edge (R78, R79). -/
  | rClock {i : Nat} (hasync : s.cfg.cdc = .async) : AgentStep s (.rClock i) (s.modInst i fun I => I.rClock s.cfg)
  /-- Hardware reset (R300). -/
  | hwReset : AgentStep s .hwReset s.hwReset

/-- An ISSUE that raises no fault (R69). -/
theorem issue_next {s t : State} {i word : Nat} {p : Port} (act : Action) (hw : word < 2 ^ s.cfg.regW)
    (h : s.issue i p word = .next t) : AgentStep s act t := by
  simp only [State.issue, Option.isSome_iff_ne_none, ne_eq] at h
  split at h
  · cases h
  next hidle =>
    have hidle := not_not.mp hidle
    split at h
    next hd => cases h; exact .illegalWord act hw hidle hd
    next c hd =>
      split at h
      · cases h
      next hfree => cases h; exact .issue act hw hidle hd (Bool.eq_false_iff.mpr hfree)

/-- A register write that raises no fault (R63). -/
theorem hostRegWrite_next {s t : State} {addr width value : Nat} (act : Action)
    (h : s.hostRegWrite addr width value = .next t) : AgentStep s act t := by
  have hv : value % 2 ^ s.cfg.regW < 2 ^ s.cfg.regW := Nat.mod_lt _ (Nat.two_pow_pos _)
  unfold State.hostRegWrite at h
  split at h
  · cases h; exact .nothing act
  · cases h
  · dsimp only at h
    split at h
    · cases h; exact .nothing act
    · split at h
      · exact issue_next act hv h
      · cases h; exact .regWrite act hv

/-- A register read that raises no fault (R63). -/
theorem hostRegRead_next {s t : State} {addr width : Nat} (act : Action) (h : s.hostRegRead addr width = .next t) :
    AgentStep s act t := by
  unfold State.hostRegRead at h
  split at h <;> cases h
  · exact .nothing act
  · exact .hostRead act _

/-- A host write of a byte that raises no fault (R86, R87). -/
theorem hostMemWrite_next {s t : State} {a : Nat} {b : Byte} (h : s.hostMemWrite a b = .next t) :
    AgentStep s (.memWrite a b) t := by
  unfold State.hostMemWrite at h
  split_ifs at h with ha hrace
  cases h
  exact .memWrite (not_le.mp ha) (Bool.eq_false_iff.mpr hrace)

/-- A host read of a byte that raises no fault (R86, R88). -/
theorem hostMemRead_next {s t : State} {a : Nat} (act : Action) (h : s.hostMemRead a = .next t) : AgentStep s act t := by
  unfold State.hostMemRead at h
  split_ifs at h
  cases h
  exact .hostRead act _

/-- A port has a COMPLETE step exactly when it is busy with a command that is not held (R72, R73). -/
theorem completable_eq_some {s : State} {i : Nat} {p : Port} {c : Instr} :
    s.completable i p = some c ↔ ∃ b, ((s.inst i).port p).busy = some b ∧ s.unheld i p b.instr = true ∧ b.instr = c := by
  unfold State.completable
  split
  next hidle => simp [hidle]
  next b hbusy => simp [hbusy]

/-- The scheduled COMPLETE step of a port: its busy command, or nothing while none is enabled (R14, R72, R73). -/
theorem completeStep_next {s t : State} {i : Nat} {p : Port} (h : s.completeStep i p = .next t) :
    AgentStep s (.complete i p) t := by
  unfold State.completeStep at h
  split at h
  · cases h; exact .nothing _
  next c hc =>
    obtain ⟨b, hbusy, hunheld, rfl⟩ := completable_eq_some.mp hc
    exact .complete hbusy hunheld h

/-- A step of one FIFO: its update where it is enabled, else nothing (R14). -/
theorem stepInst_next_of {s t : State} {act : Action} {i : Nat} {ok : Inst → Bool} {f : Inst → Inst}
    (hstep : ok (s.inst i) = true → AgentStep s act (s.modInst i f)) (h : s.stepInst i ok f = .next t) :
    AgentStep s act t := by
  unfold State.stepInst at h
  split at h <;> cases h
  exacts [hstep ‹_›, .nothing act]

/-- Everything that a step of an agent can do, when it raises no fault (R68). -/
theorem perform_next {s t : State} {act : Action} (h : s.perform act = .next t) : AgentStep s act t := by
  cases act <;> simp only [State.perform] at h
  case regWrite => exact hostRegWrite_next _ h
  case regRead => exact hostRegRead_next _ h
  case memWrite => exact hostMemWrite_next h
  case memRead => exact hostMemRead_next _ h
  case complete => exact completeStep_next h
  case syncW2R => exact stepInst_next_of (fun hk => .syncW2R hk) h
  case syncR2W => exact stepInst_next_of (fun hk => .syncR2W hk) h
  case wClock => exact stepInst_next_of (fun ha => .wClock (of_decide_eq_true ha)) h
  case rClock => exact stepInst_next_of (fun ha => .rClock (of_decide_eq_true ha)) h
  case hwReset => cases h; exact .hwReset

/-- A recorded step is the agent's step, or the record of the fault it raises (R14). -/
theorem State.record_next {s t : State} {act : Action} (h : s.record act = .next t) :
    AgentStep s act t ∨ ∃ f, t = s.raise f := by
  unfold State.record at h
  split at h
  next f _ => cases h; exact .inr ⟨f, rfl⟩
  · exact .inl (perform_next h)

/-- A run without a fault and without a next agent idles (R315). -/
theorem step_idle {s : State} (hf : s.faults = []) (ha : s.nextAction = none) : step s = .next s := by
  unfold State.nextAction at ha
  unfold step
  split at ha
  · cases ha
  next hs => simp only [hf, hs, ha]

/-- Everything that a step of the machine can do: idle, or take the next agent's step with the schedule moved on, or record the
fault of that step (R14, R68, R277). -/
theorem step_next {s t : State} (h : step s = .next t) :
    t = s ∨ ∃ act, s.nextAction = some act ∧
      (AgentStep { s with sched := s.sched.tail } act t ∨ ∃ f, t = State.raise { s with sched := s.sched.tail } f) := by
  by_cases hf : s.faults = []
  · cases ha : s.nextAction with
    | none => rw [step_idle hf ha] at h; cases h; exact .inl rfl
    | some act => rw [step_eq_record hf ha] at h; exact .inr ⟨act, rfl, State.record_next h⟩
  · obtain ⟨-, rest, hs⟩ := step_faulted_next hf h
    rw [step_faulted_hwReset hf hs] at h
    cases h
    refine .inr ⟨.hwReset, by simp only [State.nextAction, hs], .inl ?_⟩
    simp only [hs, List.tail_cons]
    exact .hwReset

/-! ### The machine invariant -/

/-- A word that decodes is a command that the port may be given (R102, R106, R107). -/
theorem wellFormed_of_decode {numInst word : Nat} {p : Port} {i : Instr} (h : decode numInst p word = .ok i) :
    i.wellFormed numInst p = true := by
  have hsrc : bitField word 15 8 < 2 ^ 8 := Nat.mod_lt _ (by decide)
  unfold decode at h
  dsimp only at h
  split at h; · cases h
  split at h; · cases h
  split at h; · cases h
  next c hc =>
    obtain ⟨hop, hfield⟩ := instrOfOp_some hc
    split_ifs at h with hlegal hrange
    cases h
    have hfits : i.srcFits = true := by
      rw [Instr.srcFits, decide_eq_true_eq, hfield]
      split_ifs
      exacts [hsrc, Nat.two_pow_pos 8]
    have hexists : i.srcExists numInst = true := by
      cases i with
      | move src =>
        have hop : 0x21 = bitField word 5 0 := hop
        have hfield : src = if bitField word 5 0 = 0x21 then bitField word 15 8 else 0 := hfield
        rw [if_pos hop.symm] at hfield
        exact decide_eq_true (by omega)
      | _ => rfl
    simp only [Instr.wellFormed, hfits, hexists, Bool.eq_true_of_not_eq_false hlegal, Bool.and_self]

/-- A register write leaves a port that fits (R32, R38). -/
theorem PortState.Fits.writeReg {c : Config} {p : Port} {q : PortState} (h : q.Fits c p) {k v : Nat} (hv : v < 2 ^ c.regW) :
    (q.writeReg k v).Fits c p := by
  unfold PortState.writeReg
  split
  · exact ⟨hv, h.n, h.k, h.cmd, h.res0, h.res1, h.busy⟩
  · exact ⟨h.a, hv, h.k, h.cmd, h.res0, h.res1, h.busy⟩
  · exact ⟨h.a, h.n, hv, h.cmd, h.res0, h.res1, h.busy⟩
  · exact h

/-- An illegal word leaves a port that fits (R108). -/
theorem PortState.Fits.illegalWord {c : Config} {p : Port} {q : PortState} (h : q.Fits c p) {word : Nat}
    (hw : word < 2 ^ c.regW) : PortState.Fits c p { q with cmd := word, code := .illegal } :=
  ⟨h.a, h.n, h.k, hw, h.res0, h.res1, h.busy⟩

/-- A command accepted leaves a port that fits: the operands latched are the port's registers (R36, R69). -/
theorem PortState.Fits.issue {c : Config} {p : Port} {q : PortState} (h : q.Fits c p) {word : Nat} {i : Instr}
    (hw : word < 2 ^ c.regW) (hi : i.wellFormed c.numInst p = true) :
    PortState.Fits c p { q with cmd := word, busy := some ⟨i, q.a, q.n, q.k⟩ } :=
  ⟨h.a, h.n, h.k, hw, h.res0, h.res1, fun _ hb => by cases hb; exact ⟨hi, h.a, h.n, h.k⟩⟩

/-- A host's byte keeps memory canonical and inside the address space (R60). -/
theorem State.MemoryOk.write {s : State} (h : s.MemoryOk) {a : Nat} (ha : a < 2 ^ s.cfg.regW) (b : Byte) :
    State.MemoryOk { s with mem := s.mem.write a b } := by
  refine ⟨Memory.wf_write a b h.wf, fun x hx => ?_⟩
  obtain hx | rfl := Memory.mem_write hx
  exacts [h.addresses x hx, ha]

/-- Free bytes put into ranges below `N` keep memory canonical and below `N` (R60, R301). -/
theorem havoc_foldl_ok {N : Nat} {l : List (Nat × Nat)} (hl : ∀ r ∈ l, r.1 + r.2 ≤ N) {x : Memory × Nat}
    (hwf : Memory.wf x.1) (hx : ∀ c ∈ x.1, c.1 < N) :
    Memory.wf (l.foldl havoc x).1 ∧ ∀ c ∈ (l.foldl havoc x).1, c.1 < N := by
  induction l generalizing x with
  | nil => exact ⟨hwf, hx⟩
  | cons r l ih =>
    refine ih (fun r hr => hl r (List.mem_cons_of_mem _ hr)) (Memory.wf_writeBytes _ _ hwf) fun c hc => ?_
    obtain hc | ⟨-, hc⟩ := Memory.mem_writeBytes hc
    · exact hx c hc
    · have := hl r List.mem_cons_self
      rw [List.length_map, List.length_range] at hc
      omega

/-- The bytes that hardware reset frees lie in the address space (R301). -/
theorem havocRange_le {c : Config} {I : Inst} (hI : I.Fits c) {b : Pending} (hb : b.a < 2 ^ c.regW) :
    (havocRange c I b).1 + (havocRange c I b).2 ≤ 2 ^ c.regW := by
  have := hI.storage
  unfold havocRange
  generalize 2 ^ c.regW = N at *
  split
  case h_4 | h_5 | h_6 | h_7 => split <;> simp only <;> omega
  all_goals simp only; omega

/-- Hardware reset establishes the invariant of every FIFO and keeps that of memory (R42, R300, R301). -/
theorem State.Inv.hwReset {s : State} (h : s.Inv) : s.hwReset.Inv := by
  have hranges : ∀ r ∈ s.busyCmds.map fun b => havocRange s.cfg (s.inst b.1) b.2.2, r.1 + r.2 ≤ 2 ^ s.cfg.regW := by
    intro r hr
    obtain ⟨b, hb, rfl⟩ := List.mem_map.mp hr
    obtain ⟨hlt, hbusy⟩ := mem_busyCmds.mp hb
    have hfits := (h.insts _ (s.inst_mem _ hlt)).fits
    exact havocRange_le hfits ((hfits.ports _).busy _ hbusy).2.1
  obtain ⟨hwf, haddr⟩ := havoc_foldl_ok (x := (s.mem, s.draws)) hranges h.memory.wf h.memory.addresses
  refine ⟨h.cfg, by simpa [State.hwReset] using h.count, ⟨hwf, haddr⟩, fun I hI => ?_⟩
  obtain ⟨J, hJ, rfl⟩ := List.mem_map.mp hI
  exact Inst.reset_inv _ _ (h.insts J hJ).fits.events

/-- Every agent's step keeps the machine invariant. -/
theorem AgentStep.keeps_inv {s t : State} {act : Action} (hstep : AgentStep s act t) (h : s.Inv) : t.Inv := by
  have hinst {i : Nat} (hi : i < s.insts.length) : (s.inst i).Inv s.cfg := h.insts _ (s.inst_mem i hi)
  cases hstep with
  | nothing => exact h
  | hostRead => exact inv_rdata h _
  | regWrite _ hv => exact inv_updPort h _ _ _ fun _ hq => hq.writeReg hv
  | illegalWord _ hw => exact inv_updPort h _ _ _ fun _ hq => hq.illegalWord hw
  | issue _ hw _ hd => exact inv_updPort h _ _ _ fun _ hq => hq.issue hw (wellFormed_of_decode hd)
  | memWrite ha => exact ⟨h.cfg, h.count, h.memory.write ha _, h.insts⟩
  | complete _ _ hexec => exact exec_keeps (inv_site h _) hexec
  | syncW2R hk => exact inv_modInst h _ _ fun hi => (hinst hi).syncW2R h.cfg hk
  | syncR2W hk => exact inv_modInst h _ _ fun hi => (hinst hi).syncR2W h.cfg hk
  | wClock ha => exact inv_modInst h _ _ fun hi => (hinst hi).wClock h.cfg ha
  | rClock ha => exact inv_modInst h _ _ fun hi => (hinst hi).rClock h.cfg ha
  | hwReset => exact h.hwReset

/-- The record of a fault keeps the machine invariant (R14). -/
theorem State.Inv.raise {s : State} (h : s.Inv) (f : Fault) : (s.raise f).Inv := by
  unfold State.raise
  split
  exacts [h, inv_faults h _]

/-- Settles O54: a step idles, takes an agent's step or records a fault, and each keeps the invariant. -/
theorem stepKeepsTheMachineInvariant : Obligations.StepKeepsTheMachineInvariant := by
  intro s t hI h
  have hI' := inv_sched hI s.sched.tail
  obtain rfl | ⟨act, -, hstep | ⟨f, rfl⟩⟩ := step_next h
  exacts [hI, hstep.keeps_inv hI', hI'.raise f]

/-- No port is busy after reset (R42). -/
theorem busyCmds_reset : State.reset.busyCmds = [] := rfl

/-- Settles O55: every FIFO is as after hardware reset, memory lists no byte and no port is busy. -/
theorem resetMeetsTheInvariants : Obligations.ResetMeetsTheInvariants := by
  refine ⟨⟨by decide, rfl, ⟨by decide, by decide⟩, fun I hI => ?_⟩, fun x hx => ?_⟩
  · rw [List.eq_of_mem_replicate hI]
    exact Inst.reset_inv .default [] (by simp)
  · rw [busyCmds_reset] at hx
    cases hx

end Sys2Proof.Machine
end

section
/-! PROOFS. Which steps change the setup and the true cursors of a FIFO (R23 to R25, R28, R29, R41, R66, R77). -/

namespace Sys2Proof.Machine

/-! ### Steps that leave setup and cursors -/

/-- Setup and true cursors of `J` are those of `I`. -/
structure SameSetup (I J : Inst) : Prop where
  size : J.size = I.size
  base : J.base = I.base
  evtEn : J.evtEn = I.evtEn
  tag : J.tag = I.tag
  w : J.w = I.w
  r : J.r = I.r

theorem SameSetup.refl (I : Inst) : SameSetup I I := ⟨rfl, rfl, rfl, rfl, rfl, rfl⟩

theorem SameSetup.setPort (I : Inst) (p : Port) (q : PortState) : SameSetup I (I.setPort p q) := by
  constructor <;> simp

theorem SameSetup.wClock (c : Config) (I : Inst) : SameSetup I (I.wClock c) := by
  unfold Inst.wClock
  dsimp only
  split <;> exact ⟨rfl, rfl, rfl, rfl, rfl, rfl⟩

theorem SameSetup.rClock (c : Config) (I : Inst) : SameSetup I (I.rClock c) := by
  unfold Inst.rClock
  dsimp only
  split <;> exact ⟨rfl, rfl, rfl, rfl, rfl, rfl⟩

/-- An update of one FIFO that leaves its setup and cursors leaves those of every FIFO. -/
theorem SameSetup.modInst (s : State) (i : Nat) {f : Inst → Inst} (hf : ∀ I, SameSetup I (f I)) (j : Nat) :
    SameSetup (s.inst j) ((s.modInst i f).inst j) := by
  rw [s.inst_modInst]
  split
  next hj => rw [hj.1]; exact hf _
  · exact .refl _

/-- A step other than a COMPLETE step and a hardware reset leaves the parameters, every setup and every true cursor. -/
theorem AgentStep.sameSetup {s t : State} {act : Action} (h : AgentStep s act t) :
    t.cfg = s.cfg ∧
      ((∀ j, SameSetup (s.inst j) (t.inst j)) ∨ act = .hwReset ∨
        ∃ i p c, act = .complete i p ∧ ((s.inst i).port p).busy = some c ∧
          StepEffect c.instr { s with site := ⟨i, p⟩ } t) := by
  cases h with
  | nothing | hostRead | memWrite => exact ⟨rfl, .inl fun _ => .refl _⟩
  | regWrite | illegalWord | issue => exact ⟨rfl, .inl (.modInst s _ fun I => .setPort I _ _)⟩
  | syncW2R | syncR2W => exact ⟨rfl, .inl (.modInst s _ fun I => ⟨rfl, rfl, rfl, rfl, rfl, rfl⟩)⟩
  | wClock => exact ⟨rfl, .inl (.modInst s _ (.wClock s.cfg))⟩
  | rClock => exact ⟨rfl, .inl (.modInst s _ (.rClock s.cfg))⟩
  | hwReset => exact ⟨rfl, .inr (.inl rfl)⟩
  | complete hbusy _ hexec =>
    have heffect := exec_stepEffect hexec
    exact ⟨heffect.cfg, .inr (.inr ⟨_, _, _, rfl, hbusy, heffect⟩)⟩

/-- What a step of the machine may change of parameters, setup and true cursors: nothing, unless it is a hardware reset or the
COMPLETE step of a busy command `c`, and then only what `c` may (R41). -/
theorem step_sameSetup {s t : State} (h : step s = .next t) :
    t.cfg = s.cfg ∧
      ((∀ j, SameSetup (s.inst j) (t.inst j)) ∨ s.nextAction = some .hwReset ∨
        ∃ i p c, s.nextAction = some (.complete i p) ∧ ((s.inst i).port p).busy = some c ∧
          StepEffect c.instr { s with sched := s.sched.tail, site := ⟨i, p⟩ } t) := by
  obtain rfl | ⟨act, hact, hstep | ⟨f, rfl⟩⟩ := step_next h
  · exact ⟨rfl, .inl fun _ => .refl _⟩
  · obtain ⟨hcfg, hsame | rfl | ⟨i, p, c, rfl, hbusy, heffect⟩⟩ := hstep.sameSetup
    exacts [⟨hcfg, .inl hsame⟩, ⟨hcfg, .inr (.inl hact)⟩, ⟨hcfg, .inr (.inr ⟨i, p, c, hact, hbusy, heffect⟩)⟩]
  · refine ⟨State.raise_cfg _ f, .inl fun j => ?_⟩
    rw [inst_eq (State.raise_insts _ f) (State.raise_cfg _ f), inst_setSched]
    exact .refl _

/-! ### The rules of the whole machine -/

/-- Settles O59: outside hardware reset only a COMPLETE step changes setup, and `StepEffect` says which command's. -/
theorem setupChangesOnlyByItsCommands : Obligations.SetupChangesOnlyByItsCommands := by
  intro s t j _ h
  obtain ⟨hcfg, hsame | hreset | ⟨i, p, c, hact, hbusy, heffect⟩⟩ := step_sameSetup h
  · exact ⟨hcfg, (absurd (hsame j).size ·), (absurd (hsame j).base ·), (absurd (hsame j).evtEn ·), (absurd (hsame j).tag ·)⟩
  · exact ⟨hcfg, fun _ => .inl hreset, fun _ => .inl hreset, fun _ => .inl hreset, fun _ => .inl hreset⟩
  · have hnext {k : Instr} (hsite : (⟨i, p⟩ : Site) = ⟨j, .x⟩) (hk : c.instr = k) : s.completesNext j .x k := by
      cases hsite
      exact ⟨hact, c, hbusy, hk⟩
    refine ⟨hcfg, fun hne => ?_, fun hne => ?_, fun hne => ?_, fun hne => ?_⟩
    · obtain ⟨hsite, hk⟩ := heffect.size j hne
      exact .inr (hnext hsite hk)
    · obtain ⟨hsite, hk⟩ := heffect.base j hne
      exact .inr (hk.imp (hnext hsite) (hnext hsite))
    · obtain ⟨hsite, hk⟩ := heffect.evtEn j hne
      exact .inr (hk.imp (hnext hsite) (hnext hsite))
    · obtain ⟨hsite, hk⟩ := heffect.tag j hne
      exact .inr (hnext hsite hk)

/-- Settles O60: outside hardware reset only a COMPLETE step moves a cursor, and `StepEffect` says on which ports. -/
theorem cursorsMoveOnlyInTheirDomain : Obligations.CursorsMoveOnlyInTheirDomain := by
  intro s t j _ h
  obtain ⟨-, hsame | hreset | ⟨i, p, c, hact, hbusy, heffect⟩⟩ := step_sameSetup h
  · exact ⟨(absurd (hsame j).w ·), (absurd (hsame j).r ·)⟩
  · exact ⟨fun _ => .inl hreset, fun _ => .inl hreset⟩
  · have hsite {q : Port} (hq : (⟨i, p⟩ : Site) = ⟨j, q⟩) : s.nextAction = some (.complete j q) := by
      cases hq
      exact hact
    refine ⟨fun hne => .inr ((heffect.w j hne).imp hsite hsite), fun hne => .inr ?_⟩
    obtain hr | hx | ⟨hport, hmove⟩ := heffect.r j hne
    · exact .inl (hsite hr)
    · exact .inr (.inl (hsite hx))
    · obtain rfl : p = .x := hport
      exact .inr (.inr ⟨i, hact, c, hbusy, hmove⟩)

end Sys2Proof.Machine
end

section
/-! PROOFS. The register block (R32 to R38, R63) and the answer of `IS_READY` (R27, R132). -/

namespace Sys2Proof.Machine

/-! ### What a register access reaches -/

/-- An access whose first byte is outside the span is none to the block (R63). -/
theorem regTarget_outside {c : Config} {addr : Nat} (h : addr < c.regBase ∨ c.regBase + 256 * 32 * regBytes c ≤ addr)
    (width : Nat) : regTarget c addr width = .outside :=
  if_pos (by omega)

/-- An access in the span that is not of the register width, or at no register of a FIFO, is bad (R38, R63). -/
theorem regTarget_bad {c : Config} {addr width : Nat} (hlow : c.regBase ≤ addr)
    (hhigh : addr < c.regBase + 256 * 32 * regBytes c)
    (h : width ≠ c.regW ∨ ¬ ∃ i < c.numInst, ∃ j < 32, addr = regAddr c i j) : regTarget c addr width = .bad := by
  unfold regTarget
  rw [if_neg (by omega), if_pos]
  by_contra hgood
  push Not at hgood
  obtain ⟨hwidth, haligned, hinst⟩ := hgood
  have hindex := Nat.div_add_mod ((addr - c.regBase) / regBytes c) 32
  have hoff := Nat.div_mul_cancel (Nat.dvd_of_mod_eq_zero haligned)
  refine h.resolve_left (not_not.mpr hwidth) ⟨_, hinst, (addr - c.regBase) / regBytes c % 32, Nat.mod_lt _ (by decide), ?_⟩
  rw [regAddr, hindex, hoff]
  omega

/-- A host access outside the span does nothing (R63). -/
theorem perform_reg_outside {s : State} {addr width : Nat} (h : regTarget s.cfg addr width = .outside) (v : Nat) :
    s.perform (.regWrite addr width v) = .next s ∧ s.perform (.regRead addr width) = .next s := by
  simp only [State.perform, State.hostRegWrite, State.hostRegRead, h, and_self]

/-- A bad host access is `F_REG_ACCESS` (R63). -/
theorem perform_reg_bad {s : State} {addr width : Nat} (h : regTarget s.cfg addr width = .bad) (v : Nat) :
    s.perform (.regWrite addr width v) = .fault (.regAccess addr width) ∧
      s.perform (.regRead addr width) = .fault (.regAccess addr width) := by
  simp only [State.perform, State.hostRegWrite, State.hostRegRead, h, and_self]

/-- Settles O5: the classification of R63 for an address outside the span, a bad access in it, and the address of R38. -/
theorem registerAccessOutcomes : Obligations.RegisterAccessOutcomes := fun _ hc =>
  ⟨fun _ width v h => perform_reg_outside (regTarget_outside h width) v,
    fun _ _ v hlow hhigh h => perform_reg_bad (regTarget_bad hlow hhigh h) v,
    fun _ hi _ hj => regTarget_reg hc hi hj⟩

/-! ### Reads and writes of register `j` -/

section
variable {s : State} {i : Nat} (hc : s.cfg.wf) (hi : i < s.cfg.numInst)
include hc hi

/-- A host write to register `j` of FIFO `i` (R38, R63): the FIFO's registers and the reserved ones ignore it, `CMD` is an
ISSUE, and any other register of a port is written. -/
theorem perform_regWrite {j : Nat} (hj : j < 32) (v : Nat) :
    s.perform (.regWrite (regAddr s.cfg i j) s.cfg.regW v) =
      if 24 ≤ j then .next s
      else if j % 8 = 0 then s.issue i (portOfBank (j / 8)) (v % 2 ^ s.cfg.regW)
      else .next (s.updPort i (portOfBank (j / 8)) fun q => q.writeReg (j % 8) (v % 2 ^ s.cfg.regW)) := by
  simp only [State.perform, State.hostRegWrite, regTarget_reg hc hi hj]

/-- A host read of register `j` of FIFO `i` (R38, R63). -/
theorem perform_regRead {j : Nat} (hj : j < 32) :
    s.perform (.regRead (regAddr s.cfg i j) s.cfg.regW) = .next { s with rdata := some (s.readReg i j) } := by
  simp only [State.perform, State.hostRegRead, regTarget_reg hc hi hj]

end

/-- Register `k` of port `p` stands in the port's bank (R38). -/
theorem bank_firstReg (p : Port) {k : Nat} (hk : k < 8) :
    firstReg p + k < 24 ∧ portOfBank ((firstReg p + k) / 8) = p ∧ (firstReg p + k) % 8 = k := by
  cases p <;> simp only [firstReg]
  · rw [show (0 + k) / 8 = 0 by omega]
    exact ⟨by omega, rfl, by omega⟩
  · rw [show (8 + k) / 8 = 1 by omega]
    exact ⟨by omega, rfl, by omega⟩
  · rw [show (16 + k) / 8 = 2 by omega]
    exact ⟨by omega, rfl, by omega⟩

/-- A host write to register `k` of a port, not `CMD`, writes that register alone (R38, R63). -/
theorem perform_portWrite {s : State} {i k v : Nat} (hc : s.cfg.wf) (hn : s.insts.length = s.cfg.numInst)
    (hi : i < s.cfg.numInst) (p : Port) (hk : k < 8) (hcmd : k ≠ 0) (hv : v < 2 ^ s.cfg.regW) :
    ∃ t, s.perform (.regWrite (regAddr s.cfg i (firstReg p + k)) s.cfg.regW v) = .next t ∧
      OnlyPort s t i p (((s.inst i).port p).writeReg k v) := by
  obtain ⟨hlt, hport, hreg⟩ := bank_firstReg p hk
  refine ⟨s.updPort i p fun q => q.writeReg k v, ?_, onlyPort_updPort p _ (hn ▸ hi)⟩
  rw [perform_regWrite hc hi (by omega), if_neg (by omega), hport, hreg, if_neg hcmd, Nat.mod_eq_of_lt hv]

/-- Settles O6: `A`, `N` and `K` are the registers 1 to 3 of their port, and the only ones that a write changes. -/
theorem operandRegistersTakeWrites : Obligations.OperandRegistersTakeWrites := fun _ _ _ p hc hn hi hv =>
  ⟨perform_portWrite hc hn hi p (k := 1) (by decide) (by decide) hv,
    perform_portWrite hc hn hi p (k := 2) (by decide) (by decide) hv,
    perform_portWrite hc hn hi p (k := 3) (by decide) (by decide) hv⟩

/-- The registers of a port past `K` ignore a write (R34, R35, R38). -/
theorem PortState.writeReg_of_four_le (q : PortState) {k : Nat} (hk : 4 ≤ k) (v : Nat) : q.writeReg k v = q := by
  obtain ⟨m, rfl⟩ := Nat.exists_eq_add_of_le' hk
  rfl

/-- Settles O7: a register of the FIFO ignores a write by its number, a register of a port past `K` by `writeReg`. -/
theorem readOnlyRegistersIgnoreWrites : Obligations.ReadOnlyRegistersIgnoreWrites := by
  intro s i j v hc hi hj hro
  rw [perform_regWrite hc hi hj]
  split_ifs with hinst hcmd
  · rfl
  · omega
  · rw [updPort_id (PortState.writeReg_of_four_le _ (hro.resolve_left hinst) _)]

/-- Register `k` of port `p`, read by its number within the FIFO (R38). -/
theorem readReg_firstReg (s : State) (i : Nat) (p : Port) {k : Nat} (hk : k < 8) :
    s.readReg i (firstReg p + k) = (s.inst i).readPortReg p k := by
  obtain ⟨hlt, hport, hreg⟩ := bank_firstReg p hk
  simp only [State.readReg, hlt, if_true, hport, hreg]

/-- Settles O8: a read returns `readReg`, which is `readPortReg` on the registers of a port and a field on the others. -/
theorem registerReads : Obligations.RegisterReads := by
  intro s i hc hi reads
  have hread {j v : Nat} (hj : j < 32) (hv : s.readReg i j = v) : reads j v := hv ▸ perform_regRead hc hi hj
  have hport (p : Port) {k : Nat} (hk : k < 8) : reads (firstReg p + k) ((s.inst i).readPortReg p k) :=
    hread (by have := (bank_firstReg p hk).1; omega) (readReg_firstReg s i p hk)
  have hevt : s.readReg i 26 = if (s.inst i).evtEn = true then 1 else 0 := Bool.cond_eq_ite _ _ _
  refine ⟨fun p => ⟨hport p (k := 0) ?_, hport p ?_, hport p ?_, hport p ?_, hport p ?_, hport p ?_, hport p ?_, hport p ?_⟩,
    hread ?_ rfl, hread ?_ rfl, hread ?_ hevt, hread ?_ rfl, hread ?_ rfl, hread ?_ rfl, hread ?_ rfl, hread ?_ rfl⟩ <;> decide

/-! ### The fields of `STATUS` and `PARAM` -/

/-- A test's bit is 1 exactly when the test holds. -/
theorem toNat_decide_eq_ite (P : Prop) [Decidable P] : (decide P).toNat = if P then 1 else 0 := by
  by_cases h : P <;> simp [h]

/-- The fields of `STATUS` stand side by side, each below its width (R35). -/
theorem bitField_status (I : Inst) (p : Port) :
    bitField (I.status p) 0 0 = (I.port p).busy.isSome.toNat ∧ bitField (I.status p) 2 1 = (I.port p).code.value ∧
    bitField (I.status p) 3 3 = (I.emptyFlag p).toNat ∧ bitField (I.status p) 4 4 = (I.fullFlag p).toNat ∧
    bitField (I.status p) 5 5 = I.ready.toNat ∧ I.status p / 2 ^ 6 = 0 := by
  have hcode : (I.port p).code.value < 4 := by cases (I.port p).code <;> decide
  have hbusy := (I.port p).busy.isSome.toNat_lt
  have hempty := (I.emptyFlag p).toNat_lt
  have hfull := (I.fullFlag p).toNat_lt
  have hready := I.ready.toNat_lt
  unfold bitField Inst.status
  omega

/-- Settles O9: each field of `STATUS` by its place, then by what its flag tests. -/
theorem statusFields : Obligations.StatusFields := by
  intro I p
  obtain ⟨hbusy, hcode, hempty, hfull, hready, hzero⟩ := bitField_status I p
  refine ⟨hbusy.trans ?_, hcode.trans ?_, hempty.trans (toNat_decide_eq_ite _), hfull.trans (toNat_decide_eq_ite _),
    hready.trans (toNat_decide_eq_ite _), hzero⟩
  · cases (I.port p).busy <;> rfl
  · cases (I.port p).code <;> rfl

/-- Settles O10: the fields stand side by side, and the bounds of R8 keep each below its width. -/
theorem paramFields : Obligations.ParamFields := by
  rintro c ⟨hreg, -, hcap, -, hinst, -⟩
  unfold bitField paramReg
  cases c.cdc <;> simp only [reduceCtorEq, if_true, if_false] <;> omega

/-! ### `IS_READY` -/

/-- Settles O18: the command only answers a value, the test of readiness as a number. -/
theorem isReadyAnswer : Obligations.IsReadyAnswer :=
  answers_of (v' := fun s => s.here.ready.toNat) (fun _ => rfl) (fun _ => rfl) fun _ => toNat_decide_eq_ite _

end Sys2Proof.Machine
end

section
/-! PROOFS. ISSUE (R69) and the exclusive-access contract that it keeps (R71). -/

namespace Sys2Proof.Machine

/-! ### ISSUE, one equation per outcome -/

section
variable {s : State} {i word : Nat} {p : Port}

/-- ISSUE on a busy port (R70). -/
theorem issue_of_busy (h : ((s.inst i).port p).busy ≠ none) : s.issue i p word = .fault (.issueBusy i p word) :=
  if_pos (Option.isSome_iff_ne_none.mpr h)

/-- ISSUE of a word that does not decode (R108). -/
theorem issue_of_illegal {e : Illegal} (hidle : ((s.inst i).port p).busy = none)
    (hd : decode s.cfg.numInst p word = .error e) :
    s.issue i p word = .next (s.updPort i p fun q => { q with cmd := word, code := .illegal }) := by
  simp [State.issue, hidle, hd]

/-- ISSUE of a command whose footprint conflicts with a busy one's (R71). -/
theorem issue_of_conflict {c : Instr} (hidle : ((s.inst i).port p).busy = none)
    (hd : decode s.cfg.numInst p word = .ok c) (hx : s.conflicts i p c = true) :
    s.issue i p word = .fault (.excl i p word) := by
  simp [State.issue, hidle, hd, hx]

/-- ISSUE of any other command (R36, R69). -/
theorem issue_of_free {c : Instr} (hidle : ((s.inst i).port p).busy = none)
    (hd : decode s.cfg.numInst p word = .ok c) (hx : s.conflicts i p c = false) :
    s.issue i p word = .next (s.updPort i p fun q => { q with cmd := word, busy := some ⟨c, q.a, q.n, q.k⟩ }) := by
  simp [State.issue, hidle, hd, hx]

end

/-- A command that no busy one conflicts with (R69, R71). -/
theorem conflicts_eq_false {s : State} {i : Nat} {p : Port} {c : Instr} : s.conflicts i p c = false ↔
    ∀ b ∈ s.busyCmds, conflict (footprint i p c) (footprint b.1 b.2.1 b.2.2.instr) = false := by
  simp only [State.conflicts, List.any_eq_false, Bool.not_eq_true]

/-- Settles O11: a write to `CMD` is an ISSUE, whose four outcomes are the four clauses. -/
theorem issueRule : Obligations.IssueRule := by
  intro s i p word hc hn hi hw
  have hlt : i < s.insts.length := hn ▸ hi
  dsimp only
  rw [regWrite_cmd hc hi hw]
  refine ⟨issue_of_busy, fun hidle ⟨e, hd⟩ => ?_, fun c hidle hd hx => ?_, fun c hidle hd hx => ?_⟩
  · exact ⟨_, issue_of_illegal hidle hd, onlyPort_updPort p _ hlt⟩
  · exact issue_of_conflict hidle hd (conflicts_iff.mpr hx)
  · exact ⟨_, issue_of_free hidle hd (conflicts_eq_false.mpr hx), onlyPort_updPort p _ hlt⟩

/-- Settles O12: the FIFOs of a footprint are those that the command involves on X, and its own on W and R. -/
theorem conflictMeansSharedInstanceWithX : Obligations.ConflictMeansSharedInstanceWithX := by
  intro i j p q c d insts
  have hinsts (p : Port) (c : Instr) (i : Nat) : insts p c i = instsOf p c i := by
    cases p with
    | x => cases c <;> rfl
    | w | r => rfl
  rw [hinsts, hinsts]
  exact conflict_iff i j p q c d

/-! ### The busy commands after a step -/

/-- Port `q` of FIFO `j` after a change of port `p` of FIFO `i`. -/
theorem port_updPort (s : State) (i j : Nat) (p q : Port) (f : PortState → PortState) :
    ((s.updPort i p f).inst j).port q =
      if (j = i ∧ i < s.insts.length) ∧ q = p then f ((s.inst i).port p) else (s.inst j).port q := by
  unfold State.updPort
  rw [s.inst_modInst]
  by_cases hj : j = i ∧ i < s.insts.length
  · by_cases hq : q = p
    · rw [if_pos hj, if_pos ⟨hj, hq⟩, hq, Inst.port_setPort_same]
    · rw [if_pos hj, if_neg (hq ·.2), Inst.port_setPort_ne _ _ _ _ hq, hj.1]
  · rw [if_neg hj, if_neg (hj ·.1)]

/-- Every busy command of `t` is one of `s`, on the same port. -/
def NoNewBusy (s t : State) : Prop := ∀ x ∈ t.busyCmds, x ∈ s.busyCmds

/-- A step that makes no port busy makes no busy command. -/
theorem NoNewBusy.of_ports {s t : State} (hn : t.insts.length = s.insts.length)
    (h : ∀ j p c, ((t.inst j).port p).busy = some c → ((s.inst j).port p).busy = some c) : NoNewBusy s t := by
  intro x hx
  obtain ⟨hlt, hbusy⟩ := mem_busyCmds.mp hx
  exact mem_busyCmds.mpr ⟨hn ▸ hlt, h _ _ _ hbusy⟩

theorem NoNewBusy.modInst (s : State) (i : Nat) {f : Inst → Inst} (hf : ∀ I p, (f I).port p = I.port p) :
    NoNewBusy s (s.modInst i f) := by
  refine .of_ports (by simp) fun j p c h => ?_
  rw [s.inst_modInst] at h
  split at h
  next hj => rwa [hf, ← hj.1] at h
  · exact h

theorem NoNewBusy.updPort (s : State) (i : Nat) (p : Port) {f : PortState → PortState} (hf : ∀ q, (f q).busy = q.busy) :
    NoNewBusy s (s.updPort i p f) := by
  refine .of_ports (by simp) fun j q c h => ?_
  rw [port_updPort] at h
  split at h
  next hj => obtain ⟨⟨rfl, -⟩, rfl⟩ := hj; rwa [hf] at h
  · exact h

/-- No port is busy after a hardware reset (R42, R300). -/
theorem busyCmds_hwReset (s : State) : ∀ x, x ∉ s.hwReset.busyCmds := by
  intro x hx
  obtain ⟨hlt, hbusy⟩ := mem_busyCmds.mp hx
  have hport : ((s.hwReset.inst x.1).port x.2.1).busy = none := by
    rw [State.inst_of_lt _ _ hlt]
    simp only [State.hwReset, List.getElem_map]
    cases x.2.1 <;> rfl
  rw [hport] at hbusy
  cases hbusy

/-- The busy commands once a port has accepted a command: it and those before (R69). -/
theorem mem_busyCmds_issue {s : State} {i word : Nat} {p : Port} {c : Instr} {x : Nat × Port × Pending}
    (hx : x ∈ (s.updPort i p fun q => { q with cmd := word, busy := some ⟨c, q.a, q.n, q.k⟩ }).busyCmds) :
    x ∈ s.busyCmds ∨ x.1 = i ∧ x.2.1 = p ∧ x.2.2.instr = c := by
  obtain ⟨hlt, hbusy⟩ := mem_busyCmds.mp hx
  rw [port_updPort] at hbusy
  split at hbusy
  next hx => exact .inr ⟨hx.1.1, hx.2, congrArg Pending.instr (Option.some.inj hbusy).symm⟩
  · exact .inl (mem_busyCmds.mpr ⟨by simpa using hlt, hbusy⟩)

/-! ### The exclusive-access contract -/

theorem State.Exclusive.mono {s t : State} (h : s.Exclusive) (hb : NoNewBusy s t) : t.Exclusive :=
  fun x hx y hy => h x (hb x hx) y (hb y hy)

/-- ISSUE accepts no command that conflicts with a busy one (R69, R71). -/
theorem State.Exclusive.issue {s : State} (h : s.Exclusive) {i word : Nat} {p : Port} {c : Instr}
    (hfree : s.conflicts i p c = false) :
    (s.updPort i p fun q => { q with cmd := word, busy := some ⟨c, q.a, q.n, q.k⟩ }).Exclusive := by
  have hfree := conflicts_eq_false.mp hfree
  intro x hx y hy hne
  obtain hx | ⟨hxi, hxp, hxc⟩ := mem_busyCmds_issue hx <;> obtain hy | ⟨hyi, hyp, hyc⟩ := mem_busyCmds_issue hy
  · exact h x hx y hy hne
  · rw [hyi, hyp, hyc, conflict_comm]
    exact hfree x hx
  · rw [hxi, hxp, hxc]
    exact hfree y hy
  · exact absurd (by rw [hxi, hxp, hyi, hyp]) hne

theorem Inst.wClock_port (c : Config) (I : Inst) (p : Port) : (I.wClock c).port p = I.port p := by
  unfold Inst.wClock
  dsimp only
  split <;> cases p <;> rfl

theorem Inst.rClock_port (c : Config) (I : Inst) (p : Port) : (I.rClock c).port p = I.port p := by
  unfold Inst.rClock
  dsimp only
  split <;> cases p <;> rfl

/-- Every agent's step keeps the contract: ISSUE checks it, and no other step makes a port busy (R69, R71). -/
theorem AgentStep.keeps_exclusive {s t : State} {act : Action} (hstep : AgentStep s act t) (h : s.Exclusive) :
    t.Exclusive := by
  cases hstep with
  | nothing | hostRead | memWrite => exact h
  | regWrite =>
    refine h.mono (.updPort s _ _ fun q => ?_)
    unfold PortState.writeReg
    split <;> rfl
  | illegalWord => exact h.mono (.updPort s _ _ fun _ => rfl)
  | issue _ _ _ _ hfree => exact h.issue hfree
  | complete _ _ hexec =>
    have heffect := exec_stepEffect hexec
    refine h.mono (.of_ports heffect.count fun j p c hb => ?_)
    rw [heffect.busy] at hb
    split at hb
    · cases hb
    · exact hb
  | syncW2R | syncR2W => exact h.mono (.modInst s _ fun _ p => by cases p <;> rfl)
  | wClock => exact h.mono (.modInst s _ (Inst.wClock_port s.cfg))
  | rClock => exact h.mono (.modInst s _ (Inst.rClock_port s.cfg))
  | hwReset => exact fun x hx => absurd hx (busyCmds_hwReset s x)

/-- Settles O56: a step idles, takes an agent's step or records a fault, and each keeps the contract. -/
theorem stepKeepsExclusivity : Obligations.StepKeepsExclusivity := by
  intro s t _ hX h
  obtain rfl | ⟨act, -, hstep | ⟨f, rfl⟩⟩ := step_next h
  · exact hX
  · exact hstep.keeps_exclusive hX
  · refine hX.mono (.of_ports (by rw [State.raise_insts]) fun j p c hb => ?_)
    rwa [inst_eq (State.raise_insts _ f) (State.raise_cfg _ f)] at hb

end Sys2Proof.Machine
end

section
/-! PROOFS. The views and their crossings: conservative views (R84, R85), the Gray code (R76), the synchroniser steps (R80) and
the clock edges that refine them (R78, R79, R81). -/

namespace Sys2Proof.Machine

/-! ### Conservative views -/

/-- The ring order splits the distance between the true cursors at the R view, and the W view's at the read cursor (R84). -/
theorem Inst.RingOrder.dist_split {I : Inst} (h : I.RingOrder) (hc : I.CursorsIn) :
    dist I.size I.r I.wv + dist I.size I.wv I.w = dist I.size I.r I.w ∧
      dist I.size I.rv I.r + dist I.size I.r I.w = dist I.size I.rv I.w := by
  have hsum := h.sum
  obtain ⟨hr, hw, hrv, hwv⟩ := hc
  have hrw : dist I.size I.r I.wv + dist I.size I.wv I.w = dist I.size I.r I.w := by
    rw [dist_eq hrv hr, dist_eq hr hwv, dist_eq hwv hw, dist_eq hrv hw] at hsum
    rw [dist_eq hr hwv, dist_eq hwv hw, dist_eq hr hw]
    split_ifs at hsum ⊢ <;> omega
  exact ⟨hrw, by omega⟩

/-- Settles O22: occupancy is a distance, and each view's distance is a part of, or contains, the true one. -/
theorem viewsAreConservative : Obligations.ViewsAreConservative := by
  intro c I hI hr
  have hc := hI.cursors hr
  obtain ⟨hrw, hrvw⟩ := (hI.ring hr).dist_split hc
  rw [Inst.occ_eq_dist hr hc.r hc.wv, Inst.occ_eq_dist hr hc.r hc.w, Inst.occ_eq_dist hr hc.rv hc.w,
    Inst.free_eq_dist hr hc.rv hc.w, Inst.free_eq_dist hr hc.r hc.w, Inst.free_eq_dist hr hc.r hc.wv]
  omega

/-! ### The Gray code -/

/-- The code of the last count of a width is its top bit (R76). -/
theorem gray_last {n : Nat} (hn : 1 ≤ n) : gray (2 ^ n - 1) = 2 ^ (n - 1) := by
  obtain ⟨m, rfl⟩ := Nat.exists_eq_add_of_le' hn
  exact gray_top m

theorem gray_zero : gray 0 = 0 := rfl

/-- Consecutive codes of a width differ in one bit of it, the wrap among them (R76). -/
theorem gray_step {n b : Nat} (hn : 1 ≤ n) (hb : b < 2 ^ n) :
    ∃ k < n, gray b ^^^ gray ((b + 1) % 2 ^ n) = 2 ^ k := by
  by_cases hwrap : b + 1 < 2 ^ n
  · rw [Nat.mod_eq_of_lt hwrap]
    obtain ⟨k, hk⟩ := gray_succ b
    have hlt : 2 ^ k < 2 ^ n := hk ▸ Nat.xor_lt_two_pow (gray_lt hb) (gray_lt hwrap)
    exact ⟨k, (Nat.pow_lt_pow_iff_right (by decide)).mp hlt, hk⟩
  · obtain rfl : b = 2 ^ n - 1 := by omega
    have hnext : 2 ^ n - 1 + 1 = 2 ^ n := by omega
    rw [hnext, Nat.mod_self, gray_last hn, gray_zero, Nat.xor_zero]
    exact ⟨n - 1, by omega, rfl⟩

/-- The top bit of a decoded code is the code's own; each lower bit is the next one up, flipped where the code's is set (R76). -/
theorem ungray_bits {n : Nat} (hn : 1 ≤ n) (g : Nat) :
    (ungray n g).testBit (n - 1) = g.testBit (n - 1) ∧
      ∀ k, k + 1 < n → (ungray n g).testBit k = ((ungray n g).testBit (k + 1) ^^ g.testBit k) := by
  refine ⟨?_, fun k hk => ?_⟩
  · rw [ungray, ungrayFrom_bits n false g _ (by omega), if_pos (by omega), Bool.false_xor]
  · rw [ungray, ungrayFrom_bits n false g k (by omega), if_neg (by omega)]

/-- Settles O45: each part of R76 is a lemma about the code or its decoding. -/
theorem grayCode : Obligations.GrayCode := fun capW hcap b hb =>
  ⟨rfl, gray_lt hb, ungray_gray hb, gray_step hcap hb, by rw [gray_last hcap, gray_zero, Nat.xor_zero],
    fun g _ => ungray_bits hcap g⟩

/-! ### Synchroniser steps -/

/-- A jump of at most the distance brings a view that much nearer (R80). -/
theorem dist_jump {S v w k : Nat} (hv : v < S) (hw : w < S) (hk : k ≤ dist S v w) :
    dist S ((v + k) % S) w = dist S v w - k := by
  have hlt := dist_lt (a := v) (b := w) (Nat.zero_lt_of_lt hv)
  rw [← wrap_eq_mod (by omega), dist_catchup hv hw hk]

theorem canW2R_iff {c : Config} {I : Inst} {k : Nat} : I.canW2R c k = true ↔
    c.cdc = .async ∧ I.ready = true ∧ I.wv ≠ I.w ∧ 1 ≤ k ∧ k ≤ dist I.size I.wv I.w := decide_eq_true_iff

theorem canR2W_iff {c : Config} {I : Inst} {k : Nat} : I.canR2W c k = true ↔
    c.cdc = .async ∧ I.ready = true ∧ I.rv ≠ I.r ∧ 1 ≤ k ∧ k ≤ dist I.size I.rv I.r := decide_eq_true_iff

/-- A step of one FIFO that is not enabled changes nothing (R14). -/
theorem stepInst_of_not {s : State} {i : Nat} {ok : Inst → Bool} {f : Inst → Inst} (h : ¬ ok (s.inst i) = true) :
    s.stepInst i ok f = .next s := if_neg h

/-- Settles O46: the view jumps, and its crossing closes in to the distance left; the rest is the frame of `stepInst`. -/
theorem synchroniserSteps : Obligations.SynchroniserSteps := by
  intro s i k hI hi
  have hinv := hI.insts _ (s.inst_mem i hi)
  refine ⟨fun hk => ?_, fun hk => ?_, fun hk => ?_, fun hk => ?_⟩
  · obtain ⟨hstep, helse, hmem, hinst⟩ :=
      stepInst_next (ok := fun I => I.canW2R s.cfg k) (f := fun I => I.syncW2R s.cfg k) (canW2R_iff.mpr hk) hi
    obtain ⟨-, hr, -, -, hle⟩ := hk
    have hc := hinv.cursors hr
    have hd := dist_jump hc.wv hc.w hle
    refine ⟨_, hstep, helse, hmem, ?_⟩
    rw [hinst, ← hd]
    exact ⟨⟨rfl, rfl, rfl, rfl, rfl, rfl, rfl, rfl, rfl⟩, fun p => by cases p <;> rfl, rfl, rfl, rfl, rfl, rfl, rfl, rfl⟩
  · obtain ⟨hstep, helse, hmem, hinst⟩ :=
      stepInst_next (ok := fun I => I.canR2W s.cfg k) (f := fun I => I.syncR2W s.cfg k) (canR2W_iff.mpr hk) hi
    obtain ⟨-, hr, -, -, hle⟩ := hk
    have hc := hinv.cursors hr
    have hd := dist_jump hc.rv hc.r hle
    refine ⟨_, hstep, helse, hmem, ?_⟩
    rw [hinst, ← hd]
    exact ⟨⟨rfl, rfl, rfl, rfl, rfl, rfl, rfl, rfl, rfl⟩, fun p => by cases p <;> rfl, rfl, rfl, rfl, rfl, rfl, rfl, rfl⟩
  · exact stepInst_of_not (ok := fun I => I.canW2R s.cfg k) (canW2R_iff.not.mpr hk)
  · exact stepInst_of_not (ok := fun I => I.canR2W s.cfg k) (canR2W_iff.not.mpr hk)

/-! ### Clock edges -/

/-- A sample shifts a chain by one stage and takes the code in at its start (R79). -/
theorem sample_shifts {chain : List Nat} (hne : chain ≠ []) (g : Nat) :
    (sample g chain).length = chain.length ∧ (sample g chain)[0]? = some g ∧
      ∀ k, k + 1 < chain.length → (sample g chain)[k + 1]? = chain[k]? := by
  have hpos := List.length_pos_iff.mpr hne
  refine ⟨by simp [sample], ?_, fun k hk => ?_⟩ <;> rw [sample, List.getElem?_dropLast, if_pos (by simp; omega)]
  · rfl
  · rfl

/-- The last stage of a chain is the one that the view is computed from (R79). -/
theorem getD_last {chain : List Nat} {n : Nat} (h : chain.length = n) : chain.getD (n - 1) 0 = chain.getLastD 0 := by
  rw [List.getLastD_eq_getLast?, List.getLast?_eq_getElem?, List.getD_eq_getElem?_getD, h]

/-- Everything an R-domain clock edge does but to the write view (R78, R79). -/
theorem rClock_frame (c : Config) (I : Inst) :
    SameFifo I (I.rClock c) ∧ (I.rClock c).rv = I.rv ∧ (I.rClock c).wpub = I.wpub ∧ (I.rClock c).rsync = I.rsync ∧
      (I.rClock c).rpub = publish c.capW I.rcnt I.rpub ∧ (I.rClock c).wsync = sample (gray I.wpub) I.wsync := by
  unfold Inst.rClock
  dsimp only
  split <;> exact ⟨⟨rfl, rfl, rfl, rfl, rfl, rfl, rfl, rfl, rfl⟩, rfl, rfl, rfl, rfl, rfl⟩

/-- Everything a W-domain clock edge does but to the read view (R78, R79). -/
theorem wClock_frame (c : Config) (I : Inst) :
    SameFifo I (I.wClock c) ∧ (I.wClock c).wv = I.wv ∧ (I.wClock c).rpub = I.rpub ∧ (I.wClock c).wsync = I.wsync ∧
      (I.wClock c).wpub = publish c.capW I.wcnt I.wpub ∧ (I.wClock c).rsync = sample (gray I.rpub) I.rsync := by
  unfold Inst.wClock
  dsimp only
  split <;> exact ⟨⟨rfl, rfl, rfl, rfl, rfl, rfl, rfl, rfl, rfl⟩, rfl, rfl, rfl, rfl, rfl⟩

/-- The write view after an R-domain clock edge: computed from the chain on a ready FIFO (R79). -/
theorem rClock_wv (c : Config) (I : Inst) :
    (I.rClock c).wv =
      if I.ready then (I.r + behind c.capW (ungray c.capW ((I.rClock c).wsync.getLastD 0)) I.rcnt) % I.size else I.wv := by
  unfold Inst.rClock
  dsimp only
  split <;> rfl

/-- The read view after a W-domain clock edge: computed from the chain on a ready FIFO (R79). -/
theorem wClock_rv (c : Config) (I : Inst) :
    (I.wClock c).rv =
      if I.ready then (I.w + I.size - behind c.capW I.wcnt (ungray c.capW ((I.wClock c).rsync.getLastD 0))) % I.size
      else I.rv := by
  unfold Inst.wClock
  dsimp only
  split <;> rfl

/-- An R-domain clock edge leaves the write view, or moves it as a synchroniser step does (R81). -/
theorem rClock_moves_forward {c : Config} {I : Inst} (h : I.Inv c) (hc : c.wf) (ha : c.cdc = .async)
    (hr : I.ready = true) :
    (I.rClock c).wv = I.wv ∨ ∃ k, 1 ≤ k ∧ k ≤ dist I.size I.wv I.w ∧ (I.rClock c).wv = (I.wv + k) % I.size := by
  have hcur := h.cursors hr
  refine moved_forward hcur.wv ?_ hcur.w (rClock_behind h hc ha hr)
  rw [rClock_wv, if_pos hr]
  exact Nat.mod_lt _ (Inst.size_pos hr)

/-- A W-domain clock edge leaves the read view, or moves it as a synchroniser step does (R81). -/
theorem wClock_moves_forward {c : Config} {I : Inst} (h : I.Inv c) (hc : c.wf) (ha : c.cdc = .async)
    (hr : I.ready = true) :
    (I.wClock c).rv = I.rv ∨ ∃ k, 1 ≤ k ∧ k ≤ dist I.size I.rv I.r ∧ (I.wClock c).rv = (I.rv + k) % I.size := by
  have hcur := h.cursors hr
  refine moved_forward hcur.rv ?_ hcur.r (wClock_behind h hc ha hr)
  rw [wClock_rv, if_pos hr]
  exact Nat.mod_lt _ (Inst.size_pos hr)

/-- Settles O47: the frame of each edge, its view computed from the last stage, and that the view never moves back. -/
theorem clockEdgesRefineSynchronisers : Obligations.ClockEdgesRefineSynchronisers := by
  intro s i hI hi ha I published shifted seen
  have hinv : I.Inv s.cfg := hI.insts _ (s.inst_mem i hi)
  have hwlen := hinv.fits.wsync.2
  have hrlen := hinv.fits.rsync.2
  have hstages := stages_of_wf hI.cfg
  have hshift {chain : List Nat} (hlen : chain.length = s.cfg.syncStages) (g : Nat) : shifted g chain (sample g chain) :=
    sample_shifts (List.length_pos_iff.mp (by omega)) g
  have hseen {chain : List Nat} (hlen : chain.length = s.cfg.syncStages) (g : Nat) :
      seen (sample g chain) = ungray s.cfg.capW ((sample g chain).getLastD 0) :=
    congrArg _ (getD_last ((hshift hlen g).1.trans hlen))
  refine ⟨?_, ?_⟩
  · obtain ⟨hstep, helse, hmem, hinst⟩ :=
      stepInst_next (ok := fun _ => s.cfg.cdc = .async) (f := fun I => I.rClock s.cfg) (decide_eq_true ha) hi
    obtain ⟨hfifo, hrv, hwpub, hrsync, hrpub, hwsync⟩ := rClock_frame s.cfg I
    have hwv := rClock_wv s.cfg I
    refine ⟨_, hstep, helse, hmem, ?_⟩
    rw [hinst]
    refine ⟨hfifo, I.rClock_port s.cfg, hrv, hwpub, hrsync, hrpub, hwsync ▸ hshift hwlen _, fun hr => ?_, fun hr => ⟨?_, ?_⟩⟩
    · rw [hwv, hr]; rfl
    · rw [hwv, if_pos hr, hwsync, hseen hwlen]; rfl
    · exact rClock_moves_forward hinv hI.cfg ha hr
  · obtain ⟨hstep, helse, hmem, hinst⟩ :=
      stepInst_next (ok := fun _ => s.cfg.cdc = .async) (f := fun I => I.wClock s.cfg) (decide_eq_true ha) hi
    obtain ⟨hfifo, hwv, hrpub, hwsync, hwpub, hrsync⟩ := wClock_frame s.cfg I
    have hrv := wClock_rv s.cfg I
    refine ⟨_, hstep, helse, hmem, ?_⟩
    rw [hinst]
    refine ⟨hfifo, I.wClock_port s.cfg, hwv, hrpub, hwsync, hwpub, hrsync ▸ hshift hrlen _, fun hr => ?_, fun hr => ⟨?_, ?_⟩⟩
    · rw [hrv, hr]; rfl
    · rw [hrv, if_pos hr, hrsync, hseen hrlen]; rfl
    · exact wClock_moves_forward hinv hI.cfg ha hr

end Sys2Proof.Machine
end

section
/-! PROOFS. Host accesses to bytes: when one is a race (R86 to R88), and that the linear windows have none (R206). -/

namespace Sys2Proof.Machine

/-! ### Slots and storages -/

/-- `Free(J)`: the slots from `w` on, but for the reserved one (R87). -/
theorem slotFree_iff {J : Inst} (hc : J.CursorsIn) {slot : Nat} (hs : slot < J.size) : J.slotFree slot = true ↔
    ∃ k < J.size - 1 - dist J.size J.r J.w, slot = (J.w + k) % J.size := by
  rw [Inst.slotFree, decide_eq_true_eq, ring_mem hc.w hs (by omega)]

/-- `Occ(J)`: the slots from `r` up to `w` (R87). -/
theorem slotOcc_iff {J : Inst} (hc : J.CursorsIn) {slot : Nat} (hs : slot < J.size) : J.slotOcc slot = true ↔
    ∃ k < dist J.size J.r J.w, slot = (J.r + k) % J.size := by
  have hle := (dist_lt (a := J.r) (b := J.w) (Nat.zero_lt_of_lt hs)).le
  rw [Inst.slotOcc, decide_eq_true_eq, ring_mem hc.r hs hle]

/-- A test of a storage byte is a test of its slot. -/
theorem inStorage_and_iff {J : Inst} {a : Nat} {test : Nat → Bool} : (J.inStorage a && test (a - J.base)) = true ↔
    J.ready = true ∧ ∃ slot < J.size, a = J.base + slot ∧ test slot = true := by
  rw [Bool.and_eq_true, inStorage_iff]
  constructor
  · rintro ⟨⟨hr, slot, hs, rfl⟩, ht⟩
    rw [Nat.add_sub_cancel_left] at ht
    exact ⟨hr, slot, hs, rfl, ht⟩
  · rintro ⟨hr, slot, hs, rfl, ht⟩
    rw [Nat.add_sub_cancel_left]
    exact ⟨⟨hr, slot, hs, rfl⟩, ht⟩

/-- A race on a storage byte, by FIFO and slot, with the slots that `test` finds live. -/
theorem any_liveSlot_iff {s : State} {a : Nat} {test : Nat → Nat → Bool} :
    ((List.range s.insts.length).any fun j => (s.inst j).inStorage a && test j (a - (s.inst j).base)) = true ↔
      ∃ j < s.insts.length, (s.inst j).ready = true ∧ ∃ slot < (s.inst j).size,
        a = (s.inst j).base + slot ∧ test j slot = true := by
  simp only [List.any_eq_true, List.mem_range]
  exact exists_congr fun j => and_congr_right fun _ => inStorage_and_iff

/-! ### The contracts -/

section
variable {s : State} (hI : s.Inv) (a : Nat)
include hI

/-- When a host write is a race, in the words of R87. -/
theorem writeRace_iff : s.writeRace a = true ↔
    (∃ i < s.insts.length, ∃ p c, ((s.inst i).port p).busy = some c ∧
      c.instr ∈ [Instr.write, .writeExact, .read, .readExact, .peek, .overwrite, .find] ∧ c.a ≤ a ∧ a < c.a + c.n) ∨
    ∃ j < s.insts.length, (s.inst j).ready = true ∧ ∃ slot < (s.inst j).size, a = (s.inst j).base + slot ∧
      (((s.inst j).xport.busy ≠ none ∨ ∃ k < s.insts.length, ∃ c, (s.inst k).xport.busy = some c ∧ c.instr = .move j) ∨
        (s.inst j).wport.busy ≠ none ∨ ¬ ∃ k < (s.inst j).size - 1 - dist (s.inst j).size (s.inst j).r (s.inst j).w,
          slot = ((s.inst j).w + k) % (s.inst j).size) := by
  unfold State.writeRace
  rw [Bool.or_eq_true, inBusyBuffer_iff]
  simp only [buffersWritten_iff]
  refine or_congr_right ((any_liveSlot_iff (test := fun j slot =>
    s.xBusy j || (s.inst j).wport.busy.isSome || !(s.inst j).slotFree slot)).trans ?_)
  refine exists_congr fun j => and_congr_right fun hj => and_congr_right fun hr =>
    exists_congr fun slot => and_congr_right fun hs => and_congr_right fun _ => ?_
  have hc := (hI.insts _ (s.inst_mem j hj)).cursors hr
  rw [Bool.or_eq_true, Bool.or_eq_true, or_assoc, xBusy_iff hj, Option.isSome_iff_ne_none, Bool.not_eq_true',
    ← Bool.not_eq_true, slotFree_iff hc hs]

/-- When a host read is a race, in the words of R88. -/
theorem readRace_iff : s.readRace a = true ↔
    (∃ i < s.insts.length, ∃ p c, ((s.inst i).port p).busy = some c ∧
      c.instr ∈ [Instr.read, .readExact, .peek] ∧ c.a ≤ a ∧ a < c.a + c.n) ∨
    ∃ j < s.insts.length, (s.inst j).ready = true ∧ ∃ slot < (s.inst j).size, a = (s.inst j).base + slot ∧
      (((s.inst j).xport.busy ≠ none ∨ ∃ k < s.insts.length, ∃ c, (s.inst k).xport.busy = some c ∧ c.instr = .move j) ∨
        ((s.inst j).wport.busy ≠ none ∧ ¬ ∃ k < dist (s.inst j).size (s.inst j).r (s.inst j).w,
          slot = ((s.inst j).r + k) % (s.inst j).size)) := by
  unfold State.readRace
  rw [Bool.or_eq_true, inBusyBuffer_iff]
  simp only [buffersRead_iff]
  refine or_congr_right ((any_liveSlot_iff (test := fun j slot =>
    s.xBusy j || (!(s.inst j).slotOcc slot && (s.inst j).wport.busy.isSome))).trans ?_)
  refine exists_congr fun j => and_congr_right fun hj => and_congr_right fun hr =>
    exists_congr fun slot => and_congr_right fun hs => and_congr_right fun _ => ?_
  have hc := (hI.insts _ (s.inst_mem j hj)).cursors hr
  rw [Bool.or_eq_true, Bool.and_eq_true, xBusy_iff hj, Option.isSome_iff_ne_none, Bool.not_eq_true',
    ← Bool.not_eq_true, slotOcc_iff hc hs, and_comm (a := ¬ _)]

end

/-- A host write of a byte of the address space (R86, R87). -/
theorem perform_memWrite {s : State} {a : Nat} (ha : a < 2 ^ s.cfg.regW) (b : Byte) : s.perform (.memWrite a b) =
    if s.writeRace a then .fault (.hostRace a .write) else .next { s with mem := s.mem.write a b } :=
  if_neg (not_le.mpr ha)

/-- A host read of a byte of the address space (R86, R88). -/
theorem perform_memRead {s : State} {a : Nat} (ha : a < 2 ^ s.cfg.regW) : s.perform (.memRead a) =
    if s.readRace a then .fault (.hostRace a .read) else .next { s with rdata := some (s.mem.read a).toNat } :=
  if_neg (not_le.mpr ha)

/-- Settles O48: the race test is the condition of R87, and a write that is no race is a write of memory. -/
theorem hostWriteContract : Obligations.HostWriteContract := by
  intro s a b hI ha busyBuffer xBusy liveSlot
  have hrace : s.writeRace a = true ↔ busyBuffer ∨ liveSlot := writeRace_iff hI a
  rw [perform_memWrite ha, ← hrace]
  exact ⟨fun h => if_pos h, fun h => ⟨_, if_neg h, rfl, Memory.read_write hI.memory.wf a b⟩⟩

/-- Settles O49: the race test is the condition of R88. -/
theorem hostReadContract : Obligations.HostReadContract := by
  intro s a hI ha busyBuffer xBusy liveSlot
  have hrace : s.readRace a = true ↔ busyBuffer ∨ liveSlot := readRace_iff hI a
  rw [perform_memRead ha, ← hrace]
  exact ⟨fun h => if_pos h, fun h => if_neg h⟩

/-! ### The linear windows -/

/-- A slot counted from a position without reaching the end of storage is at that distance. -/
theorem dist_add {S a k : Nat} (h : a + k < S) : dist S a (a + k) = k := by
  rw [dist_eq (by omega) h, if_pos (by omega), Nat.add_sub_cancel_left]

/-- The linear write window of the W view lies in the storage and holds free slots only (R84, R206, R207). -/
theorem slotFree_of_window {c : Config} {J : Inst} (hJ : J.Inv c) (hr : J.ready = true) {k : Nat}
    (hk : k < J.linWLen J.rv J.w) : J.w + k < J.size ∧ J.slotFree (J.w + k) = true := by
  have hc := hJ.cursors hr
  obtain ⟨-, hfree, -, hend⟩ := window_facts J J.rv J.w hr hc.rv hc.w
  obtain ⟨-, hview, -, -⟩ := viewsAreConservative c J hJ hr
  have htrue := Inst.free_eq_dist hr hc.r hc.w
  have hin : J.w + k < J.size := by omega
  refine ⟨hin, decide_eq_true ?_⟩
  rw [dist_add hin]
  omega

/-- The linear read window of the R view lies in the storage and holds occupied slots only (R84, R206, R207). -/
theorem slotOcc_of_window {c : Config} {J : Inst} (hJ : J.Inv c) (hr : J.ready = true) {k : Nat}
    (hk : k < J.linRLen J.r J.wv) : J.r + k < J.size ∧ J.slotOcc (J.r + k) = true := by
  have hc := hJ.cursors hr
  obtain ⟨hocc, -, hend, -⟩ := window_facts J J.r J.wv hr hc.r hc.wv
  obtain ⟨hview, -, -, -⟩ := viewsAreConservative c J hJ hr
  have htrue := Inst.occ_eq_dist hr hc.r hc.w
  have hin : J.r + k < J.size := by omega
  refine ⟨hin, decide_eq_true ?_⟩
  rw [dist_add hin]
  omega

/-- A slot of `J` is a storage byte of no FIFO whose storage is clear of `J`'s. -/
theorem not_inStorage_of_disjoint {I J : Inst} {slot : Nat} (hs : slot < J.size)
    (h : I.ready = true → I.base + I.size ≤ J.base ∨ J.base + J.size ≤ I.base) : I.inStorage (J.base + slot) = false := by
  refine decide_eq_false fun ⟨hr, hlo, hhi⟩ => ?_
  have := h hr
  omega

/-- Settles O50: a byte of a window is a storage byte of its own FIFO only, and its slot is free, or occupied. -/
theorem zeroCopyWindowsAreSafe : Obligations.ZeroCopyWindowsAreSafe := by
  intro s j k b hI hj hr hx hdis
  have hJ := hI.insts _ (s.inst_mem j hj)
  have hstorage := hJ.fits.storage
  have hother {i slot : Nat} (hi : i < s.insts.length) (hij : i ≠ j) (hs : slot < (s.inst j).size) :
      (s.inst i).inStorage ((s.inst j).base + slot) = false := not_inStorage_of_disjoint hs (hdis i hi hij)
  refine ⟨fun hw hk hbuf => ?_, fun hk hbuf => ?_⟩
  · obtain ⟨hin, hfree⟩ := slotFree_of_window hJ hr hk
    rw [Nat.add_assoc] at hbuf ⊢
    have hrace : s.writeRace ((s.inst j).base + ((s.inst j).w + k)) = false := by
      simp only [State.writeRace, hbuf, Bool.false_or, List.any_eq_false, List.mem_range]
      intro i hi
      by_cases hij : i = j
      · subst hij
        simp [hx, hw, hfree]
      · simp [hother hi hij hin]
    exact ⟨_, by rw [perform_memWrite (by omega), hrace]; rfl⟩
  · obtain ⟨hin, hocc⟩ := slotOcc_of_window hJ hr hk
    rw [Nat.add_assoc] at hbuf ⊢
    have hrace : s.readRace ((s.inst j).base + ((s.inst j).r + k)) = false := by
      simp only [State.readRace, hbuf, Bool.false_or, List.any_eq_false, List.mem_range]
      intro i hi
      by_cases hij : i = j
      · subst hij
        simp [hx, hocc]
      · simp [hother hi hij hin]
    exact ⟨_, by rw [perform_memRead (by omega), hrace]; rfl⟩

end Sys2Proof.Machine
end

section
/-! PROOFS. The step of the machine: a COMPLETE step runs the decoded command (R72, R73), no step is refused (R93, R270), and the
controller alone comes to rest (R315). -/

namespace Sys2Proof.Machine

/-! ### When a port completes -/

/-- A FIFO with a view that trails is not synchronised, and conversely (R73). -/
theorem not_synced_iff {J : Inst} : ¬ J.synced = true ↔ J.ready = true ∧ (J.rv ≠ J.r ∨ J.wv ≠ J.w) := by
  simp only [Inst.synced, decide_eq_true_eq]
  rw [not_or, Bool.not_eq_false, not_and_or]

/-- W and R hold no command, X one that involves a FIFO not synchronised (R72, R73). -/
theorem unheld_iff {s : State} {i : Nat} {p : Port} {c : Instr} :
    s.unheld i p c = true ↔ (p = .x → ∀ j ∈ involved c i, (s.inst j).synced = true) := by
  cases p with
  | x => simp [State.unheld]
  | w | r => simp [State.unheld]

section
variable {s : State} {i : Nat} {p : Port}

/-- The COMPLETE step of a busy port that is not held runs its command (R72, R73). -/
theorem completeStep_of_unheld {c : Pending} (hbusy : ((s.inst i).port p).busy = some c)
    (h : s.unheld i p c.instr = true) : s.completeStep i p = exec c.instr { s with site := ⟨i, p⟩ } := by
  rw [State.completeStep, completable_eq_some.mpr ⟨c, hbusy, h, rfl⟩]

/-- A port that is held cannot complete (R73). -/
theorem completable_of_held {c : Pending} (hbusy : ((s.inst i).port p).busy = some c)
    (h : ¬ s.unheld i p c.instr = true) : s.completable i p = none := by
  simp only [State.completable, hbusy]
  exact if_neg h

/-- An idle port cannot complete (R72, R73). -/
theorem completable_of_idle (hidle : ((s.inst i).port p).busy = none) : s.completable i p = none := by
  simp only [State.completable, hidle]

/-- The COMPLETE step of a port that cannot complete changes nothing (R14). -/
theorem completeStep_of_not (h : s.completable i p = none) : s.completeStep i p = .next s := by
  rw [State.completeStep, h]

end

/-- The port of an own COMPLETE step can complete (R93). -/
theorem completable_of_ownAction {s : State} {i : Nat} {p : Port} (h : s.ownAction = some (.complete i p)) :
    (s.completable i p).isSome = true := by
  obtain ⟨j, -, hj⟩ := List.exists_of_findSome?_eq_some h
  simp only [State.ownActionOf] at hj
  split_ifs at hj with hw hr hx <;> cases hj <;> assumption

/-! ### The scheduled COMPLETE step -/

/-- A scheduled step of a run without a fault. -/
theorem step_scheduled {s : State} {act : Action} {rest : List Action} (hf : s.faults = []) (hs : s.sched = act :: rest) :
    step s = State.record { s with sched := rest } act := by
  rw [step_eq_record (act := act) hf (by simp only [State.nextAction, hs]), hs, List.tail_cons]

/-- A scheduled COMPLETE step that the port cannot take changes nothing but the schedule (R14). -/
theorem step_of_not_completable {s : State} {i : Nat} {p : Port} {rest : List Action} (hf : s.faults = [])
    (hs : s.sched = .complete i p :: rest) (h : s.completable i p = none) : step s = .next { s with sched := rest } := by
  have hstep : State.completeStep { s with sched := rest } i p = .next { s with sched := rest } := completeStep_of_not h
  rw [step_scheduled hf hs, State.record, State.perform, hstep]

/-- A scheduled COMPLETE step of a busy port that is not held runs its command, and records the fault it raises (R72, R73). -/
theorem step_of_unheld {s : State} {i : Nat} {p : Port} {rest : List Action} {c : Pending} (hf : s.faults = [])
    (hs : s.sched = .complete i p :: rest) (hbusy : ((s.inst i).port p).busy = some c)
    (h : s.unheld i p c.instr = true) :
    step s = match exec c.instr { s with sched := rest, site := ⟨i, p⟩ } with
      | .fault f => .next { s with sched := rest, faults := [f] }
      | o => o := by
  have hstep : State.completeStep { s with sched := rest } i p = exec c.instr { s with sched := rest, site := ⟨i, p⟩ } :=
    completeStep_of_unheld (s := { s with sched := rest }) hbusy h
  have hraise (f : Fault) : State.raise { s with sched := rest } f = { s with sched := rest, faults := [f] } :=
    State.raise_of_faults_nil (s := { s with sched := rest }) hf f
  rw [step_scheduled hf hs, State.record, State.perform, hstep]
  cases exec c.instr { s with sched := rest, site := ⟨i, p⟩ } with
  | fault f => exact congrArg _ (hraise f)
  | next | refused => rfl

/-! ### A fetched command word -/

/-- The port of a FIFO after the resync of an X-port COMPLETE. -/
theorem port_foldl_resync (js : List Nat) (s : State) (i : Nat) (p : Port) :
    ((js.foldl (fun t j => t.modInst j Inst.resync) s).inst i).port p = (s.inst i).port p := by
  rw [State.foldl_resync_inst]
  split
  exacts [Inst.resync_port _ p, rfl]

/-- A FIFO that the controller does not have counts as synchronised. -/
theorem synced_of_ge {s : State} {j : Nat} (h : s.insts.length ≤ j) : (s.inst j).synced = true := by
  rw [s.inst_ge j h]
  rfl

/-- The FIFOs that a resync involves are synchronised (R73, R82). -/
theorem synced_foldl_resync {js : List Nat} {j : Nat} (s : State) (hj : j ∈ js) :
    ((js.foldl (fun t j => t.modInst j Inst.resync) s).inst j).synced = true := by
  by_cases hlt : j < s.insts.length
  · rw [State.foldl_resync_inst, if_pos ⟨hj, hlt⟩]
    exact synced_resync _
  · exact synced_of_ge (by simpa using hlt)

/-- A word that decodes stands in the X port of FIFO 0, synchronised, with its COMPLETE step next (assumption log 6). -/
theorem withFetchWord_of_ok {s : State} {nbits w : Nat} {i : Instr} (hn : s.insts ≠ [])
    (hd : decode s.cfg.numInst .x (w % 2 ^ nbits) = .ok i) :
    (s.withFetchWord nbits w).sched = .complete 0 .x :: s.sched ∧ (s.withFetchWord nbits w).faults = s.faults ∧
    (((s.withFetchWord nbits w).inst 0).port .x).busy =
      some ⟨i, ((s.inst 0).port .x).a, ((s.inst 0).port .x).n, ((s.inst 0).port .x).k⟩ ∧
    (s.withFetchWord nbits w).unheld 0 .x i = true := by
  have hpos : 0 < s.insts.length := List.length_pos_iff.mpr hn
  simp only [State.withFetchWord, hd, inst_setSched]
  refine ⟨trivial, by simp, ?_, unheld_iff.mpr fun _ j hj => synced_foldl_resync _ hj⟩
  rw [port_foldl_resync, port_updPort, if_pos ⟨⟨rfl, hpos⟩, rfl⟩]

/-- Settles O53: on a port that completes the step is `exec`, on any other it is nothing, and a fetched command completes. -/
theorem stepRunsTheDecodedCommand : Obligations.StepRunsTheDecodedCommand := by
  unfold Obligations.StepRunsTheDecodedCommand
  intro lags
  have hlags (J : Inst) : lags J ↔ ¬ J.synced = true := not_synced_iff.symm
  refine ⟨fun s i p rest c hf hs hbusy hready => ?_, fun s i c j hbusy hj hlag => ?_, fun s i p rest hf hs hidle => ?_,
    fun s nbits w i hf hn hd => ?_⟩
  · have hunheld : s.unheld i p c.instr = true :=
      unheld_iff.mpr fun hx j hj => not_not.mp ((hlags _).not.mp (hready hx j hj))
    exact step_of_unheld hf hs hbusy hunheld
  · have hheld : ¬ s.unheld i .x c.instr = true := fun h => (hlags _).mp hlag (unheld_iff.mp h rfl j hj)
    have hnone := completable_of_held hbusy hheld
    refine ⟨fun rest hf hs => step_of_not_completable hf hs hnone, fun hs hnext => ?_⟩
    have hown : s.ownAction = some (.complete i .x) := by rwa [State.nextAction, hs] at hnext
    have hsome := completable_of_ownAction hown
    rw [hnone] at hsome
    cases hsome
  · exact step_of_not_completable hf hs (completable_of_idle hidle)
  · obtain ⟨hsched, hfaults, hbusy, hunheld⟩ := withFetchWord_of_ok (nbits := nbits) hn hd
    exact ⟨hsched, hbusy, step_of_unheld (hfaults.trans hf) hsched hbusy hunheld⟩

/-! ### No step is refused -/

theorem issue_not_refused (s : State) (i : Nat) (p : Port) (word : Nat) (r : Refusal) : s.issue i p word ≠ .refused r := by
  unfold State.issue
  dsimp only
  split
  · nofun
  · split
    · nofun
    · split <;> nofun

theorem hostRegWrite_not_refused (s : State) (addr width value : Nat) (r : Refusal) :
    s.hostRegWrite addr width value ≠ .refused r := by
  unfold State.hostRegWrite
  split
  · nofun
  · nofun
  · dsimp only
    split
    · nofun
    · split
      · exact issue_not_refused s _ _ _ r
      · nofun

theorem stepInst_not_refused (s : State) (i : Nat) (ok : Inst → Bool) (f : Inst → Inst) (r : Refusal) :
    s.stepInst i ok f ≠ .refused r := by
  unfold State.stepInst
  split <;> nofun

/-- A COMPLETE step is taken only for a command that may run (R69, R72, R73). -/
theorem completeStep_not_refused {s : State} (hI : s.Inv) (i : Nat) (p : Port) (r : Refusal) :
    s.completeStep i p ≠ .refused r := by
  unfold State.completeStep
  split
  · nofun
  next c hc =>
    obtain ⟨b, hbusy, -, rfl⟩ := completable_eq_some.mp hc
    exact exec_not_refused (armed_of hI hbusy) r

/-- No agent's step is refused (R68). -/
theorem perform_not_refused {s : State} (hI : s.Inv) (act : Action) (r : Refusal) : s.perform act ≠ .refused r := by
  cases act <;> simp only [State.perform]
  case regWrite => exact hostRegWrite_not_refused s _ _ _ r
  case regRead => unfold State.hostRegRead; split <;> nofun
  case memWrite => unfold State.hostMemWrite; split_ifs <;> nofun
  case memRead => unfold State.hostMemRead; split_ifs <;> nofun
  case complete => exact completeStep_not_refused hI _ _ r
  case hwReset => nofun
  all_goals exact stepInst_not_refused s _ _ _ r

/-- A recorded step has a next state: the agent's, or the one that records its fault (R14, R93). -/
theorem State.record_has_next {s : State} (hI : s.Inv) (act : Action) : ∃ t, s.record act = .next t := by
  unfold State.record
  split
  · exact ⟨_, rfl⟩
  next o hfault =>
    cases ho : s.perform act with
    | next t => exact ⟨t, rfl⟩
    | fault f => exact absurd ho (hfault f)
    | refused r => exact absurd ho (perform_not_refused hI act r)

/-- A run without a fault has a next state (R93). -/
theorem step_has_next {s : State} (hI : s.Inv) (hf : s.faults = []) : ∃ t, step s = .next t := by
  cases ha : s.nextAction with
  | none => exact ⟨s, step_idle hf ha⟩
  | some act =>
    rw [step_eq_record hf ha]
    exact State.record_has_next (inv_sched hI _) act

/-- Settles O57: a run without a fault has a next state, and a faulted one steps to a reset or answers its fault. -/
theorem stepsNeverGetStuck : Obligations.StepsNeverGetStuck := by
  refine fun s hI => ⟨fun r hr => ?_, step_has_next hI⟩
  by_cases hf : s.faults = []
  · obtain ⟨t, ht⟩ := step_has_next hI hf
    cases hr.symm.trans ht
  · obtain ⟨g, gs, hg⟩ := List.exists_cons_of_ne_nil hf
    by_cases hs : ∃ rest, s.sched = .hwReset :: rest
    · obtain ⟨rest, hrest⟩ := hs
      cases hr.symm.trans (step_faulted_hwReset hf hrest)
    · cases hr.symm.trans (step_faulted_stops hg (not_exists.mp hs))

/-! ### The controller alone comes to rest -/

/-- A busy port is work to do. -/
theorem work_pos_of_busy {s : State} {i : Nat} {p : Port} {c : Pending} (hi : i < s.insts.length)
    (hbusy : ((s.inst i).port p).busy = some c) : 0 < work s := by
  have hone : 0 < busyPorts (s.inst i) := by
    unfold busyPorts
    cases p <;> simp only [Inst.port] at hbusy <;> simp [hbusy]
  have hle : busyPorts (s.inst i) ≤ totalBusy s :=
    Finset.single_le_sum (f := fun j => busyPorts (s.inst j)) (fun _ _ => Nat.zero_le _) (Finset.mem_range.mpr hi)
  have hprod : 0 < totalBusy s * (2 * s.insts.length + 1) := Nat.mul_pos (by omega) (by omega)
  unfold work
  omega

/-- A synchroniser's step raises no fault. -/
theorem stepInst_not_fault (s : State) (i : Nat) (ok : Inst → Bool) (f : Inst → Inst) (e : Fault) :
    s.stepInst i ok f ≠ .fault e := by
  unfold State.stepInst
  split <;> nofun

/-- The own step that raises a fault is the COMPLETE step of a busy port, so there is work to do. -/
theorem work_pos_of_own_fault {s : State} {act : Action} {f : Fault} (h : s.ownAction = some act)
    (hf : s.perform act = .fault f) : 0 < work s := by
  obtain ⟨i, hi, hown⟩ := List.exists_of_findSome?_eq_some h
  have hlt : i < s.insts.length := List.mem_range.mp hi
  have hcomplete {p : Port} (hc : (s.completable i p).isSome = true) : 0 < work s := by
    obtain ⟨c, hc⟩ := Option.isSome_iff_exists.mp hc
    obtain ⟨b, hbusy, -, -⟩ := completable_eq_some.mp hc
    exact work_pos_of_busy hlt hbusy
  simp only [State.ownActionOf] at hown
  split_ifs at hown with hw hr hx
  · exact hcomplete hw
  · exact hcomplete hr
  · exact hcomplete hx
  all_goals
    cases hown
    rw [State.perform] at hf
    exact absurd hf (stepInst_not_fault s _ _ _ f)

/-- The controller's own step, when no agent is scheduled (R93). -/
theorem step_own {s : State} {act : Action} (hf : s.faults = []) (hs : s.sched = []) (ha : s.ownAction = some act) :
    step s = s.record act := by
  simp only [step, hf, hs, ha]

/-- A run takes its first step and goes on from there. -/
theorem run_succ {s t : State} (h : step s = .next t) (k : Nat) :
    Host.Core.run Sys2Proof.core (k + 1) s = Host.Core.run Sys2Proof.core k t := by
  have hcore : Sys2Proof.core.step s = .next t := h
  simp only [Host.Core.run, hcore]

/-- With no agent scheduled, the controller is at rest after as many steps as it has work to do, or has recorded a fault: each
own step lowers the work. -/
theorem run_quiesces {s : State} (hI : s.Inv) (hf : s.faults = []) (hs : s.sched = []) :
    ∃ k ≤ work s, ∃ t, Host.Core.run Sys2Proof.core k s = .next t ∧ (t.Quiescent ∨ t.Faulted) := by
  induction hw : work s using Nat.strong_induction_on generalizing s with
  | _ n ih =>
    subst hw
    cases ha : s.ownAction with
    | none => exact ⟨0, Nat.zero_le _, s, rfl, .inl (quiescent_of_no_own_action hI ha)⟩
    | some act =>
      cases hp : s.perform act with
      | next t =>
        have hstep : step s = .next t := by rw [step_own hf hs ha, State.record, hp]
        obtain ⟨hfaults, hsched, hlower, -⟩ := own_step_lowers_work hI ha hp
        obtain ⟨k, hk, u, hrun, hu⟩ :=
          ih _ hlower (stepKeepsTheMachineInvariant s t hI hstep) (hfaults.trans hf) (hsched.trans hs) rfl
        exact ⟨k + 1, by omega, u, (run_succ hstep k).trans hrun, hu⟩
      | fault f =>
        have hstep : step s = .next (s.raise f) := by rw [step_own hf hs ha, State.record_of_perform_fault hp]
        have hfaulted : (s.raise f).Faulted := List.ne_nil_of_mem ((s.mem_faults_raise f f).mpr (.inr rfl))
        exact ⟨1, work_pos_of_own_fault ha hp, _, run_succ hstep 0, .inr hfaulted⟩
      | refused r => exact absurd hp (perform_not_refused hI act r)

/-- Settles O58: each own step lowers the work, which is at most the bound. -/
theorem hostsStoppedMeansQuiescent : Obligations.HostsStoppedMeansQuiescent := by
  intro s hI hf hs
  obtain ⟨k, hk, hrun⟩ := run_quiesces hI hf hs
  refine ⟨k, hk.trans ?_, hrun⟩
  have hbusy := Nat.mul_le_mul_right (2 * s.insts.length + 1) (totalBusy_le s)
  have htrailing := totalTrailing_le s
  unfold work
  omega

end Sys2Proof.Machine
end

section
/-! PROOFS. The faults of copying commands and of `MOVE` (R64, R65, R278), and a `WRITE` read back (R177). -/

namespace Sys2Proof.Machine

/-! ### The check of a copying command -/

section
variable {s : State} {a m res slot : Nat} {f : Fault}

theorem copyIn_of_fault (h : s.copyFault a m (s.here.runs s.view.2 m) = some f) : s.copyIn a m res = .error f := by
  simp only [State.copyIn, h]

theorem copyOut_of_fault (h : s.copyFault a m (s.here.runs slot m) = some f) : s.copyOut slot a m res = .error f := by
  simp only [State.copyOut, h]

theorem consume_of_fault (h : s.copyFault a m (s.here.runs s.view.1 m) = some f) : s.consume a m res = .error f := by
  simp only [State.consume, copyOut_of_fault h]

/-- A copy into storage that raises no fault: the bytes, the commit, the answer (R172, R173). -/
theorem copyIn_ok {u : State} {code : Code} (h : s.copyIn a m res = .ok (u, code)) :
    u = (State.commitW { s with mem := s.here.storageWrite s.mem s.view.2 (s.mem.readBytes a m) }
      s.site.inst s.view.2 m).setRes0 res ∧ code = .done := by
  unfold State.copyIn at h
  dsimp only at h
  split at h <;> cases h
  exact ⟨rfl, rfl⟩

/-- A copy out of storage that raises no fault: the bytes and the answer (R174 to R176). -/
theorem copyOut_ok {u : State} {code : Code} (h : s.copyOut slot a m res = .ok (u, code)) :
    u = State.setRes0 { s with mem := s.mem.writeBytes a (s.here.storageRead s.mem slot m) } res ∧ code = .done := by
  unfold State.copyOut at h
  dsimp only at h
  split at h <;> cases h
  exact ⟨rfl, rfl⟩

/-- The copy of the bytes read that raises no fault, with their commit (R174, R175). -/
theorem consume_ok {u : State} {code : Code} (h : s.consume a m res = .ok (u, code)) :
    u = (State.setRes0 { s with mem := s.mem.writeBytes a (s.here.storageRead s.mem s.view.1 m) } res).commitR
      s.site.inst s.view.1 m ∧ code = .done := by
  unfold State.consume at h
  split at h
  · cases h
  next hcopy =>
    obtain ⟨rfl, rfl⟩ := copyOut_ok hcopy
    cases h
    exact ⟨rfl, rfl⟩

end

/-- A command past its sentinel tests goes on to its rule (R274). -/
theorem if_sentinel {s : State} {i : Instr} {c : Pending} (h : Copying s i c) {α : Type} (x y : α) :
    (if s.sentinel c then x else y) = y :=
  if_neg (by rw [sentinel_false h]; decide)

/-- A copying command that is to move a byte raises the fault of its plan's check (R64, R65). -/
theorem exec_of_copyFault {s : State} {i : Instr} {c : Pending} {f : Fault} (h : Copying s i c)
    (hlen : (copyPlan s i c).len ≠ 0)
    (hf : s.copyFault (copyPlan s i c).addr (copyPlan s i c).len (planRuns s i c) = some f) : exec i s = .fault f := by
  have hkind := h.kind
  simp only [List.mem_cons, List.not_mem_nil, or_false] at hkind
  obtain rfl | rfl | rfl | rfl | rfl | rfl | rfl := hkind
  · -- `WRITE`
    exact h.armed.fault ((if_sentinel h _ _).trans ((if_neg hlen).trans (copyIn_of_fault hf)))
  · -- `WRITE_EXACT`
    have hroom : ¬ s.here.free s.view.1 s.view.2 < c.n := fun hlt => hlen (by simp only [copyPlan, hlt, if_true])
    simp only [planRuns, copyPlan, hroom, if_false] at hf
    exact h.armed.fault ((if_sentinel h _ _).trans ((if_neg hroom).trans (copyIn_of_fault hf)))
  · -- `READ`
    exact h.armed.fault ((if_sentinel h _ _).trans ((if_neg hlen).trans (consume_of_fault hf)))
  · -- `READ_EXACT`
    have hbytes : ¬ s.here.occ s.view.1 s.view.2 < c.n := fun hlt => hlen (by simp only [copyPlan, hlt, if_true])
    simp only [planRuns, copyPlan, hbytes, if_false] at hf
    exact h.armed.fault ((if_sentinel h _ _).trans ((if_neg hbytes).trans (consume_of_fault hf)))
  · -- `PEEK`
    have hbytes : ¬ s.here.occ s.view.1 s.view.2 ≤ c.k := fun hle => hlen (by simp only [copyPlan, hle, if_true])
    simp only [planRuns, copyPlan, hbytes, if_false] at hf
    exact h.armed.fault ((if_sentinel h _ _).trans ((if_neg hbytes).trans (copyOut_of_fault hf)))
  · -- `OVERWRITE`
    by_cases hcap : s.here.size - 1 < c.n
    · simp only [planRuns, copyPlan, hcap, if_true] at hf
      refine h.armed.fault ((if_sentinel h _ _).trans ((if_pos hcap).trans ?_))
      simp only [State.overwriteAll, hf]
    · simp only [planRuns, copyPlan, hcap, if_false] at hf
      refine h.armed.fault ((if_sentinel h _ _).trans ((if_neg hcap).trans ?_))
      simp only [State.overwriteSome, hf]
  · -- `FIND`
    have hview : s.view = (s.here.r, s.here.w) := by simp only [State.view, armed_x h.armed rfl, Inst.view]
    have hbytes : ¬ s.here.occ s.here.r s.here.w < c.n + c.k := fun hlt =>
      hlen (by simp only [copyPlan, hview, hlt, if_true])
    simp only [planRuns, copyPlan, hview, hbytes, if_false] at hf
    refine h.armed.fault ((if_sentinel h _ _).trans ((if_neg hbytes).trans ?_))
    simp only [hf]

/-! ### Which fault -/

/-- An access that is not admitted is `F_BUS`, whatever the operand range meets (R64, R278). -/
theorem copyFault_of_not_admitted {s : State} {a m : Nat} {runs : List (Nat × Nat)}
    (h : ¬ AllAdmitted s.cfg ((a, m) :: runs)) : ∃ b n, s.copyFault a m runs = some (.bus s.site.inst s.site.port b n) ∧
      ¬ Admitted s.cfg b n ∧ (b, n) ∈ (a, m) :: runs := by
  obtain ⟨b, n, hbus, hnot, hmem⟩ := busFault_some h
  exact ⟨b, n, by rw [State.copyFault, hbus, Option.some_or], hnot, hmem⟩

/-- An operand range that meets a ready storage is `F_OVERLAP`, when every access is admitted (R65, R278). -/
theorem copyFault_of_overlap {s : State} {a m : Nat} {runs : List (Nat × Nat)} (h : AllAdmitted s.cfg ((a, m) :: runs))
    (hmeets : ¬ ClearOfStorage s a m) : s.copyFault a m runs = some (.overlap s.site.inst s.site.port) := by
  have hstorage : s.meetsStorage a m = true := Bool.not_eq_false _ ▸
    (meetsStorage_false_iff fun _ _ hr => (Inst.size_pos hr).ne').not.mpr hmeets
  rw [State.copyFault, busFault_none_iff.mpr h, Option.none_or, State.overlapFault, if_pos hstorage]

/-- Settles O29: the command raises the fault of its plan's check, which tests the accesses first. -/
theorem copyFaultOrder : Obligations.CopyFaultOrder := by
  intro s i c h q hlen
  rw [copyAccesses_eq]
  refine ⟨fun hbus => ?_, fun hadmitted hmeets => ?_⟩
  · obtain ⟨a, n, hfault, hnot, hmem⟩ := copyFault_of_not_admitted hbus
    exact ⟨a, n, exec_of_copyFault h hlen hfault, hnot, hmem⟩
  · exact exec_of_copyFault h hlen (copyFault_of_overlap hadmitted hmeets)

/-! ### The faults of `MOVE` -/

section
variable {s : State} {c : Pending} {src : Nat} (ha : Armed s (.move src) c) (hd : s.here.ready = true)
  (hs : (s.inst src).ready = true)
include ha hd hs

/-- The fault of a chunk's access comes before any effect (R64, R278). -/
theorem execMove_of_busFault {f : Fault} (h : s.busFault (moveAccesses s.site.inst src (moveBudget s.here (s.inst src))
      (moveBudget s.here (s.inst src)) s) = some f) : exec (.move src) s = .fault f := by
  refine ha.fault ((if_neg (by simp [hd, hs])).trans ?_)
  simp only [h]

/-- With every access admitted, storages of two FIFOs that meet are `F_OVERLAP` (R65, R233). -/
theorem execMove_of_storagesMeet (h : s.busFault (moveAccesses s.site.inst src (moveBudget s.here (s.inst src))
      (moveBudget s.here (s.inst src)) s) = none) (hne : src ≠ s.site.inst)
    (hmeet : storagesMeet s.here (s.inst src) = true) :
    exec (.move src) s = .fault (.overlap s.site.inst s.site.port) := by
  refine ha.fault ((if_neg (by simp [hd, hs])).trans ?_)
  simp only [h]
  exact if_pos ⟨hne, hmeet⟩

end

/-- Two storages that share an address (R65). -/
theorem storagesMeet_of_lt {D S : Inst} (hD : D.ready = true) (hS : S.ready = true) (h : S.base < D.base + D.size)
    (h' : D.base < S.base + S.size) : storagesMeet D S = true :=
  decide_eq_true ⟨(Inst.size_pos hS).ne', (Inst.size_pos hD).ne', h, h'⟩

/-- Settles O43: the accesses checked are those of the chunks of R233, and the storages are tested after them. -/
theorem moveFaults : Obligations.MoveFaults := by
  intro s c src hI ha hd hs D S b accesses
  have hok := move_ok hI ha.lt (ha.exist src (by simp [involved])) hd hs
  have haccesses : moveAccesses s.site.inst src (moveBudget s.here (s.inst src)) (moveBudget s.here (s.inst src)) s =
      accesses := (move_chunks hok).2
  refine ⟨fun hbus => ?_, fun hne hadmitted hlt hlt' => ?_⟩
  · obtain ⟨a, n, hfault, hnot, hmem⟩ := busFault_some hbus
    exact ⟨a, n, execMove_of_busFault ha hd hs (haccesses ▸ hfault), hnot, hmem⟩
  · exact execMove_of_storagesMeet ha hd hs (haccesses ▸ busFault_none_iff.mpr hadmitted) hne
      (storagesMeet_of_lt hd hs hlt hlt')

/-! ### A `WRITE` read back -/

/-- What a `WRITE` of `m` bytes that raised no fault did (R170, R172). -/
theorem execWrite_next {s t : State} {c : Pending} (hI : s.Inv) (h : Copying s .write c) {m : Nat}
    (hm : min (s.here.free s.view.1 s.view.2) c.n = m) (hpos : m ≠ 0) (he : exec .write s = .next t) :
    CopiedIn s t s.here s.here.w c.a m ∧
      Leaves s t [s.site.inst]
        { s.here with
          w := wrap s.here.size (s.here.w + m), wcnt := countPlus s.cfg s.here.wcnt m
          events := if m = 0 then s.here.events else historyPlus s.here s.site.port .write m }
        m s.herePort.res1 .done := by
  subst hm
  obtain ⟨c', u, code, hbusy, -, -, hrule, rfl⟩ := complete_next he
  obtain rfl : c = c' := Option.some.inj (h.armed.busy.symm.trans hbusy)
  obtain ⟨rfl, rfl⟩ := copyIn_ok (((if_sentinel h _ _).trans (if_neg hpos)).symm.trans hrule)
  have hlt := view_lt hI h.armed.lt h.ready
  have hle := (occ_le hI h.armed.lt h.ready).2
  rw [← view_w h.armed (by simp)]
  exact ⟨copiedIn_of hI.memory.wf hlt.2 (by omega) (by simp), (((h.armed.mid.setMem _).commitW _ _).setRes0 _).finish rfl _⟩

/-- What a `READ` of `m` bytes that raised no fault did (R171, R174). -/
theorem execRead_next {s t : State} {c : Pending} (hI : s.Inv) (h : Copying s .read c) {m : Nat}
    (hm : min (s.here.occ s.view.1 s.view.2) c.n = m) (hpos : m ≠ 0) (he : exec .read s = .next t) :
    CopiedOut s t s.here s.here.r c.a m ∧
      Leaves s t [s.site.inst]
        { s.here with
          r := wrap s.here.size (s.here.r + m), rcnt := countPlus s.cfg s.here.rcnt m
          events := if m = 0 then s.here.events else historyPlus s.here s.site.port .read m }
        m s.herePort.res1 .done := by
  subst hm
  obtain ⟨c', u, code, hbusy, -, -, hrule, rfl⟩ := complete_next he
  obtain rfl : c = c' := Option.some.inj (h.armed.busy.symm.trans hbusy)
  obtain ⟨rfl, rfl⟩ := consume_ok (((if_sentinel h _ _).trans (if_neg hpos)).symm.trans hrule)
  have hlt := view_lt hI h.armed.lt h.ready
  have hle := (occ_le hI h.armed.lt h.ready).1
  rw [← view_r h.armed (by simp)]
  exact ⟨copiedOut_of hI.memory.wf hlt.1 (by omega) (by simp), (((h.armed.mid.setMem _).setRes0 _).commitR _ _).finish rfl _⟩

/-- A reader that sees a write of `n` bytes into an empty ring sees `n` bytes (R150). -/
theorem occ_after_write {I : Inst} (hr : I.ready = true) {r n : Nat} (hlt : r < I.size) (hn : n < I.size) :
    I.occ r (wrap I.size (r + n)) = n := by
  rw [Inst.occ_eq_dist hr hlt (wrap_lt (by omega)), dist_advance hlt hlt (by rw [dist_self hlt]; omega), dist_self hlt,
    Nat.zero_add]

/-- Settles O35: the `WRITE` fills the slots from the cursors on, and the `READ` sees and copies out the same slots. -/
theorem writeThenReadRoundTrip : Obligations.WriteThenReadRoundTrip := by
  intro s t u v c d hI hw hempty hroom hexec hIu hsite hmem hfifo hsees hrd hlen hexec'
  obtain ⟨hin, hleft⟩ := execWrite_next hI hw (Nat.min_eq_right hroom) hw.len hexec
  have hsize : u.here.size = s.here.size := hfifo.size.trans hleft.fifo.size
  have hbase : u.here.base = s.here.base := hfifo.base.trans hleft.fifo.base
  have hcursor : u.here.r = s.here.w := (hfifo.r.trans hleft.fifo.r).trans hempty
  have hwritten : t.here.w = wrap s.here.size (s.here.w + c.n) := hleft.fifo.w
  have hlt : s.here.w < s.here.size := ((State.Inv.here hI hw.armed.lt).cursors hw.ready).w
  have hfits : c.n < s.here.size := Nat.lt_of_le_of_lt hroom (occ_le hI hw.armed.lt hw.ready).2
  have hview : u.view = (u.here.r, t.here.w) := by
    obtain hp | hp := rx hrd.armed rfl <;> simp only [State.view, hp, Inst.view, hsees, hfifo.w]
  have hseen : min (u.here.occ u.view.1 u.view.2) d.n = c.n := by
    rw [hview, hcursor, hwritten, ← hsize, occ_after_write hrd.ready (hsize ▸ hlt) (hsize ▸ hfits), hlen, Nat.min_self]
  obtain ⟨hout, hleft'⟩ := execRead_next hIu hrd hseen hw.len hexec'
  refine ⟨congrArg PortState.res0 hleft'.port, fun k hk => ?_, ?_⟩
  · rw [hout.bytes k hk, hmem, ← hin.bytes k hk, slotAddr, slotAddr, hbase, hcursor, hsize]
  · rw [hleft'.fifo.r, hleft'.fifo.w]
    exact (congrArg₂ wrap hsize (by rw [hcursor])).trans (hwritten.symm.trans hfifo.w.symm)

end Sys2Proof.Machine
end

section
/-! PROOFS. The command words: decoding and encoding are each other's inverse (R100, R105, R107), which words are illegal
(R101, R103, R272), and what issuing one does (R108). -/

namespace Sys2Proof.Machine

/-! ### The fields of a word -/

/-- The fields of a command's word stand in their places, and its reserved bits are 0: for every command at once, since
`OP` is below 2 ^ 6 (R100, R112). -/
theorem bitField_encode {i : Instr} (h : i.srcFits = true) :
    bitField (encode i) 7 6 = 0 ∧ encode i / 2 ^ 16 = 0 ∧ bitField (encode i) 5 0 = i.opcode ∧
      bitField (encode i) 15 8 = i.srcField := by
  have hop := opcode_lt i
  have hsrc : i.srcField < 2 ^ 8 := of_decide_eq_true h
  unfold bitField encode
  omega

/-- A word whose reserved bits are 0 is its `OP` and `SRC` (R100). -/
theorem op_add_src_of_rsv {w : Nat} (hrsv0 : bitField w 7 6 = 0) (hrsv1 : w / 2 ^ 16 = 0) :
    bitField w 5 0 + bitField w 15 8 * 2 ^ 8 = w := by
  unfold bitField at *
  omega

/-! ### The decoder -/

/-- The word `w` passes every test of R107 on port `p` and selects the command `i`. -/
structure DecodesTo (numInst : Nat) (p : Port) (w : Nat) (i : Instr) : Prop where
  rsv0 : bitField w 7 6 = 0
  rsv1 : w / 2 ^ 16 = 0
  listed : instrOfOp (bitField w 5 0) (bitField w 15 8) = some i
  legal : i.legalOn p = true
  range : bitField w 5 0 = 0x21 → bitField w 15 8 < numInst
  zero : bitField w 5 0 ≠ 0x21 → bitField w 15 8 = 0

/-- A word decodes exactly when it passes every test (R107). -/
theorem decode_ok_iff {numInst w : Nat} {p : Port} {i : Instr} : decode numInst p w = .ok i ↔ DecodesTo numInst p w i := by
  constructor
  · intro h
    unfold decode at h
    dsimp only at h
    split at h; · cases h
    next hrsv0 =>
    split at h; · cases h
    next hrsv1 =>
    split at h; · cases h
    next c hlisted =>
    split_ifs at h with hlegal hrange hzero
    cases h
    exact ⟨not_not.mp hrsv0, not_not.mp hrsv1, hlisted, Bool.eq_true_of_not_eq_false hlegal,
      fun hop => not_le.mp fun hle => hrange ⟨hop, hle⟩, fun hop => not_not.mp fun hne => hzero ⟨hop, hne⟩⟩
  · rintro ⟨hrsv0, hrsv1, hlisted, hlegal, hrange, hzero⟩
    have hrange : ¬ (bitField w 5 0 = 0x21 ∧ numInst ≤ bitField w 15 8) := fun h => not_le.mpr (hrange h.1) h.2
    have hzero : ¬ (bitField w 5 0 ≠ 0x21 ∧ bitField w 15 8 ≠ 0) := fun h => h.2 (hzero h.1)
    simp only [decode, hrsv0, hrsv1, hlisted, hlegal, hrange, hzero, ne_eq, not_true_eq_false, if_false, reduceCtorEq]

/-- The command a word decodes to has the word's `OP` and `SRC` (R101, R102). -/
theorem DecodesTo.fields {numInst w : Nat} {p : Port} {i : Instr} (h : DecodesTo numInst p w i) :
    i.opcode = bitField w 5 0 ∧ i.srcField = bitField w 15 8 := by
  obtain ⟨hop, hsrc⟩ := instrOfOp_some h.listed
  refine ⟨hop, hsrc.trans ?_⟩
  split_ifs with hmove
  · rfl
  · exact (h.zero hmove).symm

/-- A well-formed command's source number is an instance's if it is a `MOVE`, and 0 if not (R102). -/
theorem Instr.srcField_of_srcExists {numInst : Nat} {i : Instr} (h : i.srcExists numInst = true) :
    (i.opcode = 0x21 → i.srcField < numInst) ∧ (i.opcode ≠ 0x21 → i.srcField = 0) := by
  cases i with
  | move src => exact ⟨fun _ => of_decide_eq_true h, fun hne => absurd rfl hne⟩
  | _ => exact ⟨fun hop => absurd hop (by decide), fun _ => rfl⟩

/-- Settles O1: the fields of the word are the command's, which pass every test. -/
theorem decodeOfEncode : Obligations.DecodeOfEncode := by
  intro numInst p i hwf
  simp only [Instr.wellFormed, Bool.and_eq_true] at hwf
  obtain ⟨⟨hfits, hexists⟩, hlegal⟩ := hwf
  obtain ⟨hrsv0, hrsv1, hop, hsrc⟩ := bitField_encode hfits
  obtain ⟨hrange, hzero⟩ := Instr.srcField_of_srcExists hexists
  refine decode_ok_iff.mpr ⟨hrsv0, hrsv1, ?_, hlegal, ?_, ?_⟩ <;> rw [hop, hsrc]
  exacts [instrOfOp_opcode i, hrange, hzero]

/-- Settles O2: with no reserved bit set, the word is made up of the `OP` and `SRC` that the command keeps. -/
theorem encodeOfDecode : Obligations.EncodeOfDecode := by
  intro numInst p w i hd
  have h := decode_ok_iff.mp hd
  obtain ⟨hop, hsrc⟩ := h.fields
  refine ⟨?_, wellFormed_of_decode hd⟩
  rw [encode, hop, hsrc, op_add_src_of_rsv h.rsv0 h.rsv1]

/-! ### Illegal words -/

/-- A word is ILLEGAL exactly when it decodes to no command (R272). -/
theorem decode_error_iff {numInst w : Nat} {p : Port} :
    (∃ e, decode numInst p w = .error e) ↔ ∀ i, ¬ DecodesTo numInst p w i := by
  simp only [← decode_ok_iff]
  cases decode numInst p w <;> simp

/-- A listed `OP` that is legal on port `p` by its row of the map selects a command that is legal there (R105, R106). -/
theorem instrOfOp_of_row {p : Port} {op : Nat} {row : Nat × List Port} (hrow : row ∈ opcodeMap) (hop : row.1 = op)
    (hport : p ∈ row.2) (src : Nat) : ∃ i, instrOfOp op src = some i ∧ i.legalOn p = true := by
  cases hi : instrOfOp op src with
  | none => exact absurd hop (instrOfOp_none.mp hi row hrow)
  | some i =>
    have hports := row_ports i row hrow (hop.trans (instrOfOp_some hi).1.symm)
    exact ⟨i, rfl, (legalOn_iff i p).mpr (hports ▸ hport)⟩

/-- Settles O3: a word that fails no test selects a command by its row of the map, and one that decodes fails none. -/
theorem illegalExactly : Obligations.IllegalExactly := by
  intro numInst p w
  refine ⟨decode_error_iff.trans ⟨fun hnone => ?_, fun hfails i hd => ?_⟩, fun i hd => (decode_ok_iff.mp hd).fields⟩
  · by_contra hpass
    push Not at hpass
    obtain ⟨hrsv0, hrsv1, ⟨row, hrow, hop⟩, hports, hrange, hzero⟩ := hpass
    obtain ⟨i, hlisted, hlegal⟩ := instrOfOp_of_row hrow hop (hports row hrow hop) (bitField w 15 8)
    exact hnone i ⟨hrsv0, hrsv1, hlisted, hlegal, hrange, hzero⟩
  · obtain hrsv0 | hrsv1 | hreserved | ⟨row, hrow, hop, hport⟩ | ⟨hmove, hle⟩ | ⟨hother, hne⟩ := hfails
    · exact hrsv0 hd.rsv0
    · exact hrsv1 hd.rsv1
    · exact hreserved _ (opcode_row i) hd.fields.1
    · rw [row_ports i row hrow (hop.trans hd.fields.1.symm)] at hport
      exact hport ((legalOn_iff i p).mp hd.legal)
    · exact not_lt.mpr hle (hd.range hmove)
    · exact hne (hd.zero hother)

/-- Settles O13: `OP` 0 is reserved, and the ISSUE of an illegal word writes only registers of its port that leave it idle. -/
theorem illegalWordEffect : Obligations.IllegalWordEffect := by
  refine ⟨fun _ _ => ⟨.reservedOp, rfl⟩, fun s i p word hc hn hi hw hidle hillegal => ?_⟩
  obtain ⟨-, hissue, -⟩ := issueRule s i p word hc hn hi hw
  obtain ⟨t, hnext, honly⟩ := hissue hidle hillegal
  refine ⟨t, hnext, honly, ?_, honly.elsewhere.faults⟩
  rw [honly.inst, Inst.port_setPort_same]
  exact hidle

/-- Settles O4: the decoder evaluated on each word. -/
theorem sampleWordsDecode : Obligations.SampleWordsDecode := by
  unfold Obligations.SampleWordsDecode
  decide

end Sys2Proof.Machine
end

section
/-! PROOFS. The commands that set up an instance: `INIT`, `DEINIT`, `SET_EVT`, `SET_TAG`, and the answer of `GET_TAG` (R130, R131,
R133 to R135). -/

namespace Sys2Proof.Machine

/-! ### A rule that updates its instance and answers 1 -/

/-- `I` with the setup, cursors, counts and history of `K`; its ports, views and crossings stay. -/
def Inst.withFifo (I K : Inst) : Inst :=
  { I with
    base := K.base, size := K.size, r := K.r, w := K.w, wcnt := K.wcnt, rcnt := K.rcnt
    evtEn := K.evtEn, tag := K.tag, events := K.events }

theorem SameFifo.withFifo (I K : Inst) : SameFifo K (I.withFifo K) := ⟨rfl, rfl, rfl, rfl, rfl, rfl, rfl, rfl, rfl⟩

/-- A rule that gives its instance the setup, cursors, counts and history of `K`, in one update, and answers 1 in `RES0`. -/
theorem setup_of {s : State} {i : Instr} {c : Pending} {rule : Pending → Except Fault (State × Code)} {f : Inst → Inst}
    {K : Inst} (ha : Armed s i c) (hx : exec i s = complete i s rule) (hi : involved i s.site.inst = [s.site.inst])
    (hr : rule c = .ok ((s.modInst s.site.inst f).setRes0 1, .done)) (hf : f s.here = s.here.withFifo K) :
    ∃ t, exec i s = .next t ∧ SameBytes s t ∧ Leaves s t [s.site.inst] K 1 s.herePort.res1 .done := by
  have hmid : Mid s (s.modInst s.site.inst f) K s.herePort.res0 s.herePort.res1 := by
    apply ha.mid.modInst <;> rw [hf]
    · exact .withFifo _ _
    · rfl
    · rfl
    · exact ⟨rfl, rfl, rfl, rfl⟩
    · exact fun _ => rfl
  obtain ⟨t, hnext, hmem, hleaves⟩ := ha.next hr (hmid.setRes0 1) hi
  exact ⟨t, hx.trans hnext, sameBytes_of_mem hmem, hleaves⟩

/-! ### `INIT` -/

/-- The bases and sizes that `INIT` refuses, as a proposition (R130). -/
theorem initFails_iff {c : Config} {a n : Nat} :
    initFails c a n = true ↔ a = 0 ∨ n = 0 ∨ 2 ^ c.capW ≤ n ∨ 2 ^ c.regW < a + n := decide_eq_true_iff

/-- Settles O14: the rule's test is the condition of R130, and past it the rule is one update of the instance. -/
theorem initEffect : Obligations.InitEffect := by
  refine fun s c ha => ⟨fun hfails => ?_, fun hbase hsize hcap htop => ?_⟩
  · exact zero_of ha rfl rfl (if_pos (initFails_iff.mpr hfails))
  · have hok : ¬ initFails s.cfg c.a c.n = true := by
      simp only [initFails_iff, not_or, not_le, not_lt]
      exact ⟨hbase, hsize, hcap, htop⟩
    exact setup_of ha rfl rfl (if_neg hok) rfl

/-! ### `DEINIT`, `SET_EVT` and the tag -/

/-- Settles O15: on a ready instance the rule is one update, of `BASE`. -/
theorem deinitEffect : Obligations.DeinitEffect := fun _ _ ha =>
  ⟨fun hnot => zero_of ha rfl rfl (if_pos hnot),
    fun hready => setup_of ha rfl rfl (if_neg (ne_false_of_eq_true hready)) rfl⟩

/-- Settles O16: on a ready instance the rule is one update, of `EVT_EN`; bit 0 is the parity. -/
theorem setEvtEffect : Obligations.SetEvtEffect := by
  refine fun s c ha => ⟨fun hnot => zero_of ha rfl rfl (if_pos hnot), fun hready => ?_⟩
  rw [← Nat.testBit_zero]
  exact setup_of ha rfl rfl (if_neg (ne_false_of_eq_true hready)) rfl

/-- Settles O17: `SET_TAG` is one update with no test, and `GET_TAG` only answers a value. -/
theorem tagCommands : Obligations.TagCommands := by
  refine ⟨fun s c ha => ?_, answers_of (fun _ => rfl) (fun _ => rfl) fun _ => rfl⟩
  have hexec : exec .setTag s = complete .setTag s fun c =>
      .ok ((s.modInst s.site.inst fun I => { I with tag := c.a }).setRes0 1, .done) := rfl
  exact setup_of ha hexec rfl rfl rfl

end Sys2Proof.Machine
end

section
/-! PROOFS. The capacity law (R150, R151, R157) and the flags `EMPTY` and `FULL` (R154, R155). -/

namespace Sys2Proof.Machine

/-! ### The capacity law -/

/-- The farthest position, `S - 1` slots ahead, is the one slot behind (R151). -/
theorem dist_eq_pred {S a b : Nat} (ha : a < S) (hb : b < S) : dist S a b = S - 1 ↔ b = (a + S - 1) % S := by
  have hbehind : (a + S - 1) % S = if a = 0 then S - 1 else a - 1 := by
    rw [Nat.add_sub_assoc (by omega), add_mod_ring ha (by omega)]
    split_ifs <;> omega
  rw [hbehind, dist_eq ha hb]
  split_ifs <;> omega

section
variable {I : Inst} {rd wr : Nat} (hready : I.ready = true) (hrd : rd < I.size) (hwr : wr < I.size)
include hready hrd hwr

/-- A ready view is empty exactly when its positions are equal (R150). -/
theorem Inst.occ_eq_zero : I.occ rd wr = 0 ↔ rd = wr := by
  rw [Inst.occ_eq_dist hready hrd hwr, dist_eq_zero hrd hwr]

/-- A ready view is full exactly when the write position is one slot behind the read position (R151). -/
theorem Inst.free_eq_zero : I.free rd wr = 0 ↔ wr = (rd + I.size - 1) % I.size := by
  obtain ⟨-, hsum⟩ := view_facts I rd wr hready hrd hwr
  have hfull : I.free rd wr = 0 ↔ I.occ rd wr = I.size - 1 := by omega
  rw [hfull, Inst.occ_eq_dist hready hrd hwr, dist_eq_pred hrd hwr]

/-- A ready view is both empty and full exactly when the storage has the sacrificed slot only (R155). -/
theorem Inst.occ_free_eq_zero : I.occ rd wr = 0 ∧ I.free rd wr = 0 ↔ I.size = 1 := by
  obtain ⟨hle, hsum⟩ := view_facts I rd wr hready hrd hwr
  omega

end

/-- Settles O20: the occupancy is the ring distance, and the free space is what it leaves of `SIZE - 1`. -/
theorem capacityLaw : Obligations.CapacityLaw := by
  intro I rd wr hready hrd hwr
  obtain ⟨hle, hsum⟩ := view_facts I rd wr hready hrd hwr
  exact ⟨Inst.occ_eq_dist hready hrd hwr, hle, Inst.occ_eq_zero hready hrd hwr, hsum, Inst.free_eq_zero hready hrd hwr⟩

/-! ### The flags -/

/-- `EMPTY` reads 1 exactly when the port's view has no byte (R154). -/
theorem Inst.emptyFlag_iff {I : Inst} {p : Port} : I.emptyFlag p = true ↔ I.occ (I.view p).1 (I.view p).2 = 0 :=
  decide_eq_true_iff

/-- `FULL` reads 1 exactly when the port's view has no room (R155). -/
theorem Inst.fullFlag_iff {I : Inst} {p : Port} : I.fullFlag p = true ↔ I.free (I.view p).1 (I.view p).2 = 0 :=
  decide_eq_true_iff

/-- An instance that is not ready holds no byte (R150). -/
theorem Inst.occ_of_not_ready {I : Inst} (h : I.ready = false) (rd wr : Nat) : I.occ rd wr = 0 := if_pos h

/-- An instance that is not ready has no room (R151). -/
theorem Inst.free_of_not_ready {I : Inst} (h : I.ready = false) (rd wr : Nat) : I.free rd wr = 0 := if_pos h

/-- Settles O21: the flags test the occupancy and the free space of the port's view for 0. -/
theorem emptyAndFullFlags : Obligations.EmptyAndFullFlags := by
  intro I p
  simp only [Inst.emptyFlag_iff, Inst.fullFlag_iff]
  refine ⟨fun hnot => ?_, fun hready hrd hwr => ?_⟩
  · exact ⟨Inst.occ_of_not_ready hnot _ _, Inst.free_of_not_ready hnot _ _⟩
  · exact ⟨Inst.occ_eq_zero hready hrd hwr, Inst.free_eq_zero hready hrd hwr, Inst.occ_free_eq_zero hready hrd hwr⟩

end Sys2Proof.Machine
end

section
/-! PROOFS. Bulk write, read and peek (R172 to R176, R274), and the commits of zero-copy accesses (R202, R205). -/

namespace Sys2Proof.Machine

/-- What a command that may run leaves, when its rule raises no fault: `Armed.next` for `exec` (R72, R73). -/
theorem exec_leaves {s u : State} {i : Instr} {c : Pending} {K : Inst} {a b : Nat} {code : Code}
    {rule : Pending → Except Fault (State × Code)} (ha : Armed s i c) (hx : exec i s = complete i s rule)
    (hi : involved i s.site.inst = [s.site.inst]) (hr : rule c = .ok (u, code)) (h : Mid s u K a b) :
    ∃ t, exec i s = .next t ∧ t.mem = u.mem ∧ Leaves s t [s.site.inst] K a b code :=
  hx ▸ ha.next hr h hi

/-! ### The commits -/

/-- `I` once `m` bytes are committed at its write cursor by port `p` (R170). -/
def Inst.written (c : Config) (I : Inst) (p : Port) (m : Nat) : Inst :=
  { I with
    w := (I.w + m) % I.size, wcnt := countPlus c I.wcnt m
    events := if m = 0 then I.events else historyPlus I p .write m }

/-- `I` once `m` bytes are released at its read cursor by port `p` (R171). -/
def Inst.released (c : Config) (I : Inst) (p : Port) (m : Nat) : Inst :=
  { I with
    r := (I.r + m) % I.size, rcnt := countPlus c I.rcnt m
    events := if m = 0 then I.events else historyPlus I p .read m }

/-- A commit of some bytes written emits its event (R170). -/
theorem Inst.written_of_ne (c : Config) (I : Inst) (p : Port) {m : Nat} (hm : m ≠ 0) : I.written c p m =
    { I with w := (I.w + m) % I.size, wcnt := countPlus c I.wcnt m, events := historyPlus I p .write m } := by
  rw [Inst.written, if_neg hm]

/-- A release of some bytes emits its event (R171). -/
theorem Inst.released_of_ne (c : Config) (I : Inst) (p : Port) {m : Nat} (hm : m ≠ 0) : I.released c p m =
    { I with r := (I.r + m) % I.size, rcnt := countPlus c I.rcnt m, events := historyPlus I p .read m } := by
  rw [Inst.released, if_neg hm]

section
variable {s u : State} {i : Instr} {c : Pending} {a b m : Nat} (hI : s.Inv) (ha : Armed s i c) (hr : s.here.ready = true)
  (h : Mid s u s.here a b)
include hI ha hr h

/-- `CommitW` of a writing command on its view, with room for the bytes: the wrap of the cursor is a remainder (R11, R170). -/
theorem Mid.commitW_view (hi : i ∈ [Instr.write, .writeExact, .advance]) (hm : m ≤ s.here.free s.view.1 s.view.2) :
    Mid s (u.commitW s.site.inst s.view.2 m) (s.here.written s.cfg s.site.port m) a b := by
  have hlt := (view_lt hI ha.lt hr).2
  have hle := (occ_le hI ha.lt hr).2
  rw [Inst.written, ← view_w ha hi, ← wrap_eq_mod (by omega)]
  exact h.commitW _ _

/-- `CommitR` of a reading command on its view, of bytes that it holds: the wrap of the cursor is a remainder (R11, R171). -/
theorem Mid.commitR_view (hi : i ∈ [Instr.read, .readExact, .peek, .skip]) (hm : m ≤ s.here.occ s.view.1 s.view.2) :
    Mid s (u.commitR s.site.inst s.view.1 m) (s.here.released s.cfg s.site.port m) a b := by
  have hlt := (view_lt hI ha.lt hr).1
  have hle := (occ_le hI ha.lt hr).1
  rw [Inst.released, ← view_r ha hi, ← wrap_eq_mod (by omega)]
  exact h.commitR _ _

end

/-! ### The zero-copy commits -/

/-- A zero-copy commit of some bytes on a ready instance is past the test of R202 and R205. -/
theorem not_zeroCopySentinel {I : Inst} {n : Nat} (hr : I.ready = true) (hn : n ≠ 0) : ¬ (I.ready = false ∨ n = 0) :=
  not_or.mpr ⟨ne_false_of_eq_true hr, hn⟩

/-- Settles O26: past its test the rule is `CommitR` of at most the bytes of the view. -/
theorem skipEffect : Obligations.SkipEffect := by
  refine fun s c hI ha => ⟨fun hnot => zero_of ha rfl rfl (if_pos hnot), fun hr hn => ?_⟩
  obtain ⟨t, hnext, hmem, hleaves⟩ := exec_leaves ha rfl rfl (if_neg (not_zeroCopySentinel hr hn))
    ((ha.mid.commitR_view hI ha hr (by simp) (Nat.min_le_right _ _)).setRes0 _)
  exact ⟨t, hnext, sameBytes_of_mem hmem, hleaves⟩

/-- Settles O27: past its test the rule is `CommitW` of at most the room of the view. -/
theorem advanceEffect : Obligations.AdvanceEffect := by
  refine fun s c hI ha => ⟨fun hnot => zero_of ha rfl rfl (if_pos hnot), fun hr hn => ?_⟩
  obtain ⟨t, hnext, hmem, hleaves⟩ := exec_leaves ha rfl rfl (if_neg (not_zeroCopySentinel hr hn))
    ((ha.mid.commitW_view hI ha hr (by simp) (Nat.min_le_right _ _)).setRes0 _)
  exact ⟨t, hnext, sameBytes_of_mem hmem, hleaves⟩

/-! ### The sentinels -/

/-- Settles O28: every copying command tests its sentinels first; `FIND` then clears `RES1` too. -/
theorem copySentinels : Obligations.CopySentinels := by
  intro s c h
  have hs : s.sentinel c = true := sentinel_true h
  refine ⟨fun i hi ha => ?_, fun ha => ?_⟩
  · simp only [List.mem_cons, List.not_mem_nil, or_false] at hi
    obtain rfl | rfl | rfl | rfl | rfl | rfl := hi <;> exact zero_of ha rfl rfl (if_pos hs)
  · obtain ⟨t, hnext, hmem, hleaves⟩ := exec_leaves ha rfl rfl (if_pos hs) ((ha.mid.setRes0 0).setRes1 0)
    exact ⟨t, hnext, sameBytes_of_mem hmem, hleaves⟩

/-- A copying command whose rule only answers 0 past its sentinel tests. -/
theorem Copying.zero {s : State} {i : Instr} {c : Pending} {rule : Pending → Except Fault (State × Code)}
    {test : Prop} [Decidable test] {next : Except Fault (State × Code)} (h : Copying s i c)
    (hx : exec i s = complete i s rule) (hi : involved i s.site.inst = [s.site.inst])
    (hr : rule c = if s.sentinel c then .ok (s.setRes0 0, .done) else if test then .ok (s.setRes0 0, .done) else next)
    (ht : test) : ReturnsZero s i [s.site.inst] :=
  zero_of h.armed hx hi (hr.trans ((if_sentinel h _ _).trans (if_pos ht)))

/-! ### The copies -/

section
variable {s : State} {a m res slot : Nat}

/-- A copy into storage that passes its check (R172, R173). -/
theorem copyIn_of_no_fault (h : s.copyFault a m (s.here.runs s.view.2 m) = none) :
    s.copyIn a m res = .ok ((State.commitW { s with mem := s.here.storageWrite s.mem s.view.2 (s.mem.readBytes a m) }
      s.site.inst s.view.2 m).setRes0 res, .done) := by
  simp only [State.copyIn, h]

/-- A copy out of storage that passes its check (R174 to R176). -/
theorem copyOut_of_no_fault (h : s.copyFault a m (s.here.runs slot m) = none) :
    s.copyOut slot a m res =
      .ok (State.setRes0 { s with mem := s.mem.writeBytes a (s.here.storageRead s.mem slot m) } res, .done) := by
  simp only [State.copyOut, h]

/-- A copy of the bytes read that passes its check, with their commit (R174, R175). -/
theorem consume_of_no_fault (h : s.copyFault a m (s.here.runs s.view.1 m) = none) :
    s.consume a m res =
      .ok ((State.setRes0 { s with mem := s.mem.writeBytes a (s.here.storageRead s.mem s.view.1 m) } res).commitR
        s.site.inst s.view.1 m, .done) := by
  simp only [State.consume, copyOut_of_no_fault h]

end

section
variable {s : State} {i : Instr} {c : Pending} {m res : Nat} {rule : Pending → Except Fault (State × Code)}
  (hI : s.Inv) (h : Copying s i c) (hx : exec i s = complete i s rule) (hinv : involved i s.site.inst = [s.site.inst])
include hI h hx hinv

/-- A rule that copies `m` bytes in, with room for them and no fault: the common end of `WRITE` and `WRITE_EXACT`
(R170, R172, R173). -/
theorem copyIn_leaves (hi : i ∈ [Instr.write, .writeExact, .advance]) (hm : m ≤ s.here.free s.view.1 s.view.2)
    (hpos : m ≠ 0) (hf : s.copyFault c.a m (s.here.runs s.view.2 m) = none) (hr : rule c = s.copyIn c.a m res) :
    ∃ t, exec i s = .next t ∧ CopiedIn s t s.here s.here.w c.a m ∧
      Leaves s t [s.site.inst]
        { s.here with
          w := (s.here.w + m) % s.here.size, wcnt := countPlus s.cfg s.here.wcnt m
          events := historyPlus s.here s.site.port .write m }
        res s.herePort.res1 .done := by
  have hlt := (view_lt hI h.armed.lt h.ready).2
  have hle := (occ_le hI h.armed.lt h.ready).2
  have hmid := (h.armed.mid.setMem (s.here.storageWrite s.mem s.view.2 (s.mem.readBytes c.a m))).commitW_view
    hI h.armed h.ready hi hm
  obtain ⟨t, hnext, hmem, hleaves⟩ := exec_leaves h.armed hx hinv (hr.trans (copyIn_of_no_fault hf)) (hmid.setRes0 res)
  rw [Inst.written_of_ne _ _ _ hpos] at hleaves
  have hcopied := copiedIn_of hI.memory.wf hlt (hm.trans hle.le) hmem
  exact ⟨t, hnext, view_w h.armed hi ▸ hcopied, hleaves⟩

/-- A rule that copies out `m` bytes that the view holds and releases them, with no fault: the common end of `READ` and
`READ_EXACT` (R171, R174, R175). -/
theorem consume_leaves (hi : i ∈ [Instr.read, .readExact, .peek, .skip]) (hm : m ≤ s.here.occ s.view.1 s.view.2)
    (hpos : m ≠ 0) (hf : s.copyFault c.a m (s.here.runs s.view.1 m) = none) (hr : rule c = s.consume c.a m res) :
    ∃ t, exec i s = .next t ∧ CopiedOut s t s.here s.here.r c.a m ∧
      Leaves s t [s.site.inst]
        { s.here with
          r := (s.here.r + m) % s.here.size, rcnt := countPlus s.cfg s.here.rcnt m
          events := historyPlus s.here s.site.port .read m }
        res s.herePort.res1 .done := by
  have hlt := (view_lt hI h.armed.lt h.ready).1
  have hle := (occ_le hI h.armed.lt h.ready).1
  have hmid := ((h.armed.mid.setMem (s.mem.writeBytes c.a (s.here.storageRead s.mem s.view.1 m))).setRes0 res).commitR_view
    hI h.armed h.ready hi hm
  obtain ⟨t, hnext, hmem, hleaves⟩ := exec_leaves h.armed hx hinv (hr.trans (consume_of_no_fault hf)) hmid
  rw [Inst.released_of_ne _ _ _ hpos] at hleaves
  have hcopied := copiedOut_of hI.memory.wf hlt (hm.trans hle.le) hmem
  exact ⟨t, hnext, view_r h.armed hi ▸ hcopied, hleaves⟩

end

/-- A copy out of storage from a slot counted around the ring (R13). -/
theorem CopiedOut.of_mod {s t : State} {I : Inst} {x a m : Nat} (h : CopiedOut s t I (x % I.size) a m) :
    CopiedOut s t I x a m :=
  ⟨fun k hk => slotAddr_mod (I := I) x k ▸ h.bytes k hk, h.others⟩

/-! ### The commands -/

/-- Settles O30: the rule copies in what fits, or answers 0 when nothing does. -/
theorem writeEffect : Obligations.WriteEffect := by
  refine fun s c hI h => ⟨h.zero rfl rfl rfl, fun hm hok => ?_⟩
  exact copyIn_leaves hI h rfl rfl (by simp) (Nat.min_le_left _ _) hm (copyFault_none hok)
    ((if_sentinel h _ _).trans (if_neg hm))

/-- Settles O31: the rule copies in all bytes, or answers 0 when they do not fit. -/
theorem writeExactEffect : Obligations.WriteExactEffect := by
  refine fun s c hI h => ⟨h.zero rfl rfl rfl, fun hle hok => ?_⟩
  have hroom : ¬ s.here.free s.view.1 s.view.2 < c.n := not_lt.mpr hle
  have hf := copyFault_none hok
  simp only [planRuns, copyPlan, hroom, if_false] at hf
  exact copyIn_leaves hI h rfl rfl (by simp) hle h.len hf ((if_sentinel h _ _).trans (if_neg hroom))

/-- Settles O32: the rule copies out and releases the bytes that the view holds, or answers 0 when it holds none. -/
theorem readEffect : Obligations.ReadEffect := by
  refine fun s c hI h => ⟨h.zero rfl rfl rfl, fun hm hok => ?_⟩
  exact consume_leaves hI h rfl rfl (by simp) (Nat.min_le_left _ _) hm (copyFault_none hok)
    ((if_sentinel h _ _).trans (if_neg hm))

/-- Settles O33: the rule copies out and releases all bytes, or answers 0 when the view holds fewer. -/
theorem readExactEffect : Obligations.ReadExactEffect := by
  refine fun s c hI h => ⟨h.zero rfl rfl rfl, fun hle hok => ?_⟩
  have hbytes : ¬ s.here.occ s.view.1 s.view.2 < c.n := not_lt.mpr hle
  have hf := copyFault_none hok
  simp only [planRuns, copyPlan, hbytes, if_false] at hf
  exact consume_leaves hI h rfl rfl (by simp) hle h.len hf ((if_sentinel h _ _).trans (if_neg hbytes))

/-- Settles O34: the rule copies out from the `K`-th unread byte on without a commit, or answers 0 when there is none. -/
theorem peekEffect : Obligations.PeekEffect := by
  refine fun s c hI h => ⟨h.zero rfl rfl rfl, fun hlt hok => ?_⟩
  have hbytes : ¬ s.here.occ s.view.1 s.view.2 ≤ c.k := not_le.mpr hlt
  have hf := copyFault_none hok
  simp only [planRuns, copyPlan, hbytes, if_false] at hf
  have hle := (occ_le hI h.armed.lt h.ready).1
  obtain ⟨t, hnext, hmem, hleaves⟩ := exec_leaves h.armed rfl rfl
    ((if_sentinel h _ _).trans ((if_neg hbytes).trans (copyOut_of_no_fault hf))) ((h.armed.mid.setMem _).setRes0 _)
  have hcopied := copiedOut_of hI.memory.wf (Nat.mod_lt _ (Inst.size_pos h.ready)) (by omega) hmem
  refine ⟨t, hnext, ?_, hleaves⟩
  rw [← view_r h.armed (by simp)]
  exact hcopied.of_mod

end Sys2Proof.Machine
end

section
/-! PROOFS. The linear blocks: what the four queries answer (R200, R201, R203, R204), and the laws of the windows (R207). -/

namespace Sys2Proof.Machine

/-! ### The queries -/

/-- The length of the linear read block with readiness read off `BASE` and `SIZE` (R27, R201). -/
theorem Inst.linRLen_eq_ite (I : Inst) (rd wr : Nat) :
    I.linRLen rd wr = if I.base = 0 ∨ I.size = 0 then 0
      else if rd < wr then wr - rd else if wr < rd then I.size - rd else 0 := by
  simp only [Inst.linRLen, ready_false]

/-- The length of the linear write block with readiness read off `BASE` and `SIZE` (R27, R204). -/
theorem Inst.linWLen_eq_ite (I : Inst) (rd wr : Nat) :
    I.linWLen rd wr = if I.base = 0 ∨ I.size = 0 then 0
      else if rd ≤ wr then (if rd = 0 then I.size - wr - 1 else I.size - wr) else rd - wr - 1 := by
  simp only [Inst.linWLen, ready_false]

/-- The address of slot `rd` with readiness read off `BASE` and `SIZE` (R27, R200). -/
theorem Inst.linRAddr_eq_ite (I : Inst) (rd : Nat) :
    I.linRAddr rd = if I.base = 0 ∨ I.size = 0 then 0 else I.base + rd := by
  simp only [Inst.linRAddr, ready_false]

/-- The address of slot `wr` with readiness read off `BASE` and `SIZE` (R27, R203). -/
theorem Inst.linWAddr_eq_ite (I : Inst) (wr : Nat) :
    I.linWAddr wr = if I.base = 0 ∨ I.size = 0 then 0 else I.base + wr := by
  simp only [Inst.linWAddr, ready_false]

/-- Settles O23: both commands only answer a value, the linear read block of the port's view. -/
theorem linearReadAnswers : Obligations.LinearReadAnswers :=
  ⟨answers_of (fun _ => rfl) (fun _ => rfl) fun s => s.here.linRAddr_eq_ite _,
    answers_of (fun _ => rfl) (fun _ => rfl) fun s => s.here.linRLen_eq_ite _ _⟩

/-- Settles O24: both commands only answer a value, the linear write block of the port's view. -/
theorem linearWriteAnswers : Obligations.LinearWriteAnswers :=
  ⟨answers_of (fun _ => rfl) (fun _ => rfl) fun s => s.here.linWAddr_eq_ite _,
    answers_of (fun _ => rfl) (fun _ => rfl) fun s => s.here.linWLen_eq_ite _ _⟩

/-! ### The window laws -/

section
variable {I : Inst} {rd wr : Nat} (hready : I.ready = true) (hrd : rd < I.size) (hwr : wr < I.size)
include hready hrd hwr

/-- The read window of a ready view has a byte exactly when the view has one (R201, R207). -/
theorem Inst.linRLen_pos : 0 < I.linRLen rd wr ↔ 0 < I.occ rd wr := by
  have hempty := Inst.occ_eq_zero hready hrd hwr
  rw [Inst.linRLen_eq_ite, if_neg (not_or.mpr (Inst.ready_iff.mp hready))]
  split_ifs <;> omega

/-- The write window of a ready view has a slot exactly when the view has room: the slot before `rd`, which stays free, is the
last of storage exactly when `rd = 0`, and then the window gives it up (R204, R207). -/
theorem Inst.linWLen_pos : 0 < I.linWLen rd wr ↔ 0 < I.free rd wr := by
  rw [Inst.linWLen_eq_ite, if_neg (not_or.mpr (Inst.ready_iff.mp hready)), Inst.free_eq_dist hready hrd hwr,
    dist_eq hrd hwr]
  split_ifs <;> omega

end

/-- A window that stays in the storage and is no longer than what the view offers lies in the slots that the view offers: with no
wrap, slot `j` of the window is at distance `j` (R207). -/
theorem dist_lt_of_window {S a len avail : Nat} (hend : a + len ≤ S) (hle : len ≤ avail) :
    ∀ j < len, dist S a (a + j) < avail := fun j hj => by
  rw [dist_add (by omega)]
  exact hj.trans_le hle

/-- Settles O25: the bounds of each window, when it is empty, and that a window within its bounds lies in the slots offered. -/
theorem windowLaws : Obligations.WindowLaws := by
  intro I rd wr hready hrd hwr
  obtain ⟨hocc, hfree, hrend, hwend⟩ := window_facts I rd wr hready hrd hwr
  exact ⟨hocc, Inst.linRLen_pos hready hrd hwr, hfree, Inst.linWLen_pos hready hrd hwr, hrend, hwend,
    dist_lt_of_window hrend hocc, dist_lt_of_window hwend hfree⟩

end Sys2Proof.Machine
end

section
/-! PROOFS. `RESET` and `OVERWRITE` (R230, R231). -/

namespace Sys2Proof.Machine

/-! ### `RESET` -/

/-- `RESET` as one update: cursors and counts to 0 and the reset event (R230). -/
theorem Inst.resetCursors_eq (I : Inst) (p : Port) : I.resetCursors p =
    { I with r := 0, w := 0, wcnt := 0, rcnt := 0, events := historyPlus I p .reset 0 } := by
  unfold Inst.resetCursors Inst.zeroCursors Inst.emit historyPlus
  split <;> rfl

/-- Settles O36: on a ready instance the rule is one update, of cursors, counts and history. -/
theorem resetEffect : Obligations.ResetEffect := by
  refine fun s c ha => ⟨fun hnot => zero_of ha rfl rfl (if_pos hnot), fun hready => ?_⟩
  rw [← armed_x ha rfl]
  exact setup_of ha rfl rfl (if_neg (ne_false_of_eq_true hready)) (s.here.resetCursors_eq _)

/-! ### Updates on the way of a rule -/

section
variable {s u : State} {K : Inst} {a b m : Nat} (h : Mid s u K a b)
include h

/-- `CommitW` at the write cursor of fewer bytes than there are slots: the wrap of the cursor is a remainder (R11, R170). -/
theorem Mid.commitW_cursor (hw : K.w < K.size) (hm : m < K.size) :
    Mid s (u.commitW s.site.inst K.w m) (K.written s.cfg s.site.port m) a b := by
  rw [Inst.written, ← wrap_eq_mod (by omega)]
  exact h.commitW _ _

/-- `CommitR` at the read cursor of fewer bytes than there are slots: the wrap of the cursor is a remainder (R11, R171). -/
theorem Mid.commitR_cursor (hr : K.r < K.size) (hm : m < K.size) :
    Mid s (u.commitR s.site.inst K.r m) (K.released s.cfg s.site.port m) a b := by
  rw [Inst.released, ← wrap_eq_mod (by omega)]
  exact h.commitR _ _

/-- The effect of `RESET` on the running engine's instance (R230). -/
theorem Mid.resetCursors :
    Mid s (u.modInst s.site.inst fun J => J.resetCursors s.site.port) (K.resetCursors s.site.port) a b := by
  obtain ⟨hbase, hsize, -, -, -, -, hevt, htag, hevents⟩ := h.fifo
  apply h.modInst <;> simp only [Inst.resetCursors_eq]
  · refine ⟨hbase, hsize, rfl, rfl, rfl, rfl, hevt, htag, ?_⟩
    simp only [historyPlus, hevt, hevents]
  · exact ⟨rfl, rfl, rfl, rfl⟩
  · exact fun p => by cases p <;> rfl

end

/-- A release of no byte changes nothing (R171). -/
theorem Inst.released_zero {c : Config} {I : Inst} (hr : I.r < I.size) (hcnt : I.rcnt < 2 ^ c.capW) (p : Port) :
    I.released c p 0 = I := by
  rw [Inst.released, if_pos rfl, countPlus_zero hcnt, Nat.add_zero, Nat.mod_eq_of_lt hr]

/-! ### `OVERWRITE` -/

section
variable {s : State} {a n cap : Nat}

/-- `OVERWRITE` above the usable capacity, past its check: the kept bytes stored from slot 0, the reset, the commit (R231). -/
theorem overwriteAll_of_no_fault (h : s.copyFault (a + (n - cap)) cap (s.here.runs 0 cap) = none) :
    s.overwriteAll a n cap = .ok (((State.modInst
      { s with mem := s.here.storageWrite s.mem 0 (s.mem.readBytes (a + (n - cap)) cap) } s.site.inst
      fun J => J.resetCursors s.site.port).commitW s.site.inst 0 cap).setRes0 n, .done) := by
  simp only [State.overwriteAll, h]

/-- `OVERWRITE` within the usable capacity, past its check: the deficit dropped, the bytes stored, the commit (R231). -/
theorem overwriteSome_of_no_fault (h : s.copyFault a n (s.here.runs s.here.w n) = none) :
    s.overwriteSome a n = .ok ((State.commitW
      { (if s.here.free s.here.r s.here.w < n then s.commitR s.site.inst s.here.r (n - s.here.free s.here.r s.here.w) else s)
        with mem := s.here.storageWrite s.mem s.here.w (s.mem.readBytes a n) } s.site.inst s.here.w n).setRes0 n, .done) := by
  simp only [State.overwriteSome, h]

end

/-- The drop of `OVERWRITE` releases the bytes that there is no room for, which may be none (R231). -/
theorem dropDeficit_mid {s : State} {c : Pending} (hI : s.Inv) (h : Copying s .overwrite c) {n : Nat}
    (hn : n ≤ s.here.size - 1) :
    Mid s (if s.here.free s.here.r s.here.w < n then s.commitR s.site.inst s.here.r (n - s.here.free s.here.r s.here.w) else s)
      (s.here.released s.cfg s.site.port (n - s.here.free s.here.r s.here.w)) s.herePort.res0 s.herePort.res1 := by
  have hinv := State.Inv.here hI h.armed.lt
  have hr := (hinv.cursors h.ready).r
  split
  · exact h.armed.mid.commitR_cursor hr (by omega)
  next hroom =>
    rw [Nat.sub_eq_zero_of_le (not_lt.mp hroom), Inst.released_zero hr hinv.fits.rcnt]
    exact h.armed.mid

/-- Settles O37: the rule drops the deficit, copies in at the write cursor and commits. -/
theorem overwriteWithinCapacity : Obligations.OverwriteWithinCapacity := by
  intro s c hI h hn hok I drop I1
  have hcursors := (State.Inv.here hI h.armed.lt).cursors h.ready
  have hlt : c.n < I.size := hn.trans_lt (Nat.sub_one_lt (Inst.size_pos h.ready).ne')
  have hfits : ¬ s.here.size - 1 < c.n := not_lt.mpr hn
  have hf := copyFault_none hok
  simp only [planRuns, copyPlan, hfits, if_false] at hf
  have hmid := (((dropDeficit_mid hI h hn).setMem (I.storageWrite s.mem I.w (s.mem.readBytes c.a c.n))).commitW_cursor
    hcursors.w hlt).setRes0 c.n
  obtain ⟨t, hnext, hmem, hleaves⟩ := exec_leaves h.armed rfl rfl
    ((if_sentinel h _ _).trans ((if_neg hfits).trans (overwriteSome_of_no_fault hf))) hmid
  refine ⟨t, hnext, copiedIn_of hI.memory.wf hcursors.w hlt.le hmem, ?_⟩
  rw [armed_x h.armed rfl, Inst.written_of_ne _ _ _ h.len] at hleaves
  have hhistory : historyPlus I1 .x .write c.n = historyPlus (I.released s.cfg .x drop) .x .write c.n := by
    simp only [I1, Inst.released, historyPlus]
    split <;> rfl
  rw [hhistory]
  exact hleaves

/-- Settles O38: the rule copies in the last bytes from slot 0, resets the instance and commits. -/
theorem overwriteBeyondCapacity : Obligations.OverwriteBeyondCapacity := by
  intro s c hI h hn hok I cap I1
  have hpos := Inst.size_pos h.ready
  have hcap : cap < I.size := Nat.sub_one_lt hpos.ne'
  have hf := copyFault_none hok
  simp only [planRuns, copyPlan, hn, if_true] at hf
  have hmid := ((h.armed.mid.setMem (I.storageWrite s.mem 0 (s.mem.readBytes (c.a + (c.n - cap)) cap))).resetCursors)
  rw [Inst.resetCursors_eq] at hmid
  obtain ⟨t, hnext, hmem, hleaves⟩ := exec_leaves h.armed rfl rfl
    ((if_sentinel h _ _).trans ((if_pos hn).trans (overwriteAll_of_no_fault hf)))
    ((hmid.commitW_cursor (m := cap) hpos hcap).setRes0 c.n)
  refine ⟨t, hnext, copiedIn_of hI.memory.wf hpos hcap.le hmem, ?_⟩
  simp only [armed_x h.armed rfl, Inst.written, Nat.zero_add] at hleaves
  rw [Nat.mod_eq_of_lt hcap] at hleaves
  exact hleaves

end Sys2Proof.Machine
end

section
/-! PROOFS. `FIND` (R232): its check and its search. -/

namespace Sys2Proof.Machine

/-- The needle matches at `x` exactly when it occurs there: each of its bytes is that of its slot (R232). -/
theorem matchesAt_readBytes_iff (I : Inst) (m : Memory) (x a n : Nat) :
    I.matchesAt m x (m.readBytes a n) = true ↔
      ∀ j < n, Memory.read m (slotAddr I I.r (x + j)) = Memory.read m (a + j) := by
  simp only [matchesAt_iff, Memory.length_readBytes, Memory.getElem_readBytes]

/-- The needle does not match at `x` exactly when it does not occur there (R232). -/
theorem matchesAt_readBytes_eq_false_iff (I : Inst) (m : Memory) (x a n : Nat) :
    I.matchesAt m x (m.readBytes a n) = false ↔
      ¬ ∀ j < n, Memory.read m (slotAddr I I.r (x + j)) = Memory.read m (a + j) := by
  rw [← Bool.not_eq_true, matchesAt_readBytes_iff]

/-- The check of `FIND` passes when the needle is admitted and clear of storage and the slots scanned are admitted
(R64, R65, R232). -/
theorem findFault_none {s : State} {a n k len : Nat} (hneedle : Admitted s.cfg a n) (hclear : ClearOfStorage s a n)
    (hslots : ∀ j < len, Admitted s.cfg (slotAddr s.here s.here.r (k + j)) 1) :
    s.copyFault a n (s.here.slotBytes (s.here.r + k) len) = none := by
  rw [copyFault_eq_none, meetsStorage_false_iff fun _ _ hr => (Inst.size_pos hr).ne']
  refine ⟨fun x hx => rejects_false_iff.mpr ?_, hclear⟩
  simp only [slotBytes_eq, List.mem_cons, List.mem_map, List.mem_range] at hx
  obtain rfl | ⟨j, hj, rfl⟩ := hx
  · exact hneedle
  · simpa only [slotAddr, Nat.add_assoc] using hslots j hj

section
variable {s : State} {c : Pending} (h : Copying s .find c)
include h

/-- `FIND` without room for the needle from index `K` on answers 0 in both results (R232). -/
theorem find_of_short (hshort : s.here.occ s.here.r s.here.w < c.n + c.k) :
    ∃ t, exec .find s = .next t ∧ SameBytes s t ∧ Leaves s t [s.site.inst] s.here 0 0 .done := by
  obtain ⟨t, hnext, hmem, hleaves⟩ := exec_leaves h.armed rfl rfl ((if_sentinel h _ _).trans (if_pos hshort))
    ((h.armed.mid.setRes0 0).setRes1 0)
  exact ⟨t, hnext, sameBytes_of_mem hmem, hleaves⟩

/-- `FIND` whose needle fits and whose check passes answers 1 and the index found, or 0 in both results (R232). -/
theorem find_of_search {found : Option Nat} (hfits : c.n + c.k ≤ s.here.occ s.here.r s.here.w)
    (hfound : s.here.findFrom s.mem (s.mem.readBytes c.a c.n) (s.here.occ s.here.r s.here.w - c.n - c.k + 1) c.k = found)
    (hf : s.copyFault c.a c.n (s.here.slotBytes (s.here.r + c.k)
      (scanLen c.k c.n (s.here.occ s.here.r s.here.w) found)) = none) :
    ∃ t, exec .find s = .next t ∧ SameBytes s t ∧
      Leaves s t [s.site.inst] s.here found.isSome.toNat (found.getD 0) .done := by
  have hroom : ¬ s.here.occ s.here.r s.here.w < c.n + c.k := not_lt.mpr hfits
  have hmid := (h.armed.mid.setRes0 found.isSome.toNat).setRes1 (found.getD 0)
  obtain ⟨t, hnext, hmem, hleaves⟩ := exec_leaves (code := .done) h.armed rfl rfl
    ((if_sentinel h _ _).trans ((if_neg hroom).trans (by cases found <;> simp only [hfound, hf] <;> rfl))) hmid
  exact ⟨t, hnext, sameBytes_of_mem hmem, hleaves⟩

end

/-- Settles O39: the search is for the first index at which the needle occurs, and it stops there. -/
theorem findFirstMatch : Obligations.FindFirstMatch := by
  intro s c _ h
  dsimp only
  refine ⟨find_of_short h, fun hfits hneedle hclear => ⟨fun x hk hx hocc hfirst hread => ?_, fun hnone hread => ?_⟩⟩
  · refine find_of_search (found := some x) h hfits ?_ (findFault_none hneedle hclear hread)
    refine findFrom_some _ _ _ _ _ _ hk (by omega) ((matchesAt_readBytes_iff _ _ _ _ _).mpr hocc) fun y hky hyx => ?_
    exact (matchesAt_readBytes_eq_false_iff _ _ _ _ _).mpr (hfirst y hky hyx)
  · refine find_of_search (found := none) h hfits ?_ (findFault_none hneedle hclear hread)
    refine (findFrom_none _ _ _ _ _).mpr fun y hky hy => ?_
    exact (matchesAt_readBytes_eq_false_iff _ _ _ _ _).mpr (hnone y hky (by omega))

end Sys2Proof.Machine
end

section
/-! PROOFS. `MOVE` (R233 to R236): its completion, the transfer between two instances and the rotation of one. -/

namespace Sys2Proof.Machine

/-! ### The end of the step -/

theorem Carries.refl (I : Inst) : Carries I I I := ⟨.refl I, fun _ => rfl, ⟨rfl, rfl, rfl, rfl⟩⟩

/-- The resync at the end of the step leaves setup, cursors, counts, history and ports, and settles the views (R73, R82). -/
theorem Carries.resync {I K J : Inst} (h : Carries I K J) :
    SameFifo K J.resync ∧ Resynced I J.resync ∧ ∀ p, J.resync.port p = I.port p :=
  ⟨h.fifo.trans ⟨rfl, rfl, rfl, rfl, rfl, rfl, rfl, rfl, rfl⟩, resynced_of h.cross,
    fun p => (J.resync_port p).trans (h.ports p)⟩

theorem Elsewhere.mono {s t : State} {js ks : List Nat} (h : Elsewhere s t js) (hsub : js ⊆ ks) : Elsewhere s t ks :=
  { h with others := fun j hj => h.others j fun hjs => hj (hsub hjs) }

section
variable {s t : State} {js : List Nat} {K : Inst} {a b : Nat} {code : Code}

/-- The running engine's instance once an X-port command has left it: setup, cursors, counts, history, and settled views. -/
theorem Leaves.inst_x (h : Leaves s t js K a b code) (hx : s.site.port = .x) :
    SameFifo K (t.inst s.site.inst) ∧ Resynced s.here (t.inst s.site.inst) := by
  have hviews := h.views
  rw [ViewsAfter, if_pos hx] at hviews
  rw [← h.elsewhere.site]
  exact ⟨h.fifo, hviews⟩

/-- The frame of two instances that are one. -/
theorem Leaves.of_pair {j : Nat} (h : Leaves s t [j, j] K a b code) : Leaves s t [j] K a b code :=
  { h with elsewhere := h.elsewhere.mono (by simp) }

end

section
variable {s u : State} {c : Pending} {src v : Nat} (ha : Armed s (.move src) c) (he : Elsewhere s u [s.site.inst, src])
include ha

theorem Armed.src_lt : src < s.insts.length := ha.exist src (by simp [involved])

include he

/-- The destination once a `MOVE` answers `v` in `RES0` (R73). -/
theorem move_leaves_here {K : Inst} (h : Carries s.here K (u.inst s.site.inst)) :
    Leaves s ((u.setRes0 v).finish (.move src) .done) [s.site.inst, src] K v s.herePort.res1 .done := by
  have hhere : u.here = u.inst s.site.inst := congrArg (fun x : Site => u.inst x.inst) he.site
  have hlt : u.site.inst < u.insts.length := by rw [he.site, he.count]; exact ha.lt
  have hport : u.herePort = s.herePort := by
    change u.here.port u.site.port = _
    rw [hhere, he.site, h.ports]; rfl
  have hset : (u.setRes0 v).here = u.here.setPort u.site.port { u.herePort with res0 := v } := u.here_modPort _ hlt
  refine leaves_move (armed_x ha rfl) ha.lt ha.src_lt (he.trans (elsewhere_setRes0 u v (by simp [he.site]))) ?_ ?_ ?_ ?_ _
  · rw [hset, hhere]
    exact h.fifo.trans (.setPort _ _ _)
  · rw [hset, hhere]
    exact ⟨by simpa using h.cross.wpub, by simpa using h.cross.rpub, by simpa using h.cross.wsync,
      by simpa using h.cross.rsync⟩
  · exact (u.herePort_modPort _ hlt).trans (by rw [hport])
  · intro p hp
    rw [hset, Inst.port_setPort_ne _ _ _ _ (by rwa [he.site]), hhere, h.ports]

/-- Another source once a `MOVE` answers `v` in `RES0` (R73). -/
theorem move_leaves_src {K : Inst} (hne : src ≠ s.site.inst) (h : Carries (s.inst src) K (u.inst src)) :
    let t := (u.setRes0 v).finish (.move src) .done
    SameFifo K (t.inst src) ∧ Resynced (s.inst src) (t.inst src) ∧ ∀ p, (t.inst src).port p = (s.inst src).port p := by
  have hset : (u.setRes0 v).inst src = u.inst src := u.inst_modInst_ne _ _ _ (by rwa [he.site])
  have hfinal : ((u.setRes0 v).finish (.move src) .done).inst src = (u.inst src).resync := by
    rw [src_move (by simp [he.site, armed_x ha rfl]) (by simpa [he.count] using ha.src_lt) (by simpa [he.site] using hne),
      hset]
  dsimp only
  rw [hfinal]
  exact h.resync

end

/-! ### An instance that is not ready -/

/-- The rule of `MOVE` with an instance that is not ready only answers 0 (R233, R274). -/
theorem execMove_of_not_ready {s : State} {c : Pending} {src : Nat} (ha : Armed s (.move src) c)
    (hnot : s.here.ready = false ∨ (s.inst src).ready = false) :
    exec (.move src) s = .next ((s.setRes0 0).finish (.move src) .done) :=
  (complete_eq ha.busy ha.legal ha.exist).trans (by rw [if_pos hnot])

/-- Settles O40: the rule answers 0, and the end of the step settles both instances. -/
theorem moveSentinel : Obligations.MoveSentinel := by
  intro s c src _ ha hnot
  have hleaves := move_leaves_here (v := 0) ha (.refl s _) (.refl _)
  refine ⟨_, execMove_of_not_ready ha hnot, sameBytes_of_mem (by simp), hleaves, ?_⟩
  by_cases hne : src = s.site.inst
  · obtain ⟨hfifo, hsync⟩ := hleaves.inst_x (armed_x ha rfl)
    subst hne
    exact ⟨hfifo, hsync, absurd rfl⟩
  · obtain ⟨hfifo, hsync, hports⟩ := move_leaves_src (v := 0) ha (.refl s _) hne (.refl _)
    exact ⟨hfifo, hsync, fun _ => hports⟩

/-! ### The loop -/

/-- Storages that lie apart do not meet (R65). -/
theorem storagesMeet_eq_false_of_apart {D S : Inst} (h : S.base + S.size ≤ D.base ∨ D.base + D.size ≤ S.base) :
    storagesMeet D S = false :=
  meets_eq_false.mpr (by omega)

section
variable {s : State} {c : Pending} {src : Nat} (hI : s.Inv) (ha : Armed s (.move src) c) (hd : s.here.ready = true)
  (hs : (s.inst src).ready = true)
include ha hd hs

/-- A `MOVE` whose accesses pass the check, of two storages that do not meet or of one, completes with what its loop leaves and
answers its budget (R233). -/
theorem execMove_of_loop {u : State} (hbus : s.busFault (moveAccesses s.site.inst src (moveBudget s.here (s.inst src))
      (moveBudget s.here (s.inst src)) s) = none) (hapart : src ≠ s.site.inst → storagesMeet s.here (s.inst src) = false)
    (hloop : moveLoop s.site.inst src (moveBudget s.here (s.inst src)) (moveBudget s.here (s.inst src)) s = (u, .done)) :
    exec (.move src) s = .next ((u.setRes0 (moveBudget s.here (s.inst src))).finish (.move src) .done) := by
  have hnot : ¬ (src ≠ s.site.inst ∧ storagesMeet s.here (s.inst src) = true) := fun ⟨hne, hmeet⟩ => by
    simp [hapart hne] at hmeet
  refine (complete_eq ha.busy ha.legal ha.exist).trans ?_
  rw [if_neg (by simp [hd, hs])]
  simp only [hbus, hloop, if_neg hnot]

include hI

/-- The loop of a `MOVE` of two ready instances can run (R233). -/
theorem Armed.moveOk {b : Nat} (hb : moveBudget s.here (s.inst src) = b) : MoveOk s.site.inst src b s :=
  hb ▸ move_ok hI ha.lt ha.src_lt hd hs

section
variable {same : Bool} (hsame : decide (s.site.inst = src) = same) {b : Nat} {chunks : List Nat}
  (hb : moveBudget s.here (s.inst src) = b) (hchunks : moveChunks same s.here (s.inst src) b 0 b = chunks)
include hsame hb hchunks

/-- The chunks of R233 are those of the loop, and so are their accesses. -/
theorem moveChunks_eq_chunksOf : chunks = chunksOf s.site.inst src b b s ∧
    moveAccesses s.site.inst src b b s = chunkAccesses s.here (s.inst src) 0 chunks := by
  have hall := move_chunks (ha.moveOk hI hd hs hb)
  rw [hsame] at hall
  exact hchunks ▸ hall

/-- A `MOVE` that passes its checks moves the bytes of its budget in the chunks of R233: it leaves the commits of the chunks
and the bytes of the source's slots in the destination's (R233, R235). -/
theorem execMove_moves (hadmitted : AllAdmitted s.cfg (chunkAccesses s.here (s.inst src) 0 chunks))
    (hapart : src ≠ s.site.inst → storagesMeet s.here (s.inst src) = false)
    (hslots : ∀ k < b, ∀ j < b, slotAddr (s.inst src) (s.inst src).r k ≠ slotAddr s.here s.here.w j) :
    chunks.sum = b ∧ (∀ n ∈ chunks, 0 < n) ∧ ∃ mem,
      exec (.move src) s = .next ((State.setRes0 { chunksCommits s.site.inst src chunks s with mem := mem } b).finish
        (.move src) .done) ∧
      (∀ k < b, Memory.read mem (slotAddr s.here s.here.w k) = Memory.read s.mem (slotAddr (s.inst src) (s.inst src).r k)) ∧
      ∀ x, (∀ k < b, x ≠ slotAddr s.here s.here.w k) → Memory.read mem x = Memory.read s.mem x := by
  obtain ⟨heq, haccesses⟩ := moveChunks_eq_chunksOf hI ha hd hs hsame hb hchunks
  obtain ⟨u, hloop, hu, hsum, hpos, -, hbytes, hothers⟩ :=
    moveLoop_spec _ _ b b s (ha.moveOk hI hd hs hb) le_rfl hI.memory.wf hslots
  rw [← heq] at hu hsum hpos
  refine ⟨hsum, hpos, u.mem, ?_, hbytes, hothers⟩
  rw [← hu]
  subst hb
  exact execMove_of_loop ha hd hs (haccesses ▸ busFault_none_iff.mpr hadmitted) hapart hloop

end

/-- Each of the chunks that make up the budget is shorter than either storage (R233). -/
theorem chunk_bounds {b : Nat} {chunks : List Nat} (hb : moveBudget s.here (s.inst src) = b) (hsum : chunks.sum = b)
    (hpos : ∀ n ∈ chunks, 0 < n) : ∀ n ∈ chunks, 0 < n ∧ n < s.here.size ∧ n < (s.inst src).size := by
  intro n hn
  obtain ⟨-, -, -, -, hltD, hltS⟩ := chunk_le (ha.moveOk hI hd hs hb)
  have hle : n ≤ b := hsum ▸ List.single_le_sum (fun _ _ => Nat.zero_le _) n hn
  exact ⟨hpos n hn, hle.trans_lt hltD, hle.trans_lt hltS⟩

end

/-- The running engine's instance still exists once a rule has answered in `RES0`. -/
theorem Elsewhere.setRes0_lt {s u : State} {js : List Nat} (he : Elsewhere s u js) (hlt : s.site.inst < s.insts.length)
    (v : Nat) : (u.setRes0 v).site.inst < (u.setRes0 v).insts.length := by
  rw [State.setRes0_site, State.setRes0_length, he.site, he.count]
  exact hlt

/-- Settles O44: an instance that is not ready ends the command at once, the checks fault, and the loop ends with `DONE`. -/
theorem moveNeverAborts : Obligations.MoveNeverAborts := by
  intro s t src hI hexec
  obtain ⟨c, u, code, hbusy, hlegal, hexist, hrule, rfl⟩ := complete_next hexec
  have ha : Armed s (.move src) c := ⟨hbusy, hlegal, hexist⟩
  suffices hdone : code = .done ∧ u.site.inst < u.insts.length by
    rw [herePort_finish_code _ _ _ hdone.2, hdone.1]
  dsimp only at hrule
  split at hrule
  · cases hrule
    exact ⟨rfl, (Elsewhere.refl s []).setRes0_lt ha.lt 0⟩
  next hready =>
    simp only [not_or, Bool.not_eq_false] at hready
    have hcode := moveLoop_code _ _ _ _ s (ha.moveOk hI hready.1 hready.2 rfl) le_rfl
    have hframe := moveLoop_frame s.site.inst src (moveBudget s.here (s.inst src)) (moveBudget s.here (s.inst src)) s
    split at hrule
    · cases hrule
    split at hrule
    · cases hrule
    split at hrule
    next hloop =>
      cases hrule
      rw [hloop] at hframe
      exact ⟨rfl, hframe.setRes0_lt ha.lt _⟩
    next hstop hloop =>
      rw [hloop] at hcode
      exact (hstop hcode).elim

/-! ### From one instance to another -/

/-- Slots of storages that lie apart have different addresses (R65). -/
theorem slotAddr_ne_of_apart {D S : Inst} (hD : 0 < D.size) (hS : 0 < S.size)
    (h : S.base + S.size ≤ D.base ∨ D.base + D.size ≤ S.base) (x k y j : Nat) : slotAddr S x k ≠ slotAddr D y j := by
  have hsrc := slotAddr_range (x := x) (k := k) hS
  have hdst := slotAddr_range (x := y) (k := j) hD
  omega

section
variable {s : State} {c : Pending} {src : Nat} (hI : s.Inv) (ha : Armed s (.move src) c) (hd : s.here.ready = true)
  (hs : (s.inst src).ready = true) (hne : src ≠ s.site.inst) {b : Nat} {chunks : List Nat}
  (hb : moveBudget s.here (s.inst src) = b)
include hI ha hd hs hne hb

/-- Between two instances there are at most three chunks (R233). -/
theorem moveChunks_length_le (hchunks : moveChunks false s.here (s.inst src) b 0 b = chunks) : chunks.length ≤ 3 := by
  have hle := chunks_length _ _ b b s (ha.moveOk hI hd hs hb) hne.symm
  rw [← (moveChunks_eq_chunksOf hI ha hd hs (decide_eq_false hne.symm) hb hchunks).1] at hle
  split_ifs at hle <;> omega

/-- The commits of chunks that make up the budget, on either side (R233). -/
theorem chunksCommits_transfer (hsum : chunks.sum = b) (hpos : ∀ n ∈ chunks, 0 < n) :
    Carries s.here (movedIn s.cfg s.here b chunks) ((chunksCommits s.site.inst src chunks s).inst s.site.inst) ∧
    Carries (s.inst src) (movedOut s.cfg (s.inst src) b chunks) ((chunksCommits s.site.inst src chunks s).inst src) ∧
    Elsewhere s (chunksCommits s.site.inst src chunks s) [s.site.inst, src] := by
  have hinvD := State.Inv.here hI ha.lt
  have hinvS := hI.insts _ (s.inst_mem _ ha.src_lt)
  have hcommits := chunksCommits_ne s.site.inst src hne.symm s.cfg s.here (s.inst src) chunks s 0 [] ha.lt ha.src_lt
    (armed_x ha rfl) rfl (chunk_bounds hI ha hd hs hb hsum hpos)
    (carries_start_w (hinvD.cursors hd).w hinvD.fits.wcnt) (carries_start_r (hinvS.cursors hs).r hinvS.fits.rcnt)
  rwa [Nat.zero_add, hsum, List.nil_append] at hcommits

end

/-- Settles O41: the loop's chunks are at most three, and their commits add up to one on either side. -/
theorem moveTransfers : Obligations.MoveTransfers := by
  intro s c src hI ha hne hd hs D S b chunks hadmitted hapart
  have hslots := slotAddr_ne_of_apart (Inst.size_pos hd) (Inst.size_pos hs) hapart
  obtain ⟨hsum, hpos, mem, hexec, hbytes, hothers⟩ := execMove_moves (b := b) (chunks := chunks) hI ha hd hs
    (decide_eq_false hne.symm) rfl rfl hadmitted (fun _ => storagesMeet_eq_false_of_apart hapart) fun k _ j _ => hslots _ k _ j
  obtain ⟨hin, hout, hframe⟩ := chunksCommits_transfer (b := b) hI ha hd hs hne rfl hsum hpos
  have hframe' := hframe.trans (.setMem _ mem _)
  exact ⟨hsum, hpos, moveChunks_length_le (b := b) hI ha hd hs hne rfl rfl, _, hexec,
    by simpa only [State.finish_mem, State.setRes0_mem] using hbytes,
    by simpa only [State.finish_mem, State.setRes0_mem] using hothers,
    move_leaves_here ha hframe' hin, move_leaves_src ha hframe' hne hout⟩

/-! ### From an instance to itself -/

/-- Different slots of a ring have different addresses (R13). -/
theorem slotAddr_inj {I : Inst} {x k j : Nat} (hk : k < I.size) (hj : j < I.size) :
    slotAddr I x k = slotAddr I x j ↔ k = j := by
  refine ⟨fun h => ?_, congrArg _⟩
  have hmod : x + k ≡ x + j [MOD I.size] := Nat.add_left_cancel h
  exact (hmod.add_left_cancel' x).eq_of_lt_of_lt hk hj

/-- The write cursor is the occupancy ahead of the read cursor (R150). -/
theorem add_dist_mod {S a b : Nat} (ha : a < S) (hb : b < S) : (a + dist S a b) % S = b := by
  rw [add_mod_ring ha (dist_lt (Nat.zero_lt_of_lt ha)), dist_eq ha hb]
  split_ifs <;> omega

/-- The slots from the write cursor on, counted from the read cursor. -/
theorem slotAddr_w {I : Inst} (hr : I.r < I.size) (hw : I.w < I.size) (j : Nat) :
    slotAddr I I.w j = slotAddr I I.r (j + dist I.size I.r I.w) := by
  rw [← slot_shift (x := I.r) (c := dist I.size I.r I.w) rfl rfl, add_dist_mod hr hw]

/-- The bytes moved around a ring fit beside the unread ones, and leave a slot free (R157, R236). -/
theorem occ_add_budget_lt {I : Inst} {rd wr : Nat} (hready : I.ready = true) (hrd : rd < I.size) (hwr : wr < I.size) :
    I.occ rd wr + min (I.occ rd wr) (I.free rd wr) < I.size := by
  obtain ⟨-, hsum⟩ := view_facts I rd wr hready hrd hwr
  omega

section
variable {I : Inst} {o b : Nat} (hr : I.r < I.size) (hw : I.w < I.size) (ho : dist I.size I.r I.w = o) (hbo : b ≤ o)
  (hfree : o + b < I.size)
include hr hw ho hfree

/-- No unread slot is one of the `b` slots that are written (R236). -/
theorem slotAddr_r_ne_w {k j : Nat} (hk : k < o) (hj : j < b) : slotAddr I I.r k ≠ slotAddr I I.w j := by
  rw [slotAddr_w hr hw, ho, ne_eq, slotAddr_inj (by omega) (by omega)]
  omega

include hbo

/-- The first `b` unread bytes copied behind the others are a rotation of the unread bytes (R236). -/
theorem rotated_bytes {m m' : Memory}
    (hbytes : ∀ k < b, Memory.read m' (slotAddr I I.w k) = Memory.read m (slotAddr I I.r k))
    (hothers : ∀ x, (∀ k < b, x ≠ slotAddr I I.w k) → Memory.read m' x = Memory.read m x) :
    ∀ k < o, Memory.read m' (slotAddr I ((I.r + b) % I.size) k) =
      if k < o - b then Memory.read m (slotAddr I I.r (k + b)) else Memory.read m (slotAddr I I.r (k - (o - b))) := by
  intro k hk
  rw [slot_shift rfl rfl]
  split
  · exact hothers _ fun j hj => slotAddr_r_ne_w hr hw ho hfree (by omega) hj
  · rw [← hbytes _ (by omega), slotAddr_w hr hw, ho]
    congr 2
    omega

end

/-- Settles O42: the loop copies the first unread bytes behind the last, and its commits move both cursors alike. -/
theorem moveToItselfRotates : Obligations.MoveToItselfRotates := by
  intro s c hI ha hd I o b chunks hadmitted
  have hinv := State.Inv.here hI ha.lt
  obtain ⟨hr, hw, -, -⟩ := hinv.cursors hd
  have hdist : dist I.size I.r I.w = o := (Inst.occ_eq_dist hd hr hw).symm
  have hbo : b ≤ o := Nat.min_le_left _ _
  have hfree : o + b < I.size := occ_add_budget_lt hd hr hw
  obtain ⟨hsum, hpos, mem, hexec, hbytes, hothers⟩ := execMove_moves (b := b) (chunks := chunks) hI ha hd hd
    (decide_eq_true rfl) rfl rfl hadmitted (absurd rfl) fun k hk j hj =>
      slotAddr_r_ne_w hr hw hdist hfree (hk.trans_le hbo) hj
  have hbounds := chunk_bounds (b := b) hI ha hd hd rfl hsum hpos
  obtain ⟨hboth, hframe⟩ := chunksCommits_eq s.site.inst s.cfg I chunks s 0 [] ha.lt (armed_x ha rfl) rfl
    (fun n hn => ⟨hpos n hn, (hbounds n hn).2.1⟩) (carries_start_both hw hinv.fits.wcnt hr hinv.fits.rcnt)
  rw [Nat.zero_add, hsum, List.nil_append] at hboth
  exact ⟨hsum, hpos, _, hexec,
    by simpa only [State.finish_mem, State.setRes0_mem] using rotated_bytes hr hw hdist hbo hfree hbytes hothers,
    by simpa only [State.finish_mem, State.setRes0_mem] using hothers,
    (move_leaves_here ha ((hframe.trans (.setMem _ mem _)).mono (by simp)) hboth).of_pair⟩

end Sys2Proof.Machine
end

section
/-! PROOFS. Hardware reset: the instances, and memory with the bytes in flight (R42, R300, R301). -/

namespace Sys2Proof.Machine

/-- Every instance after hardware reset: the values of R42, with its history kept (R300). -/
theorem State.hwReset_inst (s : State) {i : Nat} (hi : i < s.insts.length) :
    s.hwReset.inst i = { Inst.reset s.cfg.syncStages with events := (s.inst i).events } := by
  have hi' : i < s.hwReset.insts.length := by simpa [State.hwReset] using hi
  rw [State.inst_of_lt _ _ hi', State.inst_of_lt _ _ hi]
  simp only [State.hwReset, List.getElem_map]

/-- A byte in no range that a command in flight could have written reads as before hardware reset (R301). -/
theorem State.read_hwReset_outside {s : State} (hm : Memory.wf s.mem) {x : Nat}
    (hx : ∀ b ∈ s.busyCmds, x < (havocRange s.cfg (s.inst b.1) b.2.2).1 ∨
      (havocRange s.cfg (s.inst b.1) b.2.2).1 + (havocRange s.cfg (s.inst b.1) b.2.2).2 ≤ x) :
    Memory.read s.hwReset.mem x = Memory.read s.mem x :=
  (havoc_fold _ _ s.draws hm x).1 (List.forall_mem_map.mpr hx)

/-- A byte in the range that some command in flight could have written is free after hardware reset (R301). -/
theorem State.read_hwReset_inside {s : State} (hm : Memory.wf s.mem) {b : Nat × Port × Pending} (hb : b ∈ s.busyCmds) {x : Nat}
    (hx : (havocRange s.cfg (s.inst b.1) b.2.2).1 ≤ x ∧
      x < (havocRange s.cfg (s.inst b.1) b.2.2).1 + (havocRange s.cfg (s.inst b.1) b.2.2).2) :
    ∃ d, Memory.read s.hwReset.mem x = Config.freeByte d :=
  (havoc_fold _ _ s.draws hm x).2 (.inr ⟨_, List.mem_map_of_mem hb, hx⟩)

/-- Settles O51: the instances are mapped to their reset values, and memory is read range by range of the commands in flight. -/
theorem hardwareReset : Obligations.HardwareReset := by
  intro s hm
  exact ⟨s.hwReset, rfl, rfl, State.hwReset_faults s, List.length_map _, fun i hi => s.hwReset_inst hi,
    fun x hx => State.read_hwReset_outside hm hx,
    fun b hb x hlo hhi => State.read_hwReset_inside hm hb ⟨hlo, hhi⟩⟩

end Sys2Proof.Machine
end
